-- ==== Sys2Proof/Word.lean ====
section
/-!
DEFINITION. The words of FBDEC: bytes, 32-bit registers, 64-bit host transactions.
All pixel arithmetic is `Byte` addition, which wraps modulo 256 (00_scope.md R8).
-/

namespace Sys2Proof

/-- A pixel channel, a payload byte, a header byte (00_scope.md R7, R8). -/
abbrev Byte := BitVec 8

/-- A 32-bit register of the window: CMD, CTRL, STATUS, OUTLEN (10_state.md R21). -/
abbrev Word := BitVec 32

/-- A host transaction word (30_encoding.md R75). -/
abbrev HtWord := BitVec 64

end Sys2Proof
end

