-- ==== Sys2Proof/Machine/Datapath.lean ====
section
/-!
DEFINITION. The internal registers of one decode (10_state.md section 3, rules R29 to R34) and the small
containers they are arranged in: per vendor-A channel, per side, per output component.
-/

namespace Sys2Proof.Machine

/-- Vendor-A internal channels, in the order every rule walks them (00_scope.md R10). -/
inductive Channel where
  | g | cr | cb | a
deriving DecidableEq, Repr, Inhabited

/-- A side X of a vendor-A logical cacheline (00_scope.md R10). -/
inductive Side where
  | l | r
deriving DecidableEq, Repr, Inhabited

/-- Output channels, which are also the vendor-B channels (00_scope.md R10). -/
inductive Component where
  | r | g | b | a
deriving DecidableEq, Repr, Inhabited

/-- One value for each vendor-A channel. -/
structure PerChannel (α : Type) where
  g : α
  cr : α
  cb : α
  a : α
deriving DecidableEq, Repr, Inhabited

/-- One value for each side. -/
structure PerSide (α : Type) where
  l : α
  r : α
deriving DecidableEq, Repr, Inhabited

/-- One value for each output component. -/
structure Rgba (α : Type) where
  r : α
  g : α
  b : α
  a : α
deriving DecidableEq, Repr, Inhabited

/-- The value at a channel. -/
def PerChannel.get {α : Type} (v : PerChannel α) : Channel → α
  | .g => v.g
  | .cr => v.cr
  | .cb => v.cb
  | .a => v.a

/-- The value at a side. -/
def PerSide.get {α : Type} (v : PerSide α) : Side → α
  | .l => v.l
  | .r => v.r

/-- The value at a component. -/
def Rgba.get {α : Type} (v : Rgba α) : Component → α
  | .r => v.r
  | .g => v.g
  | .b => v.b
  | .a => v.a

/-- An RGBA8 pixel (45_assembler.md). -/
abbrev Pixel := Rgba Byte

/-- The zero pixel (0, 0, 0, 0), alpha included (45_assembler.md R222, 44_vendor_b_decode.md R206). -/
def Pixel.zero : Pixel := ⟨0, 0, 0, 0⟩

/-- Byte k mod 4 of a pixel as it lies in OUT: R, G, B, A (20_memory.md R53). -/
def Pixel.byte (px : Pixel) (k : Nat) : Byte :=
  match k % 4 with
  | 0 => px.r
  | 1 => px.g
  | 2 => px.b
  | _ => px.a

/-- MP.VARIANT (10_state.md R31). -/
inductive Variant where
  | a4 | a3 | a2 | b8 | b11
deriving DecidableEq, Repr, Inhabited

/-- MP, the mode parameters latched at START (10_state.md R31, 41_commands.md R132). -/
structure ModeParams where
  variant : Variant
  /-- vendor-A logical cachelines decoded, 2..4 -/
  ncl : Nat
  /-- gen11 sub-mode 0..3 -/
  sub : Fin 4
  /-- bits per vendor-B pixel record -/
  budget : Nat
  /-- true: B, R, G inter-channel prediction -/
  pred : Bool
  /-- first logical pixel of the gen11 range -/
  lo : Nat
  /-- last logical pixel of the gen11 range -/
  hi : Nat
  ext : Bool
deriving DecidableEq, Repr, Inhabited

/-- KIND[ch][X] (10_state.md R32). -/
inductive SeedKind where
  | flat | flatInh | hseed | smseed | chain
deriving DecidableEq, Repr, Inhabited

/-- KIND, BASE and W of one channel and side (10_state.md R32). -/
structure Plan where
  kind : SeedKind
  base : Byte
  width : Fin 8
deriving DecidableEq, Repr, Inhabited

/-- P[ch][X]: the two rows of four columns of one side (10_state.md R33). -/
structure Samples where
  /-- row 0 -/
  upper : Vector Byte 4
  /-- row 1 -/
  lower : Vector Byte 4
deriving DecidableEq, Repr, Inhabited

/-- P[ch][X][row][j]; row is taken modulo 2 and j modulo 4. -/
def Samples.at (p : Samples) (row j : Nat) : Byte :=
  if row % 2 = 0 then p.upper[j % 4]'(Nat.mod_lt _ (by decide)) else p.lower[j % 4]'(Nat.mod_lt _ (by decide))

/-- Every internal register of 10_state.md section 3, and C, the command word START latches (41_commands.md
R130). Outside a decode their values are unspecified (R29, R37) and the host cannot observe them (R36). -/
structure Datapath where
  /-- C, the latched command word (41_commands.md R130) -/
  command : Word
  /-- CUR, 0..512 (R29) -/
  cur : Fin 513
  /-- ACC_BITS (R30) -/
  accBits : BitVec 32
  /-- ACC_CNT, 0..32 (R30) -/
  accCnt : Fin 33
  /-- MP (R31) -/
  mp : ModeParams
  /-- HP (R32) -/
  hp : PerChannel (PerSide Bool)
  /-- CST (R32) -/
  cst : PerChannel (PerSide Bool)
  /-- KIND, BASE, W (R32) -/
  plan : PerChannel (PerSide Plan)
  /-- P (R33) -/
  samples : PerChannel (PerSide Samples)
  /-- SKIP (R34) -/
  skip : Rgba Bool
  /-- BASE_B (R34) -/
  baseB : Rgba Byte
  /-- WB (R34) -/
  wb : Rgba (Fin 8)
  /-- U (R34) -/
  u : Vector Bool 8
  /-- LP (R34) -/
  lp : Vector Pixel 32
deriving DecidableEq, Repr, Inhabited

end Sys2Proof.Machine
end

