-- ==== Sys2Proof/Config.lean ====
section
/-!
DEFINITION. What an implementation fixes (00_scope.md R6) and the free values. The mode table of the ten decode
commands (30_encoding.md R71, 41_commands.md R132) is here as data, its mode codes a parameter. The two parameters with
a default and alternatives are a record that State holds; the OPEN ones are opaque constants. An opaque constant has no
body: nothing can be proved about its value beyond its type. Parameters that are sizes stand in the types of State
(PAYLOAD_BYTES 64, A_OUT_BYTES 256, ACC_CAP 32 bits) and in the operations' guards (PAYLOAD_BITS 512, READ_MAX 8).
-/

namespace Sys2Proof.Config

open Sys2Proof.Machine

/-- GEN8_BUDGET, bits per gen8 pixel record (decision D19). -/
abbrev gen8Budget : Nat := 14

/-- GEN11_BUDGET[S0..S3] (00_scope.md R6: 6, 12, 12, 14). -/
abbrev gen11Budget : Fin 4 → Nat
  | 0 => 6
  | 1 => 12
  | 2 => 12
  | 3 => 14

/-- EXT_UNIFORM_COUNT (00_scope.md R6). -/
abbrev extUniformCount : Nat := 4

/-- A_SEED_WIDTH, the width of the headerless left seed (00_scope.md R6). -/
abbrev aSeedWidth : Fin 8 := 7

/-! ### Parameters with a default -/

/-- A_RIGHT_INHERIT: the three seeds of a right side of pattern 1000 (42_vendor_a_header.md R159, 90_conflicts.md C5,
PA5). -/
inductive RightInherit where
  | chain | absoluteSm | baseSeed
deriving DecidableEq, Repr

/-- The mode codes: 8-bit codes, distinct within their PATH (00_scope.md R6, PA6). The constraint is the type. -/
structure ModeCodes where
  /-- MODE_A_4CL -/
  a4cl : Byte
  /-- MODE_A_3CL -/
  a3cl : Byte
  /-- MODE_A_2CL -/
  a2cl : Byte
  /-- MODE_B_GEN8 -/
  bGen8 : Byte
  /-- MODE_B_G11_S0 -/
  bG11S0 : Byte
  /-- MODE_B_G11_S1 -/
  bG11S1 : Byte
  /-- MODE_B_G11_S2 -/
  bG11S2 : Byte
  /-- MODE_B_G11_S3 -/
  bG11S3 : Byte
  distinctA : [a4cl, a3cl, a2cl].Nodup
  distinctB : [bGen8, bG11S0, bG11S1, bG11S2, bG11S3].Nodup
deriving DecidableEq, Repr

/-- The mode codes at their defaults (00_scope.md R6, decision D4). -/
def ModeCodes.defaults : ModeCodes :=
  { a4cl := 4, a3cl := 3, a2cl := 2, bGen8 := 0, bG11S0 := 1, bG11S1 := 2, bG11S2 := 3, bG11S3 := 4,
    distinctA := by decide, distinctB := by decide }

/-- The parameters the model takes as arguments (00_scope.md R6; 93_implementation_defined.md PA5, PA6). A State holds
one choice of them, which no step changes (log 12). -/
structure Parameters where
  rightInherit : RightInherit
  codes : ModeCodes
deriving DecidableEq, Repr

/-- A_RIGHT_INHERIT = CHAIN and the default mode codes (00_scope.md R6, decisions D17 and D4). -/
def Parameters.defaults : Parameters := { rightInherit := .chain, codes := ModeCodes.defaults }

/-! ### OPEN parameters and free values -/

/-- GEN11_PRED[S0..S3], OPEN: true means B, R, G inter-channel prediction (00_scope.md R6, PA1). -/
opaque gen11Pred : Fin 4 → Bool

/-- B_SLOT, OPEN: a bijection on 0..31 from logical pixel index to physical slot (00_scope.md R6, PA2). The
constraint is the type. -/
opaque bSlot : Equiv.Perm (Fin 32)

/-- N_INSTANCES, OPEN, at least 1 (00_scope.md R6, PA3). -/
opaque nInstances : ℕ+

/-- WINDOW_BASE, OPEN: the system address of an FBDEC's register window, chosen by the platform for each
FBDEC it holds (20_memory.md R58, PA4). FBDEC never sees it; only Machine/Platform.lean uses it. -/
opaque windowBase : Fin nInstances → Nat

/-- Free value: the PAYLOAD bytes after a reset (10_state.md R22, U1), one draw a reset. -/
opaque freePayload : Nat → Vector Byte 64

/-- Free value: OUT bytes the spec leaves unspecified (10_state.md R27, U2, U3). -/
opaque freeOut : Nat → Vector Byte 256

/-- Free value: the internal registers outside a decode (10_state.md R29 to R37, U5). -/
opaque freeDatapath : Nat → Datapath

/-- Free value: what a host read of an undefined OUT byte returns (41_commands.md R148, U2). -/
opaque freeByte : Nat → Byte

/-- Free value: STATUS.POS read while BUSY, any value of the 10-bit field (41_commands.md R147, U4). -/
opaque freePos : Nat → BitVec 10

end Sys2Proof.Config

namespace Sys2Proof

/-- The ten decode commands, one for each row of the mode table (30_encoding.md R71). -/
inductive Command where
  | a4 | a3 | a2 | b8 | b11s0 | b11s1 | b11s2 | b11s3 | b11s0x | b11s3x
deriving DecidableEq, Repr, Inhabited

/-- Every command, in the mode table's order. -/
def Command.all : List Command := [.a4, .a3, .a2, .b8, .b11s0, .b11s1, .b11s2, .b11s3, .b11s0x, .b11s3x]

/-- PATH of a command: false is the vendor-A entry point, true the vendor-B one (30_encoding.md R71). -/
def Command.path : Command → Bool
  | .a4 | .a3 | .a2 => false
  | .b8 | .b11s0 | .b11s1 | .b11s2 | .b11s3 | .b11s0x | .b11s3x => true

/-- MODE of a command, under the mode codes of the machine (30_encoding.md R71). -/
def Command.mode (codes : Config.ModeCodes) : Command → Byte
  | .a4 => codes.a4cl
  | .a3 => codes.a3cl
  | .a2 => codes.a2cl
  | .b8 => codes.bGen8
  | .b11s0 | .b11s0x => codes.bG11S0
  | .b11s1 => codes.bG11S1
  | .b11s2 => codes.bG11S2
  | .b11s3 | .b11s3x => codes.bG11S3

/-- EXT of a command (30_encoding.md R71, R72). -/
def Command.ext : Command → Bool
  | .b11s0x | .b11s3x => true
  | .a4 | .a3 | .a2 | .b8 | .b11s0 | .b11s1 | .b11s2 | .b11s3 => false

open Sys2Proof.Machine in
/-- MP of a vendor-A command with n cachelines; the fields the table of R132 leaves empty hold 0 and no rule reads
them (DESIGN CHOICE, log 13). -/
def vendorAParams (v : Variant) (n : Nat) : ModeParams :=
  { variant := v, ncl := n, sub := 0, budget := 0, pred := false, lo := 0, hi := 0, ext := false }

open Sys2Proof.Machine in
/-- MP of a gen11 command of sub-mode k (41_commands.md R132). -/
def gen11Params (k : Fin 4) (lo hi : Nat) (ext : Bool) : ModeParams :=
  { variant := .b11, ncl := 0, sub := k, budget := Config.gen11Budget k, pred := Config.gen11Pred k,
    lo := lo, hi := hi, ext := ext }

open Sys2Proof.Machine in
/-- ModeParams(C): the static parameters of each command (41_commands.md R132). -/
def Command.params : Command → ModeParams
  | .a4 => vendorAParams .a4 4
  | .a3 => vendorAParams .a3 3
  | .a2 => vendorAParams .a2 2
  | .b8 => { variant := .b8, ncl := 0, sub := 0, budget := Config.gen8Budget, pred := false, lo := 0, hi := 31,
             ext := false }
  | .b11s0 => gen11Params 0 0 31 false
  | .b11s1 => gen11Params 1 0 15 false
  | .b11s2 => gen11Params 2 16 31 false
  | .b11s3 => gen11Params 3 0 31 false
  | .b11s0x => gen11Params 0 0 31 true
  | .b11s3x => gen11Params 3 0 31 true

end Sys2Proof
end

