-- ==== Sys2Proof/Syntax.lean ====
section
/-!
DEFINITION. The instructions of FBDEC: one constructor for each row of spec/opcode_table.json. The ten decode
commands are the CMD32 rows (a command word selects one fixed decode sequence, 10_state.md R20); the ten host
operations are the HT rows (30_encoding.md R75).
-/

namespace Sys2Proof

/-- One constructor per row of the opcode table. -/
inductive Instr where
  /-- DECODE.A4 (41_commands.md R133) -/
  | decodeA4
  /-- DECODE.A3 (R134) -/
  | decodeA3
  /-- DECODE.A2 (R135) -/
  | decodeA2
  /-- DECODE.B8 (R136) -/
  | decodeB8
  /-- DECODE.B11S0 (R137) -/
  | decodeB11S0
  /-- DECODE.B11S1 (R138) -/
  | decodeB11S1
  /-- DECODE.B11S2 (R139) -/
  | decodeB11S2
  /-- DECODE.B11S3 (R140) -/
  | decodeB11S3
  /-- DECODE.B11S0X (R141) -/
  | decodeB11S0X
  /-- DECODE.B11S3X (R142) -/
  | decodeB11S3X
  /-- RDPAY: read PAYLOAD[off] (R144) -/
  | rdpay (off : BitVec 6)
  /-- WRPAY: PAYLOAD[off] <- byte (R144) -/
  | wrpay (off : BitVec 6) (byte : Byte)
  /-- RDCMD (R145) -/
  | rdcmd
  /-- WRCMD: CMD <- word (R145) -/
  | wrcmd (word : Word)
  /-- START: a CTRL write whose DATA bit 0 is 1; DATA bits 31:1 are ignored and kept here (R130, 10_state.md R24) -/
  | start (data : Word)
  /-- WRCTRL0: a CTRL write whose DATA bit 0 is 0; DATA bits 31:1 are ignored and kept here (R146) -/
  | wrctrl0 (data : Word)
  /-- RDCTRL (R146) -/
  | rdctrl
  /-- RDSTAT (R147) -/
  | rdstat
  /-- RDLEN (R147) -/
  | rdlen
  /-- RDOUT: read OUT[off] (R148) -/
  | rdout (off : BitVec 8)
deriving DecidableEq, Repr

/-- The instruction a row of the mode table stands for (30_encoding.md R71). -/
def Instr.ofCommand : Command → Instr
  | .a4 => .decodeA4
  | .a3 => .decodeA3
  | .a2 => .decodeA2
  | .b8 => .decodeB8
  | .b11s0 => .decodeB11S0
  | .b11s1 => .decodeB11S1
  | .b11s2 => .decodeB11S2
  | .b11s3 => .decodeB11S3
  | .b11s0x => .decodeB11S0X
  | .b11s3x => .decodeB11S3X

end Sys2Proof
end

