-- ==== Sys2Proof/WellFormed.lean ====
section
/-!
DEFINITION. Which instructions are well formed. Offsets and bytes are bounded by their types; what is left to check
is DATA bit 0 of the two CTRL writes, which tells START from WRCTRL0 (10_state.md R24, 41_commands.md R146).
-/

namespace Sys2Proof

/-- An instruction that some word of the opcode table encodes. -/
def Instr.wellFormed : Instr → Bool
  | .start data => data.getLsbD 0
  | .wrctrl0 data => !data.getLsbD 0
  | .decodeA4 | .decodeA3 | .decodeA2 | .decodeB8 | .decodeB11S0 | .decodeB11S1 | .decodeB11S2 | .decodeB11S3
  | .decodeB11S0X | .decodeB11S3X | .rdpay _ | .wrpay _ _ | .rdcmd | .wrcmd _ | .rdctrl | .rdstat | .rdlen
  | .rdout _ => true

/-- The instruction's well-formedness as a proposition. -/
abbrev Instr.WellFormed (i : Instr) : Prop := i.wellFormed = true

end Sys2Proof
end

