-- ==== Sys2Proof/Decode.lean ====
section
/-!
DEFINITION. The decoder, total on any bytes and rejecting by name, and after it the encoder. There are two formats:
the 32-bit command word CMD32 (30_encoding.md R70 to R74) and the 64-bit host transaction HT (R75).
-/

namespace Sys2Proof

/-- Why a command word is refused; each is the UnsupportedMode detail of that name (30_encoding.md R74). -/
inductive CommandReject where
  | reservedCmdBits | unknownMode | extNotAllowed
deriving DecidableEq, Repr

/-- Why a host transaction matches no row (93_implementation_defined.md X1 to X4). Which name is given when several
apply is the model's choice (log 15). -/
inductive AccessReject where
  /-- X1: an offset in 0x050..0x0FF -/
  | reservedOffset
  /-- X2: a write to STATUS, OUTLEN or OUT -/
  | readOnlyWrite
  /-- X3: wrong width or alignment -/
  | wrongWidth
  /-- X4: a nonzero bit in 63:48 or 15:11, in DATA of a read, or in DATA[31:8] of a byte write -/
  | malformed
deriving DecidableEq, Repr

/-- Why the decoder refuses. -/
inductive Reject where
  | command (why : CommandReject)
  | access (why : AccessReject)
  /-- a byte string that is neither 4 nor 8 bytes long -/
  | length
deriving DecidableEq, Repr

/-- An instruction's bits, in one of the two formats. -/
inductive Code where
  | cmd32 (w : Word)
  | ht (w : HtWord)
deriving DecidableEq, Repr

/-! ### Command words -/

/-- MODE, bits 7:0 of a command word (30_encoding.md R70). -/
def cmdMode (w : Word) : Byte := w.extractLsb' 0 8

/-- PATH, bit 8. -/
def cmdPath (w : Word) : Bool := w.getLsbD 8

/-- EXT, bit 9. -/
def cmdExt (w : Word) : Bool := w.getLsbD 9

/-- RSVD, bits 31:10. -/
def cmdRsvd (w : Word) : BitVec 22 := w.extractLsb' 10 22

/-- The mode table without its EXT column: the row of a (PATH, MODE) pair under the machine's mode codes
(30_encoding.md R71). -/
def modeTable (codes : Config.ModeCodes) (path : Bool) (mode : Byte) : Option Command :=
  if path = false then
    if mode = codes.a4cl then some .a4
    else if mode = codes.a3cl then some .a3
    else if mode = codes.a2cl then some .a2
    else none
  else
    if mode = codes.bGen8 then some .b8
    else if mode = codes.bG11S0 then some .b11s0
    else if mode = codes.bG11S1 then some .b11s1
    else if mode = codes.bG11S2 then some .b11s2
    else if mode = codes.bG11S3 then some .b11s3
    else none

/-- The row with EXT = 1, for the two whole-block gen11 sub-modes (30_encoding.md R72). -/
def withExtension : Command → Option Command
  | .b11s0 => some .b11s0x
  | .b11s3 => some .b11s3x
  | .a4 | .a3 | .a2 | .b8 | .b11s1 | .b11s2 | .b11s0x | .b11s3x => none

/-- The command a command word selects; the checks run in the order of 30_encoding.md R74 (41_commands.md R131). -/
def decodeCommand (codes : Config.ModeCodes) (w : Word) : Except CommandReject Command :=
  if cmdRsvd w ≠ 0 then .error .reservedCmdBits
  else
    match modeTable codes (cmdPath w) (cmdMode w) with
    | none => .error .unknownMode
    | some c =>
      if cmdExt w then
        match withExtension c with
        | some x => .ok x
        | none => .error .extNotAllowed
      else .ok c

/-! ### Host transactions -/

/-- ADDR, bits 8:0 of a transaction word (30_encoding.md R75). -/
def htAddr (w : HtWord) : BitVec 9 := w.extractLsb' 0 9

/-- WR, bit 9. -/
def htWr (w : HtWord) : Bool := w.getLsbD 9

/-- WIDE, bit 10: 1 is a 32-bit access. -/
def htWide (w : HtWord) : Bool := w.getLsbD 10

/-- Bits 15:11, zero. -/
def htLowZeros (w : HtWord) : BitVec 5 := w.extractLsb' 11 5

/-- DATA, bits 47:16. -/
def htData (w : HtWord) : Word := w.extractLsb' 16 32

/-- Bits 63:48, zero. -/
def htHighZeros (w : HtWord) : BitVec 16 := w.extractLsb' 48 16

/-- The zero fields of a transaction word are zero (30_encoding.md R75: DATA is 0 for a read, and its bits 31:8 are 0
for a byte write). -/
def htShape (w : HtWord) : Bool :=
  htHighZeros w == 0 && htLowZeros w == 0 && (htWr w || htData w == 0) &&
    (!htWr w || htWide w || (htData w).extractLsb' 8 24 == 0)

/-- The row of an access, by the register map and the access widths (10_state.md R21, 20_memory.md R55). -/
def decodeAccess (addr : BitVec 9) (wr wide : Bool) (data : Word) : Except AccessReject Instr :=
  if addr.toNat < 0x040 then
    if wide then .error .wrongWidth
    else if wr then .ok (.wrpay (addr.extractLsb' 0 6) (data.extractLsb' 0 8))
    else .ok (.rdpay (addr.extractLsb' 0 6))
  else if addr.toNat < 0x050 then
    if !wide then .error .wrongWidth
    else if addr = 0x040 then
      if wr then .ok (.wrcmd data) else .ok .rdcmd
    else if addr = 0x044 then
      if wr then
        if data.getLsbD 0 then .ok (.start data) else .ok (.wrctrl0 data)
      else .ok .rdctrl
    else if addr = 0x048 then
      if wr then .error .readOnlyWrite else .ok .rdstat
    else if addr = 0x04C then
      if wr then .error .readOnlyWrite else .ok .rdlen
    else .error .wrongWidth
  else if addr.toNat < 0x100 then .error .reservedOffset
  else if wr then .error .readOnlyWrite
  else if wide then .error .wrongWidth
  else .ok (.rdout (addr.extractLsb' 0 8))

/-- The host operation a transaction word stands for (30_encoding.md R75). -/
def decodeHt (w : HtWord) : Except AccessReject Instr :=
  if htShape w then decodeAccess (htAddr w) (htWr w) (htWide w) (htData w) else .error .malformed

/-! ### Both formats -/

/-- The instruction of a code, under the machine's mode codes. -/
def decodeCode (codes : Config.ModeCodes) : Code → Except Reject Instr
  | .cmd32 w =>
    match decodeCommand codes w with
    | .ok c => .ok (.ofCommand c)
    | .error e => .error (.command e)
  | .ht w =>
    match decodeHt w with
    | .ok i => .ok i
    | .error e => .error (.access e)

/-- The number whose little-endian bytes are given. -/
def littleEndian : List Byte → Nat
  | [] => 0
  | b :: bs => b.toNat + 256 * littleEndian bs

/-- The code in a byte string: 4 bytes are a command word, 8 a transaction word, least significant byte first
(20_memory.md R54; DESIGN CHOICE for HT, which no memory holds, log 15). -/
def codeOfBytes (bs : List Byte) : Except Reject Code :=
  if bs.length = 4 then .ok (.cmd32 (BitVec.ofNat 32 (littleEndian bs)))
  else if bs.length = 8 then .ok (.ht (BitVec.ofNat 64 (littleEndian bs)))
  else .error .length

/-- The decoder, total on any bytes, under the machine's mode codes. -/
def decodeBytes (codes : Config.ModeCodes) (bs : List Byte) : Except Reject Instr :=
  match codeOfBytes bs with
  | .ok c => decodeCode codes c
  | .error e => .error e

/-- n bytes of a number, least significant first. -/
def bytesOf : Nat → Nat → List Byte
  | 0, _ => []
  | n + 1, w => BitVec.ofNat 8 w :: bytesOf n (w / 256)

/-- The format of an opcode-table row, by its width: at most 32 bits is CMD32, more is HT. -/
def tableBytes (nbits w : Nat) : List Byte :=
  if nbits ≤ 32 then bytesOf 4 w else bytesOf 8 w

/-- What the decoder reads from an instruction of the opcode table whose bits are w. The table's command words are those
of the default mode codes, and so is this reading (log 12). -/
def decodeTableWord (nbits w : Nat) : Option Instr :=
  match decodeBytes Config.ModeCodes.defaults (tableBytes nbits w) with
  | .ok i => some i
  | .error _ => none

/-! ### The encoder -/

/-- The command word of a command under the machine's mode codes: RSVD, EXT, PATH, MODE (30_encoding.md R70, R71). -/
def encodeCommand (codes : Config.ModeCodes) (c : Command) : Word :=
  (0 : BitVec 22) ++ BitVec.ofBool c.ext ++ BitVec.ofBool c.path ++ c.mode codes

/-- A transaction word from its fields (30_encoding.md R75). -/
def htWord (addr : BitVec 9) (wr wide : Bool) (data : Word) : HtWord :=
  (0 : BitVec 16) ++ data ++ (0 : BitVec 5) ++ BitVec.ofBool wide ++ BitVec.ofBool wr ++ addr

/-- The code of a well-formed instruction, under the machine's mode codes. -/
def encode (codes : Config.ModeCodes) : Instr → Code
  | .decodeA4 => .cmd32 (encodeCommand codes .a4)
  | .decodeA3 => .cmd32 (encodeCommand codes .a3)
  | .decodeA2 => .cmd32 (encodeCommand codes .a2)
  | .decodeB8 => .cmd32 (encodeCommand codes .b8)
  | .decodeB11S0 => .cmd32 (encodeCommand codes .b11s0)
  | .decodeB11S1 => .cmd32 (encodeCommand codes .b11s1)
  | .decodeB11S2 => .cmd32 (encodeCommand codes .b11s2)
  | .decodeB11S3 => .cmd32 (encodeCommand codes .b11s3)
  | .decodeB11S0X => .cmd32 (encodeCommand codes .b11s0x)
  | .decodeB11S3X => .cmd32 (encodeCommand codes .b11s3x)
  | .rdpay off => .ht (htWord (off.setWidth 9) false false 0)
  | .wrpay off byte => .ht (htWord (off.setWidth 9) true false (byte.setWidth 32))
  | .rdcmd => .ht (htWord 0x040 false true 0)
  | .wrcmd word => .ht (htWord 0x040 true true word)
  | .start data => .ht (htWord 0x044 true true data)
  | .wrctrl0 data => .ht (htWord 0x044 true true data)
  | .rdctrl => .ht (htWord 0x044 false true 0)
  | .rdstat => .ht (htWord 0x048 false true 0)
  | .rdlen => .ht (htWord 0x04C false true 0)
  | .rdout off => .ht (htWord (0x100 ||| off.setWidth 9) false false 0)

/-- The bytes of a code, least significant first. -/
def Code.bytes : Code → List Byte
  | .cmd32 w => bytesOf 4 w.toNat
  | .ht w => bytesOf 8 w.toNat

end Sys2Proof
end

