-- ==== Sys2Proof/Machine/State.lean ====
section
/-!
DEFINITION. The state of one FBDEC: the host-visible registers and the internal registers of 10_state.md, and the
model's own four fields (`parameters`, `inputs`, `readData`, `draws`). Plain data throughout. `State.reset` is the
machine right after reset (70_reset_and_hazards.md R270).
-/

namespace Sys2Proof.Machine

/-- PAYLOAD (10_state.md R22). -/
abbrev Payload := Vector Byte 64

/-- STATUS.STATE (10_state.md R25). -/
inductive DecodeState where
  | idle | busy | done | fault
deriving DecidableEq, Repr, Inhabited

/-- STATUS.FAULT (60_exceptions.md R240). -/
inductive FaultKind where
  | none | unsupportedMode | formatViolation | outOfBounds | invariantViolation
deriving DecidableEq, Repr, Inhabited

/-- STATUS.DETAIL (60_exceptions.md R241). -/
inductive Detail where
  | none | unknownMode | reservedCmdBits | extNotAllowed | headerPattern | nonzeroReserved | readPastEnd
  | zeroHeaderByte | uniformCount | widthBudget | accCapacity
deriving DecidableEq, Repr, Inhabited

/-- STATUS.WARN (60_exceptions.md R246). -/
inductive Warning where
  | none | aTrailingSynth | bHalfSynth
deriving DecidableEq, Repr, Inhabited

/-- The fields of STATUS; its reserved bits hold nothing and read 0 (10_state.md R25). -/
structure Status where
  state : DecodeState
  outValid : Bool
  fault : FaultKind
  detail : Detail
  warn : Warning
  pos : BitVec 10
deriving DecidableEq, Repr, Inhabited

/-- Something that comes to the machine from outside, in the order of State.inputs (log 2). -/
inductive Input where
  /-- the host puts a transaction word on the register window (30_encoding.md R75) -/
  | transaction (w : HtWord)
  /-- the decoder, if a decode is in progress, moves before the next host access (70 R276) -/
  | decoder
  /-- the platform asserts reset (70 R270) -/
  | reset
deriving DecidableEq, Repr

/-- What the last host read returned (41_commands.md section 4). -/
inductive ReadData where
  /-- no host read has been made yet -/
  | nothing
  /-- a byte read, of PAYLOAD or OUT -/
  | byte (v : Byte)
  /-- a 32-bit read, of CMD, CTRL, STATUS or OUTLEN -/
  | word (v : Word)
deriving DecidableEq, Repr, Inhabited

/-- Reasons the machine itself stops. There is none: every decode fault is recorded in STATUS and the machine goes on
(60_exceptions.md R243), and no defined behaviour is stuck (93_implementation_defined.md section 6). -/
inductive Fault where
deriving DecidableEq, Repr

/-- Reasons the model has no next state. The last two are the spec's own refusals. -/
inductive Refusal where
  /-- Raised by exec for an instruction without a meaning; no arm does. Safe. -/
  | notModelled (mnemonic : String)
  /-- Raised by the step for a transaction word that matches no row (30_encoding.md R75, X1 to X4). Safe: the spec
  defines no behaviour for it. -/
  | undefinedAccess (why : AccessReject)
  /-- Raised by WRPAY, WRCMD, START and WRCTRL0 while STATE = BUSY (70 R273, X5). Safe: the spec says the model
  refuses them. -/
  | writeWhileBusy
deriving DecidableEq, Repr

/-- One FBDEC. -/
structure State where
  /-- PAYLOAD (10_state.md R22) -/
  payload : Payload
  /-- CMD (R23) -/
  cmd : Word
  /-- STATUS (R25) -/
  status : Status
  /-- OUTLEN, bits 8:0; bits 31:9 read 0 (R26) -/
  outlen : BitVec 9
  /-- OUT (R27); a byte of it is defined only when STATE = DONE and its index is below OUTLEN -/
  out : Vector Byte 256
  /-- the internal registers (R29 to R34) -/
  dp : Datapath
  /-- the model's own: the parameters this FBDEC is built with (00_scope.md R6), which no step changes (log 12) -/
  parameters : Config.Parameters
  /-- the model's own: events still to come, in order (log 2) -/
  inputs : List Input
  /-- the model's own: what the last host read returned (log 3) -/
  readData : ReadData
  /-- the model's own: how many free values have been drawn (log 4) -/
  draws : Nat
deriving DecidableEq, Repr

/-- STATUS after reset: 0x00000000 (10_state.md R37). -/
def Status.atReset : Status :=
  { state := .idle, outValid := false, fault := .none, detail := .none, warn := .none, pos := 0 }

/-- The registers at their reset values (10_state.md R37, 70 R270): CMD 0, STATUS 0, OUTLEN 0; PAYLOAD, OUT and the
internal registers are free values, draw n. The model's own fields are the caller's. -/
def State.atReset (parameters : Config.Parameters) (n : Nat) (inputs : List Input) (readData : ReadData) : State :=
  { payload := Config.freePayload n
    cmd := 0
    status := Status.atReset
    outlen := 0
    out := Config.freeOut n
    dp := Config.freeDatapath n
    parameters := parameters
    inputs := inputs
    readData := readData
    draws := n + 1 }

/-- The machine right after reset, with nothing put to it yet, its parameters at the spec's defaults. -/
def State.reset : State := State.atReset Config.Parameters.defaults 0 [] .nothing

end Sys2Proof.Machine
end

