-- ==== Sys2Proof/Machine/Flags.lean ====
section
/-!
DEFINITION. The only flags FBDEC has are the STATUS fields (10_state.md R35). Here are their codes, the kind of each
detail, the warning of a mode and the STATUS word a host reads.
-/

namespace Sys2Proof.Machine

/-- STATUS[1:0] (10_state.md R25). -/
def DecodeState.code : DecodeState → BitVec 2
  | .idle => 0
  | .busy => 1
  | .done => 2
  | .fault => 3

/-- STATUS[6:4] (60_exceptions.md R240). -/
def FaultKind.code : FaultKind → BitVec 3
  | .none => 0
  | .unsupportedMode => 1
  | .formatViolation => 2
  | .outOfBounds => 3
  | .invariantViolation => 4

/-- STATUS[11:8] (60_exceptions.md R241). -/
def Detail.code : Detail → BitVec 4
  | .none => 0
  | .unknownMode => 1
  | .reservedCmdBits => 2
  | .extNotAllowed => 3
  | .headerPattern => 4
  | .nonzeroReserved => 5
  | .readPastEnd => 6
  | .zeroHeaderByte => 7
  | .uniformCount => 8
  | .widthBudget => 9
  | .accCapacity => 10

/-- The kind column of 60_exceptions.md R241. -/
def Detail.kind : Detail → FaultKind
  | .none => .none
  | .unknownMode | .reservedCmdBits | .extNotAllowed => .unsupportedMode
  | .headerPattern | .nonzeroReserved => .formatViolation
  | .readPastEnd => .outOfBounds
  | .zeroHeaderByte | .uniformCount | .widthBudget | .accCapacity => .invariantViolation

/-- STATUS[13:12] (60_exceptions.md R246). -/
def Warning.code : Warning → BitVec 2
  | .none => 0
  | .aTrailingSynth => 1
  | .bHalfSynth => 2

/-- The warning START records for a mode (41_commands.md R130). -/
def ModeParams.warning (mp : ModeParams) : Warning :=
  match mp.variant with
  | .a3 | .a2 => .aTrailingSynth
  | .b11 => if mp.sub = 1 ∨ mp.sub = 2 then .bHalfSynth else .none
  | .a4 | .b8 => .none

/-- The UnsupportedMode detail of a refused command word (41_commands.md R131). -/
def detailOfReject : CommandReject → Detail
  | .reservedCmdBits => .reservedCmdBits
  | .unknownMode => .unknownMode
  | .extNotAllowed => .extNotAllowed

/-- The STATUS word: bits 31:26, 15:14, 7 and 3 read 0 (10_state.md R25). -/
def Status.word (st : Status) : Word :=
  (0 : BitVec 6) ++ st.pos ++ (0 : BitVec 2) ++ st.warn.code ++ st.detail.code ++ (0 : BitVec 1) ++ st.fault.code ++
    (0 : BitVec 1) ++ BitVec.ofBool st.outValid ++ st.state.code

/-- OUTLEN on DONE: 256 for vendor-A, 128 for vendor-B (41_commands.md R143, 10_state.md R26). -/
def Variant.outlen : Variant → BitVec 9
  | .a4 | .a3 | .a2 => 256
  | .b8 | .b11 => 128

end Sys2Proof.Machine
end

