-- ==== Sys2Proof/Machine/Ops.lean ====
section
/-!
DEFINITION. The shared operations: reading the payload's bits and the accumulator (40_bit_reader.md), taking a fault
and completing a decode (60_exceptions.md R243, 41_commands.md R143), host reads and writes of the register window,
and reset.
-/

namespace Sys2Proof.Machine

/-! ### The bit reader -/

/-- A micro-operation of a decode: it works on the internal registers and either answers a value or raises a fault
with the given detail. The payload is an argument, so no micro-operation can write it (20_memory.md R65). -/
abbrev Micro (α : Type) := EStateM Detail Datapath α

/-- PayloadBit(p) = (PAYLOAD[p >> 3] >> (p & 7)) & 1, for p in 0..511 (20_memory.md R51). -/
def payloadBit (pl : Payload) (p : Nat) : Bool := (pl[p / 8]?.getD 0).getLsbD (p % 8)

/-- A single bit as a byte. -/
def bitByte (b : Bool) : Byte := (BitVec.ofBool b).setWidth 8

/-- The n-bit field that starts at bit p, its first bit least significant (20_memory.md R52). -/
def bitsAt (pl : Payload) (p : Nat) : Nat → Byte
  | 0 => 0
  | n + 1 => bitsAt pl p n ||| bitByte (payloadBit pl (p + n)) <<< n

/-- ReadBits(n) (40_bit_reader.md R100). The bounds check comes before any bit is taken. -/
def readBits (pl : Payload) (n : Nat) : Micro Byte := fun d =>
  if h : d.cur.val + n ≤ 512 then .ok (bitsAt pl d.cur.val n) { d with cur := ⟨d.cur.val + n, by omega⟩ }
  else .error .readPastEnd d

/-- A 1-bit field (30_encoding.md R79: 1 means set). -/
def readFlag (pl : Payload) : Micro Bool := do
  let v ← readBits pl 1
  pure (v.getLsbD 0)

/-- A vendor-B width field of WIDTH_FIELD_BITS = 3 bits (00_scope.md R6). -/
def readWidth (pl : Payload) : Micro (Fin 8) := do
  let v ← readBits pl 3
  pure (Fin.ofNat 8 v.toNat)

/-- The chunks of ExpectZeroBits: r bits are left; `fuel` bounds the number of chunks. -/
def expectZeroLoop (pl : Payload) : Nat → Nat → Micro Unit
  | 0, _ => pure ()
  | fuel + 1, r =>
    if r = 0 then pure ()
    else do
      let v ← readBits pl (min 8 r)
      if v = 0 then expectZeroLoop pl fuel (r - min 8 r) else throw .nonzeroReserved

/-- ExpectZeroBits(n) (40_bit_reader.md R102): every chunk but the last has 8 bits, so n chunks are enough. -/
def expectZeroBits (pl : Payload) (n : Nat) : Micro Unit := expectZeroLoop pl n n

/-- m, n times over, in order. -/
def repeatMicro {α : Type} (m : Micro α) : Nat → Micro (List α)
  | 0 => pure []
  | n + 1 => do
    let x ← m
    let xs ← repeatMicro m n
    pure (x :: xs)

/-! ### The bit accumulator -/

/-- Append the k bits of v above the buffered bits. -/
def accPush (v : Byte) (k : Nat) : Micro Unit := fun d =>
  if h : d.accCnt.val + k ≤ 32 then
    .ok () { d with accBits := d.accBits ||| v.setWidth 32 <<< d.accCnt.val, accCnt := ⟨d.accCnt.val + k, by omega⟩ }
  else .error .accCapacity d

/-- The chunks of AccFill: r bits are left. -/
def accFillLoop (pl : Payload) : Nat → Nat → Micro Unit
  | 0, _ => pure ()
  | fuel + 1, r =>
    if r = 0 then pure ()
    else do
      let v ← readBits pl (min 8 r)
      accPush v (min 8 r)
      accFillLoop pl fuel (r - min 8 r)

/-- AccFill(n) (40_bit_reader.md R103): the capacity check comes before any bit is read. -/
def accFill (pl : Payload) (n : Nat) : Micro Unit := fun d =>
  if n > 32 - d.accCnt.val then .error .accCapacity d else accFillLoop pl n n d

/-- The accumulator without its n oldest bits. -/
def accDrop (d : Datapath) (n : Nat) : Datapath :=
  { d with accBits := d.accBits >>> n, accCnt := ⟨d.accCnt.val - n, by omega⟩ }

/-- The n oldest buffered bits as a number. -/
def accLow (d : Datapath) (n : Nat) : Nat := d.accBits.toNat % 2 ^ n

/-- AccTake(n) (40_bit_reader.md R104). -/
def accTake (n : Nat) : Micro Byte := fun d =>
  if n > 8 ∨ n > d.accCnt.val then .error .accCapacity d
  else .ok (BitVec.ofNat 8 (accLow d n)) (accDrop d n)

/-- AccExpectZero(n) (40_bit_reader.md R105): the bits are removed before they are checked. -/
def accExpectZero (n : Nat) : Micro Unit := fun d =>
  if n > d.accCnt.val then .error .accCapacity d
  else if accLow d n = 0 then .ok () (accDrop d n) else .error .nonzeroReserved (accDrop d n)

/-! ### The end of a decode -/

/-- STATUS.POS takes the cursor (10_state.md R25). -/
def posOf (cur : Fin 513) : BitVec 10 := BitVec.ofNat 10 cur.val

/-- raise Fault(KIND, DETAIL) (60_exceptions.md R243): WARN keeps its value, every OUT byte and every internal
register becomes unspecified. -/
def raiseFault (detail : Detail) (s : State) : State :=
  { s with
    status := { state := .fault, outValid := false, fault := detail.kind, detail := detail, warn := s.status.warn,
                pos := posOf s.dp.cur }
    outlen := 0
    out := Config.freeOut s.draws
    dp := Config.freeDatapath s.draws
    draws := s.draws + 1 }

/-- OUT with pixel i in bytes 4i..4i+3 (20_memory.md R53); the bytes past the last pixel are those of `rest`. -/
def storePixels (px : List Pixel) (rest : Vector Byte 256) : Vector Byte 256 :=
  Vector.ofFn fun k =>
    match px[k.val / 4]? with
    | some p => p.byte k.val
    | none => rest[k]

/-- Complete() (41_commands.md R143), with the assembler's writes to OUT (45_assembler.md R226). OUT past the pixels
and the internal registers become unspecified. -/
def complete (variant : Variant) (px : List Pixel) (s : State) : State :=
  { s with
    status := { state := .done, outValid := true, fault := .none, detail := .none, warn := s.status.warn,
                pos := posOf s.dp.cur }
    outlen := variant.outlen
    out := storePixels px (Config.freeOut s.draws)
    dp := Config.freeDatapath s.draws
    draws := s.draws + 1 }

/-! ### The register window -/

/-- The host writes while no decode is in progress; while BUSY the model refuses (70_reset_and_hazards.md R273). -/
def hostWrite (s t : State) : Host.Outcome State Fault Refusal :=
  if s.status.state = .busy then .refused .writeWhileBusy else .next t

/-- PAYLOAD[off]. -/
def payloadByte (pl : Payload) (off : BitVec 6) : Byte := pl[off.toNat]'off.isLt

/-- OUT[k] has a defined value: STATE = DONE and k < OUTLEN (10_state.md R27). -/
def outDefined (s : State) (k : Nat) : Bool := s.status.state == .done && decide (k < s.outlen.toNat)

/-- OUT[off] as the decoder left it. -/
def outByte (out : Vector Byte 256) (off : BitVec 8) : Byte := out[off.toNat]'off.isLt

/-- The bytes of a 32-bit register in the window, least significant at the lowest offset (20_memory.md R54). -/
def wordByte (w : Word) (k : Nat) : Byte := w.extractLsb' (8 * k) 8

/-- The byte the window holds at an offset (10_state.md R21): none where nothing is there. OUT and STATUS.POS are
given as stored, defined or not. -/
def windowByte (s : State) (addr : Nat) : Option Byte :=
  if addr < 0x040 then s.payload[addr]?
  else if addr < 0x044 then some (wordByte s.cmd (addr - 0x040))
  else if addr < 0x048 then some 0
  else if addr < 0x04C then some (wordByte s.status.word (addr - 0x048))
  else if addr < 0x050 then some (wordByte (s.outlen.setWidth 32) (addr - 0x04C))
  else if addr < 0x100 then none
  else s.out[addr - 0x100]?

/-! ### Reset -/

/-- Reset, at any time (70_reset_and_hazards.md R270). A decode in progress is aborted and nothing is reported. What
the host last read and what is still to come are not FBDEC's, and stay (log 16). -/
def resetMachine (s : State) : State := State.atReset s.parameters s.draws s.inputs s.readData

end Sys2Proof.Machine
end

