-- ==== Sys2Proof/Machine/Operands.lean ====
section
/-!
DEFINITION. The arithmetic unit (40_bit_reader.md section 3) and the field forms the decodes read: header byte,
delta group, per-channel and per-component fields in stream order.
-/

namespace Sys2Proof.Machine

/-! ### Arithmetic -/

/-- The position of the lowest set bit, 7 for 0x80 and for 0. -/
def lowestSetBit (b : Byte) : Fin 8 :=
  if b.getLsbD 0 then 0
  else if b.getLsbD 1 then 1
  else if b.getLsbD 2 then 2
  else if b.getLsbD 3 then 3
  else if b.getLsbD 4 then 4
  else if b.getLsbD 5 then 5
  else if b.getLsbD 6 then 6
  else 7

/-- TZCNT8(b) (40_bit_reader.md R107): a zero byte is a fault. -/
def tzcnt8 (b : Byte) : Micro (Fin 8) :=
  if b = 0 then throw .zeroHeaderByte else pure (lowestSetBit b)

/-- SM(s, d) (40_bit_reader.md R108). -/
def sm (s : Bool) (d : Byte) : Byte := if s then 255 - d else d

/-- ADD8(a, b) (40_bit_reader.md R109). -/
def add8 (a b : Byte) : Byte := a + b

/-- HSEED(base, d, s) (40_bit_reader.md R110). -/
def hseed (base d : Byte) (s : Bool) : Byte := base + 2 * d + bitByte s

/-- AVG8(b, r): the floor of half the 9-bit sum (40_bit_reader.md R111). -/
def avg8 (b r : Byte) : Byte := BitVec.ofNat 8 ((b.toNat + r.toNat) / 2)

/-- b & ~(1 << w) (42_vendor_a_header.md R157). -/
def clearBit (b : Byte) (w : Fin 8) : Byte := b &&& ~~~((1 : Byte) <<< w.val)

/-! ### Fields in stream order -/

/-- For ch in G, Cr, Cb, A (00_scope.md R10). -/
def forChannels {α : Type} (f : Channel → Micro α) : Micro (PerChannel α) := do
  let g ← f .g
  let cr ← f .cr
  let cb ← f .cb
  let a ← f .a
  pure ⟨g, cr, cb, a⟩

/-- For X in L, R. -/
def forSides {α : Type} (f : Side → Micro α) : Micro (PerSide α) := do
  let l ← f .l
  let r ← f .r
  pure ⟨l, r⟩

/-- For c in R, G, B, A. -/
def forComponents {α : Type} (f : Component → Micro α) : Micro (Rgba α) := do
  let r ← f .r
  let g ← f .g
  let b ← f .b
  let a ← f .a
  pure ⟨r, g, b, a⟩

/-- For c in O: B, R, G, A when predicted, R, G, B, A otherwise (44_vendor_b_decode.md R197). -/
def forOrder {α : Type} (pred : Bool) (f : Component → Micro α) : Micro (Rgba α) :=
  if pred then do
    let b ← f .b
    let r ← f .r
    let g ← f .g
    let a ← f .a
    pure ⟨r, g, b, a⟩
  else forComponents f

/-- The four signs and four magnitudes of one delta group (43_vendor_a_delta_chain.md R171). -/
structure Group where
  s : Vector Bool 4
  d : Vector Byte 4
deriving DecidableEq, Repr

/-- Four single bits. -/
def readFour (pl : Payload) : Micro (Vector Bool 4) := do
  let b0 ← readFlag pl
  let b1 ← readFlag pl
  let b2 ← readFlag pl
  let b3 ← readFlag pl
  pure #v[b0, b1, b2, b3]

/-- d[i] <- d[i] | (bit i of the plane << k). -/
def orPlane (d : Vector Byte 4) (k : Nat) (plane : Vector Bool 4) : Vector Byte 4 :=
  #v[d[0] ||| bitByte plane[0] <<< k, d[1] ||| bitByte plane[1] <<< k, d[2] ||| bitByte plane[2] <<< k,
    d[3] ||| bitByte plane[3] <<< k]

/-- Bit-planes k, k+1, .. (n of them), the least significant first. -/
def readPlanes (pl : Payload) : Nat → Nat → Vector Byte 4 → Micro (Vector Byte 4)
  | 0, _, d => pure d
  | n + 1, k, d => do
    let plane ← readFour pl
    readPlanes pl n (k + 1) (orPlane d k plane)

/-- ReadGroup(w) (43_vendor_a_delta_chain.md R171). -/
def readGroup (pl : Payload) (w : Fin 8) : Micro Group := do
  let s ← readFour pl
  let d ← readPlanes pl w.val 0 #v[0, 0, 0, 0]
  pure ⟨s, d⟩

end Sys2Proof.Machine
end

