-- ==== Sys2Proof/Machine/VendorA.lean ====
section
/-!
DEFINITION. The vendor-A decode: the conditional header parser (42_vendor_a_header.md), the delta-chain
reconstructor (43_vendor_a_delta_chain.md) and the vendor-A assembler (45_assembler.md section 1).
-/

namespace Sys2Proof.Machine

/-! ### Header -/

/-- The 10 legal patterns lhp rhp lc rc (42_vendor_a_header.md R153). -/
def legalPattern (lhp rhp lc rc : Bool) : Bool :=
  match lhp, rhp, lc, rc with
  | false, false, false, true => true
  | false, false, true, true => true
  | false, true, false, true => true
  | true, false, false, false => true
  | true, false, false, true => true
  | true, false, true, true => true
  | true, true, false, false => true
  | true, true, false, true => true
  | true, true, true, false => true
  | true, true, true, true => true
  | false, false, false, false => false
  | false, false, true, false => false
  | false, true, false, false => false
  | false, true, true, false => false
  | false, true, true, true => false
  | true, false, true, false => false

/-- One stage-1 round: a flag for L and one for R of each channel (42_vendor_a_header.md R151, R152). -/
def stageRound (pl : Payload) : Micro (PerChannel (PerSide Bool)) :=
  forChannels fun _ => forSides fun _ => readFlag pl

/-- CheckPattern(ch) (42_vendor_a_header.md R154). -/
def checkPattern (ch : Channel) : Micro Unit := fun d =>
  if legalPattern (d.hp.get ch).l (d.hp.get ch).r (d.cst.get ch).l (d.cst.get ch).r then .ok () d
  else .error .headerPattern d

/-- PlanPresent (42_vendor_a_header.md R156, R157). -/
def planPresent (cst : Bool) (byte : Byte) : Micro Plan :=
  if cst then pure ⟨.flat, byte, 0⟩
  else do
    let w ← tzcnt8 byte
    pure ⟨.hseed, clearBit byte w, w⟩

/-- PlanAbsent, left side (42_vendor_a_header.md R158). -/
def planAbsentLeft (cst : Bool) : Plan := if cst then ⟨.flat, 0, 0⟩ else ⟨.smseed, 0, Config.aSeedWidth⟩

/-- PlanAbsent, right side (42_vendor_a_header.md R159); BASE of a FLATINH side is not used, and holds 0 here
(DESIGN CHOICE, log 13). -/
def planAbsentRight (cst : Bool) (left : Plan) : Plan :=
  if cst then ⟨.flatInh, 0, 0⟩ else ⟨.chain, left.base, left.width⟩

/-- The plan of one side: from its header byte if one is present (42_vendor_a_header.md R155), else `absent`. -/
def planSide (pl : Payload) (hp cst : Bool) (absent : Plan) : Micro Plan :=
  if hp then do
    let byte ← readBits pl 8
    planPresent cst byte
  else pure absent

/-- The stage-2 bytes and plans of one channel (42_vendor_a_header.md R155). -/
def planChannel (pl : Payload) (hp cst : PerSide Bool) : Micro (PerSide Plan) := do
  let l ← planSide pl hp.l cst.l (planAbsentLeft cst.l)
  let r ← planSide pl hp.r cst.r (planAbsentRight cst.r l)
  pure ⟨l, r⟩

/-- ParseHeaderA() (42_vendor_a_header.md R150). -/
def parseHeaderA (pl : Payload) : Micro Unit := do
  let hp ← stageRound pl
  let cst ← stageRound pl
  modify fun d => { d with hp := hp, cst := cst }
  checkPattern .g
  checkPattern .cr
  checkPattern .cb
  checkPattern .a
  let plan ← forChannels fun ch => planChannel pl (hp.get ch) (cst.get ch)
  modify fun d => { d with plan := plan }

/-! ### Delta chain -/

/-- The chain of a side from its seed (43_vendor_a_delta_chain.md R177, R178). -/
def chain (seed : Byte) (g0 g1 : Group) : Samples :=
  let p01 := add8 seed (sm g0.s[1] g0.d[1])
  let p10 := add8 seed (sm g0.s[2] g0.d[2])
  let p11 := add8 p10 (sm g0.s[3] g0.d[3])
  let p02 := add8 p01 (sm g1.s[0] g1.d[0])
  let p03 := add8 p02 (sm g1.s[1] g1.d[1])
  let p12 := add8 p02 (sm g1.s[2] g1.d[2])
  let p13 := add8 p12 (sm g1.s[3] g1.d[3])
  { upper := #v[seed, p01, p02, p03], lower := #v[p10, p11, p12, p13] }

/-- FlatSide (43_vendor_a_delta_chain.md R179, R180). -/
def flatSide (v : Byte) : Samples := { upper := #v[v, v, v, v], lower := #v[v, v, v, v] }

/-- The seed of a CHAIN side, as A_RIGHT_INHERIT selects (42_vendor_a_header.md R159, 43_vendor_a_delta_chain.md
R176). -/
def chainSeed (inherit : Config.RightInherit) (base leftLast : Byte) (g0 : Group) : Byte :=
  match inherit with
  | .chain => add8 leftLast (sm g0.s[0] g0.d[0])
  | .absoluteSm => sm g0.s[0] g0.d[0]
  | .baseSeed => hseed base g0.d[0] g0.s[0]

/-- The two groups of a non-constant side, chained from the seed its first group gives. -/
def chainSide (pl : Payload) (w : Fin 8) (seed : Group → Byte) : Micro Samples := do
  let g0 ← readGroup pl w
  let g1 ← readGroup pl w
  pure (chain (seed g0) g0 g1)

/-- The samples of one side (43_vendor_a_delta_chain.md R170); `leftLast` is P[ch][L][0][3]. -/
def reconstructSide (inherit : Config.RightInherit) (pl : Payload) (p : Plan) (leftLast : Byte) : Micro Samples :=
  match p.kind with
  | .flat => pure (flatSide p.base)
  | .flatInh => pure (flatSide leftLast)
  | .hseed => chainSide pl p.width fun g0 => hseed p.base g0.d[0] g0.s[0]
  | .smseed => chainSide pl p.width fun g0 => sm g0.s[0] g0.d[0]
  | .chain => chainSide pl p.width fun g0 => chainSeed inherit p.base leftLast g0

/-- Side L, then side R, of one channel; `old` is what P[ch][L] held before. -/
def reconstructChannel (inherit : Config.RightInherit) (pl : Payload) (plan : PerSide Plan) (old : Samples) :
    Micro (PerSide Samples) := do
  let l ← reconstructSide inherit pl plan.l old.upper[3]
  let r ← reconstructSide inherit pl plan.r l.upper[3]
  pure ⟨l, r⟩

/-- ReconstructA() (43_vendor_a_delta_chain.md R170). -/
def reconstructA (inherit : Config.RightInherit) (pl : Payload) : Micro Unit := do
  let d ← get
  let p ← forChannels fun ch => reconstructChannel inherit pl (d.plan.get ch) (d.samples.get ch).l
  modify fun d => { d with samples := p }

/-! ### Assembler -/

/-- The pixel of a sample position (45_assembler.md R220). -/
def colour (p : PerChannel (PerSide Samples)) (x : Side) (row j : Nat) : Pixel :=
  let g := (p.g.get x).at row j
  { r := add8 ((p.cr.get x).at row j) g, g := g, b := add8 ((p.cb.get x).at row j) g, a := (p.a.get x).at row j }

/-- The 16 pixels of a logical cacheline: pixel 8X + 4 row + j (45_assembler.md R221). -/
def assembleA (p : PerChannel (PerSide Samples)) : List Pixel :=
  List.ofFn fun i : Fin 16 => colour p (if i.val / 8 = 0 then .l else .r) (i.val / 4) i.val

/-- One logical cacheline (41_commands.md R133). -/
def cachelineA (inherit : Config.RightInherit) (pl : Payload) : Micro (List Pixel) := do
  parseHeaderA pl
  reconstructA inherit pl
  let d ← get
  pure (assembleA d.samples)

/-- ZeroFillA for the cachelines n..3 (45_assembler.md R222). -/
def zeroFillA (n : Nat) : List Pixel := List.replicate (16 * (4 - n)) Pixel.zero

/-- DecodeA(NCL) (41_commands.md R133): the 64 pixels. -/
def decodeA (inherit : Config.RightInherit) (pl : Payload) (ncl : Nat) : Micro (List Pixel) := do
  let cls ← repeatMicro (cachelineA inherit pl) ncl
  pure (cls.flatten ++ zeroFillA ncl)

end Sys2Proof.Machine
end

