-- ==== Sys2Proof/Machine/VendorB.lean ====
section
/-!
DEFINITION. The vendor-B decodes, gen8 and gen11 with the extension walk (44_vendor_b_decode.md), and the vendor-B
assembler (45_assembler.md section 2).
-/

namespace Sys2Proof.Machine

/-- The sum of the four widths; a skipped gen8 channel has width 0 (44_vendor_b_decode.md R193, R199). -/
def widthSum (wb : Rgba (Fin 8)) : Nat := wb.r.val + wb.g.val + wb.b.val + wb.a.val

/-- The width check (44_vendor_b_decode.md R193, R199). -/
def checkWidths (wb : Rgba (Fin 8)) (budget : Nat) : Micro Unit :=
  if widthSum wb > budget then throw .widthBudget else pure ()

/-- LP with the decoded pixels from index lo on; every other logical pixel is (0, 0, 0, 0)
(44_vendor_b_decode.md R198, R206). -/
def logicalPixels (lo : Nat) (px : List Pixel) : Vector Pixel 32 :=
  Vector.ofFn fun i => if i.val < lo then Pixel.zero else px.getD (i.val - lo) Pixel.zero

/-! ### gen8 -/

/-- One component of a gen8 record: a skipped channel takes its base (44_vendor_b_decode.md R194). -/
def gen8Component (pl : Payload) (skip : Bool) (base : Byte) (w : Fin 8) : Micro Byte :=
  if skip then pure base
  else do
    let delta ← readBits pl w.val
    pure (add8 base delta)

/-- Gen8Record() (44_vendor_b_decode.md R194). -/
def gen8Record (pl : Payload) (skip : Rgba Bool) (base : Rgba Byte) (wb : Rgba (Fin 8)) : Micro Pixel := do
  let px ← forComponents fun c => gen8Component pl (skip.get c) (base.get c) (wb.get c)
  expectZeroBits pl (Config.gen8Budget - widthSum wb)
  pure px

/-- The width of a channel: a skipped channel has no width field and width 0 (44_vendor_b_decode.md R193). -/
def gen8Width (pl : Payload) (skip : Bool) : Micro (Fin 8) := if skip then pure 0 else readWidth pl

/-- The skip flags, bases and widths (44_vendor_b_decode.md R190 to R193). -/
def gen8Header (pl : Payload) : Micro Unit := do
  let skip ← forComponents fun _ => readFlag pl
  let base ← forComponents fun _ => readBits pl 8
  let wb ← forComponents fun c => gen8Width pl (skip.get c)
  modify fun d => { d with skip := skip, baseB := base, wb := wb }
  checkWidths wb Config.gen8Budget

/-- ExpectZeroBits(496 - CUR), then ExpectZeroBits(16) (44_vendor_b_decode.md R195). -/
def gen8Tail (pl : Payload) : Micro Unit := do
  let d ← get
  expectZeroBits pl (496 - d.cur.val)
  expectZeroBits pl 16

/-- DecodeGen8() (44_vendor_b_decode.md R190). -/
def decodeGen8 (pl : Payload) : Micro Unit := do
  gen8Header pl
  let d ← get
  let px ← repeatMicro (gen8Record pl d.skip d.baseB d.wb) 32
  modify fun d => { d with lp := logicalPixels 0 px }
  gen8Tail pl

/-! ### gen11 -/

/-- The predicted reconstruction (44_vendor_b_decode.md R202). -/
def predictedPixel (base delta : Rgba Byte) : Pixel :=
  let b := add8 base.b delta.b
  let r := add8 (add8 base.r delta.r) b
  let g := add8 (add8 base.g delta.g) (avg8 b r)
  let a := add8 base.a delta.a
  ⟨r, g, b, a⟩

/-- The independent reconstruction (44_vendor_b_decode.md R203). -/
def independentPixel (base delta : Rgba Byte) : Pixel :=
  ⟨add8 base.r delta.r, add8 base.g delta.g, add8 base.b delta.b, add8 base.a delta.a⟩

/-- Reconstruct(delta) (44_vendor_b_decode.md R201). -/
def gen11Pixel (pred : Bool) (base delta : Rgba Byte) : Pixel :=
  if pred then predictedPixel base delta else independentPixel base delta

/-- Gen11Record() (44_vendor_b_decode.md R201). -/
def gen11Record (pl : Payload) (mp : ModeParams) (base : Rgba Byte) (wb : Rgba (Fin 8)) : Micro Pixel := do
  let delta ← forOrder mp.pred fun c => readBits pl (wb.get c).val
  expectZeroBits pl (mp.budget - widthSum wb)
  pure (gen11Pixel mp.pred base delta)

/-- The bases and widths (44_vendor_b_decode.md R198, R199). -/
def gen11Header (pl : Payload) (mp : ModeParams) : Micro Unit := do
  let base ← forOrder mp.pred fun _ => readBits pl 8
  let wb ← forOrder mp.pred fun _ => readWidth pl
  modify fun d => { d with baseB := base, wb := wb }
  checkWidths wb mp.budget

/-- n uniform flags, in order. -/
def readFlags (pl : Payload) (n : Nat) : Micro (List Bool) := repeatMicro (readFlag pl) n

/-- U from the flags read. -/
def flagsOf (us : List Bool) : Vector Bool 8 := Vector.ofFn fun k => us.getD k.val false

/-- The number of set flags. -/
def popcount (u : Vector Bool 8) : Nat := u.toList.count true

/-- The count of uniform sub-windows must be EXT_UNIFORM_COUNT (44_vendor_b_decode.md R200). -/
def checkUniform (u : Vector Bool 8) : Micro Unit :=
  if popcount u = Config.extUniformCount then pure () else throw .uniformCount

/-- The uniform flags and their count (44_vendor_b_decode.md R200). -/
def extensionFlags (pl : Payload) : Micro Unit := do
  let us ← readFlags pl 8
  modify fun d => { d with u := flagsOf us }
  checkUniform (flagsOf us)

/-- The four pixels of a sub-window: one record replicated when it is uniform, four records when it is not
(44_vendor_b_decode.md R205). -/
def subWindow (record : Micro Pixel) (uniform : Bool) : Micro (List Pixel) :=
  if uniform then do
    let px ← record
    pure (List.replicate 4 px)
  else repeatMicro record 4

/-- ExtensionWalk() (44_vendor_b_decode.md R205): the sub-windows of the given flags, in order. -/
def extensionWalk (record : Micro Pixel) : List Bool → Micro (List Pixel)
  | [] => pure []
  | uniform :: us => do
    let px ← subWindow record uniform
    let rest ← extensionWalk record us
    pure (px ++ rest)

/-- The records of an EXT decode, after its uniform flags (44_vendor_b_decode.md R198). -/
def gen11Extension (pl : Payload) (record : Micro Pixel) : Micro Unit := do
  extensionFlags pl
  let d ← get
  let px ← extensionWalk record d.u.toList
  modify fun d => { d with lp := logicalPixels 0 px }

/-- The records of the logical pixels lo..hi (44_vendor_b_decode.md R204). -/
def gen11Range (record : Micro Pixel) (lo hi : Nat) : Micro Unit := do
  let px ← repeatMicro record (hi + 1 - lo)
  modify fun d => { d with lp := logicalPixels lo px }

/-- DecodeGen11(MP) (44_vendor_b_decode.md R198). -/
def decodeGen11 (pl : Payload) (mp : ModeParams) : Micro Unit := do
  gen11Header pl mp
  let d ← get
  if mp.ext then gen11Extension pl (gen11Record pl mp d.baseB d.wb)
  else gen11Range (gen11Record pl mp d.baseB d.wb) mp.lo mp.hi

/-! ### Assembler -/

/-- AssembleB(): physical slot B_SLOT(i) holds LP[i] (45_assembler.md R223). -/
def assembleB (slot : Equiv.Perm (Fin 32)) (lp : Vector Pixel 32) : List Pixel :=
  List.ofFn fun q : Fin 32 => lp[slot.symm q]

/-- A vendor-B decode, once its unit has filled LP. -/
def assembledB (fill : Micro Unit) : Micro (List Pixel) := do
  fill
  let d ← get
  pure (assembleB Config.bSlot d.lp)

end Sys2Proof.Machine
end

