-- ==== Sys2Proof/Machine/Commands.lean ====
section
/-!
DEFINITION. START and the ten decode commands (41_commands.md sections 1 and 2). A decode command is the decode body
START dispatched, run to its end in one step (70_reset_and_hazards.md R276, log 1).
-/

namespace Sys2Proof.Machine

/-! ### START -/

/-- The first lines of START (41_commands.md R130): C, CUR, the accumulator, OUTLEN and STATUS. OUT is unspecified
from here until the decode ends DONE (45_assembler.md R226). -/
def latchCommand (s : State) : State :=
  { s with
    dp := { s.dp with command := s.cmd, cur := 0, accBits := 0, accCnt := 0 }
    outlen := 0
    status := { state := .busy, outValid := false, fault := .none, detail := .none, warn := .none, pos := 0 }
    out := Config.freeOut s.draws
    draws := s.draws + 1 }

/-- MP <- ModeParams(C), and the warning of the mode (41_commands.md R130, R132). -/
def latchMode (mp : ModeParams) (s : State) : State :=
  { s with dp := { s.dp with mp := mp }, status := { s.status with warn := mp.warning } }

/-- START up to the end of the dispatch (41_commands.md R130): an unsupported command word faults here. -/
def startDecode (s : State) : State :=
  let t := latchCommand s
  match decodeCommand s.parameters.codes t.dp.command with
  | .ok c => latchMode c.params t
  | .error e => raiseFault (detailOfReject e) t

/-- START (41_commands.md R130). DATA bits 31:1 are ignored. -/
def execStart (_data : Word) (s : State) : Host.Outcome State Fault Refusal := hostWrite s (startDecode s)

/-! ### Decode commands -/

/-- A decode body under a command's mode parameters. MP holds them since START; setting them again makes a decode
command's meaning its own in every state (log 10). -/
def runDecode (c : Command) (body : Payload → ModeParams → Micro (List Pixel)) (s : State) : State :=
  let d := { s.dp with mp := c.params }
  match body s.payload d.mp d with
  | .ok px d' => complete d.mp.variant px { s with dp := d' }
  | .error detail d' => raiseFault detail { s with dp := d' }

/-- The body of DECODE.A4, A3 and A2: DecodeA(MP.NCL), under A_RIGHT_INHERIT. -/
def bodyA (inherit : Config.RightInherit) (pl : Payload) (mp : ModeParams) : Micro (List Pixel) :=
  decodeA inherit pl mp.ncl

/-- The body of DECODE.B8. -/
def bodyB8 (pl : Payload) (_mp : ModeParams) : Micro (List Pixel) := assembledB (decodeGen8 pl)

/-- The body of the gen11 commands. -/
def bodyB11 (pl : Payload) (mp : ModeParams) : Micro (List Pixel) := assembledB (decodeGen11 pl mp)

/-- The body of each command (41_commands.md R133 to R142). -/
def bodyOf (inherit : Config.RightInherit) : Command → Payload → ModeParams → Micro (List Pixel)
  | .a4 | .a3 | .a2 => bodyA inherit
  | .b8 => bodyB8
  | .b11s0 | .b11s1 | .b11s2 | .b11s3 | .b11s0x | .b11s3x => bodyB11

/-- DECODE.A4 (41_commands.md R133). -/
def execDecodeA4 (s : State) : Host.Outcome State Fault Refusal :=
  .next (runDecode .a4 (bodyA s.parameters.rightInherit) s)

/-- DECODE.A3 (41_commands.md R134). -/
def execDecodeA3 (s : State) : Host.Outcome State Fault Refusal :=
  .next (runDecode .a3 (bodyA s.parameters.rightInherit) s)

/-- DECODE.A2 (41_commands.md R135). -/
def execDecodeA2 (s : State) : Host.Outcome State Fault Refusal :=
  .next (runDecode .a2 (bodyA s.parameters.rightInherit) s)

/-- DECODE.B8 (41_commands.md R136). -/
def execDecodeB8 (s : State) : Host.Outcome State Fault Refusal := .next (runDecode .b8 bodyB8 s)

/-- DECODE.B11S0 (41_commands.md R137). -/
def execDecodeB11S0 (s : State) : Host.Outcome State Fault Refusal := .next (runDecode .b11s0 bodyB11 s)

/-- DECODE.B11S1 (41_commands.md R138). -/
def execDecodeB11S1 (s : State) : Host.Outcome State Fault Refusal := .next (runDecode .b11s1 bodyB11 s)

/-- DECODE.B11S2 (41_commands.md R139). -/
def execDecodeB11S2 (s : State) : Host.Outcome State Fault Refusal := .next (runDecode .b11s2 bodyB11 s)

/-- DECODE.B11S3 (41_commands.md R140). -/
def execDecodeB11S3 (s : State) : Host.Outcome State Fault Refusal := .next (runDecode .b11s3 bodyB11 s)

/-- DECODE.B11S0X (41_commands.md R141). -/
def execDecodeB11S0X (s : State) : Host.Outcome State Fault Refusal := .next (runDecode .b11s0x bodyB11 s)

/-- DECODE.B11S3X (41_commands.md R142). -/
def execDecodeB11S3X (s : State) : Host.Outcome State Fault Refusal := .next (runDecode .b11s3x bodyB11 s)

end Sys2Proof.Machine
end

