-- ==== Sys2Proof/Machine/HostOps.lean ====
section
/-!
DEFINITION. The host operations other than START (41_commands.md section 4). A read changes nothing but the value it
returns; a write is refused while BUSY (70_reset_and_hazards.md R273, R274).
-/

namespace Sys2Proof.Machine

/-- RDPAY (41_commands.md R144). -/
def execRdpay (off : BitVec 6) (s : State) : Host.Outcome State Fault Refusal :=
  .next { s with readData := .byte (payloadByte s.payload off) }

/-- WRPAY (41_commands.md R144). -/
def execWrpay (off : BitVec 6) (byte : Byte) (s : State) : Host.Outcome State Fault Refusal :=
  hostWrite s { s with payload := s.payload.set off.toNat byte off.isLt }

/-- RDCMD (41_commands.md R145). -/
def execRdcmd (s : State) : Host.Outcome State Fault Refusal := .next { s with readData := .word s.cmd }

/-- WRCMD (41_commands.md R145): all 32 bits are stored. -/
def execWrcmd (word : Word) (s : State) : Host.Outcome State Fault Refusal := hostWrite s { s with cmd := word }

/-- WRCTRL0 (41_commands.md R146): no effect. -/
def execWrctrl0 (_data : Word) (s : State) : Host.Outcome State Fault Refusal := hostWrite s s

/-- RDCTRL (41_commands.md R146): CTRL reads 0. -/
def execRdctrl (s : State) : Host.Outcome State Fault Refusal := .next { s with readData := .word 0 }

/-- STATUS as a host read returns it: while BUSY, POS is a free value (41_commands.md R147). -/
def statusRead (s : State) : Word :=
  if s.status.state = .busy then { s.status with pos := Config.freePos s.draws }.word else s.status.word

/-- RDSTAT (41_commands.md R147). -/
def execRdstat (s : State) : Host.Outcome State Fault Refusal :=
  .next { s with readData := .word (statusRead s), draws := s.draws + 1 }

/-- RDLEN (41_commands.md R147): bits 31:9 read 0. -/
def execRdlen (s : State) : Host.Outcome State Fault Refusal :=
  .next { s with readData := .word (s.outlen.setWidth 32) }

/-- OUT[off] as a host read returns it: a free value where OUT is not defined (41_commands.md R148). -/
def outRead (s : State) (off : BitVec 8) : Byte :=
  if outDefined s off.toNat then outByte s.out off else Config.freeByte s.draws

/-- RDOUT (41_commands.md R148). -/
def execRdout (off : BitVec 8) (s : State) : Host.Outcome State Fault Refusal :=
  .next { s with readData := .byte (outRead s off), draws := s.draws + 1 }

end Sys2Proof.Machine
end

