-- ==== Sys2Proof/Machine/Dispatch.lean ====
section
/-!
DEFINITION. One arm for each instruction.
-/

namespace Sys2Proof.Machine

def exec (i : Instr) (s : State) : Host.Outcome State Fault Refusal :=
  match i with
  | .decodeA4 => Sys2Proof.Machine.execDecodeA4 s
  | .decodeA3 => Sys2Proof.Machine.execDecodeA3 s
  | .decodeA2 => Sys2Proof.Machine.execDecodeA2 s
  | .decodeB8 => Sys2Proof.Machine.execDecodeB8 s
  | .decodeB11S0 => Sys2Proof.Machine.execDecodeB11S0 s
  | .decodeB11S1 => Sys2Proof.Machine.execDecodeB11S1 s
  | .decodeB11S2 => Sys2Proof.Machine.execDecodeB11S2 s
  | .decodeB11S3 => Sys2Proof.Machine.execDecodeB11S3 s
  | .decodeB11S0X => Sys2Proof.Machine.execDecodeB11S0X s
  | .decodeB11S3X => Sys2Proof.Machine.execDecodeB11S3X s
  | .rdpay off => Sys2Proof.Machine.execRdpay off s
  | .wrpay off byte => Sys2Proof.Machine.execWrpay off byte s
  | .rdcmd => Sys2Proof.Machine.execRdcmd s
  | .wrcmd word => Sys2Proof.Machine.execWrcmd word s
  | .start data => Sys2Proof.Machine.execStart data s
  | .wrctrl0 data => Sys2Proof.Machine.execWrctrl0 data s
  | .rdctrl => Sys2Proof.Machine.execRdctrl s
  | .rdstat => Sys2Proof.Machine.execRdstat s
  | .rdlen => Sys2Proof.Machine.execRdlen s
  | .rdout off => Sys2Proof.Machine.execRdout off s

end Sys2Proof.Machine
end

