-- ==== Sys2Proof/Machine/Fetch.lean ====
section
/-!
DEFINITION. What the next step does: FBDEC fetches no instructions (20_memory.md R63), so an instruction comes either
from the host, as a transaction word, or from the decoder, as the latched command word of a decode in progress.
-/

namespace Sys2Proof.Machine

/-- What the next step is. -/
inductive Fetched where
  /-- an instruction, and the state it runs in -/
  | run (i : Instr) (s : State)
  /-- a change of state that is no instruction: reset, or nothing to do -/
  | move (s : State)
  /-- a transaction the model refuses -/
  | refuse (why : Refusal)
deriving DecidableEq, Repr

/-- The decoder's move: the latched command's body while BUSY, nothing otherwise. START lets no unsupported word
become the latched command; were one there, it would fault as START does (log 10). -/
def decoderMove (s : State) : Fetched :=
  if s.status.state = .busy then
    match decodeCommand s.parameters.codes s.dp.command with
    | .ok c => .run (.ofCommand c) s
    | .error e => .move (raiseFault (detailOfReject e) s)
  else .move s

/-- The next input, or, with none left, the decoder's move (70_reset_and_hazards.md R276: a BUSY instance eventually
completes). -/
def fetch (s : State) : Fetched :=
  match s.inputs with
  | [] => decoderMove s
  | .decoder :: rest => decoderMove { s with inputs := rest }
  | .reset :: rest => .move (resetMachine { s with inputs := rest })
  | .transaction w :: rest =>
    match decodeHt w with
    | .ok i => .run i { s with inputs := rest }
    | .error e => .refuse (.undefinedAccess e)

/-- A transaction word put first among the inputs. -/
def placeTransaction (s : State) (w : HtWord) : State := { s with inputs := .transaction w :: s.inputs }

/-- A command word written to CMD and started, the decoder to move next: the state WRCMD and START leave, with the
decoder's move put first among the inputs. -/
def placeCommand (s : State) (w : Word) : State :=
  let t := latchCommand { s with cmd := w, inputs := .decoder :: s.inputs }
  match decodeCommand s.parameters.codes w with
  | .ok c => latchMode c.params t
  | .error _ => t

end Sys2Proof.Machine
end

