-- ==== Sys2Proof/Machine/Step.lean ====
section
/-!
DEFINITION. One step of FBDEC: fetch, then exec.
-/

namespace Sys2Proof.Machine

/-- One step. -/
def step (s : State) : Host.Outcome State Fault Refusal :=
  match fetch s with
  | .run i t => exec i t
  | .move t => .next t
  | .refuse r => .refused r

/-- s with the instruction of an opcode-table word to run next: a command word (at most 32 bits) as the command a
START has latched, a transaction word as the next input (log 2). -/
def State.withFetchWord (s : State) (nbits w : Nat) : State :=
  if nbits ≤ 32 then placeCommand s (BitVec.ofNat 32 w) else placeTransaction s (BitVec.ofNat 64 w)

end Sys2Proof.Machine
end

