-- ==== Sys2Proof/Machine/HostProgram.lean ====
section
/-!
DEFINITION. Host programs as the inputs they put to the machine: the assembler lines of 30_encoding.md R82 and the
pseudo-instructions of R83.
-/

namespace Sys2Proof.Machine

/-- The line of a host operation, or the name of a command constant (30_encoding.md R82). -/
def asmLine : Instr → String
  | .rdpay off => "rdpay " ++ toString off.toNat
  | .wrpay off byte => "wrpay " ++ toString off.toNat ++ ", " ++ toString byte.toNat
  | .rdcmd => "rdcmd"
  | .wrcmd word => "wrcmd " ++ toString word.toNat
  | .start _ => "start"
  | .wrctrl0 data => "wrctrl " ++ toString data.toNat
  | .rdctrl => "rdctrl"
  | .rdstat => "rdstat"
  | .rdlen => "rdlen"
  | .rdout off => "rdout " ++ toString off.toNat
  | .decodeA4 => "DECODE.A4"
  | .decodeA3 => "DECODE.A3"
  | .decodeA2 => "DECODE.A2"
  | .decodeB8 => "DECODE.B8"
  | .decodeB11S0 => "DECODE.B11S0"
  | .decodeB11S1 => "DECODE.B11S1"
  | .decodeB11S2 => "DECODE.B11S2"
  | .decodeB11S3 => "DECODE.B11S3"
  | .decodeB11S0X => "DECODE.B11S0X"
  | .decodeB11S3X => "DECODE.B11S3X"

/-- The input of a host operation, which no mode code touches; a command word is no transaction and gives none. -/
def hostInput (i : Instr) : List Input :=
  match encode Config.ModeCodes.defaults i with
  | .ht w => [.transaction w]
  | .cmd32 _ => []

/-- `loadpay`: 64 writes, the bytes not given being 0 (30_encoding.md R83). -/
def loadpay (bs : List Byte) : List Input :=
  (List.range 64).flatMap fun k => hostInput (.wrpay (BitVec.ofNat 6 k) (bs.getD k 0))

/-- `decode NAME`: WRCMD of the name's command word under the machine's mode codes, then START (30_encoding.md R83). -/
def decodeProgram (codes : Config.ModeCodes) (c : Command) : List Input :=
  hostInput (.wrcmd (encodeCommand codes c)) ++ hostInput (.start 1)

/-- `wait`, in a run where `polls` reads still see BUSY before the decoder has moved (30_encoding.md R83). Fairness
(70_reset_and_hazards.md R276) says that there is such a number. -/
def waitProgram (polls : Nat) : List Input :=
  (List.replicate polls (hostInput .rdstat)).flatten ++ [.decoder] ++ hostInput .rdstat

/-- `readout`: RDLEN, then the first n bytes of OUT (30_encoding.md R83). -/
def readout (n : Nat) : List Input :=
  hostInput .rdlen ++ (List.range n).flatMap fun k => hostInput (.rdout (BitVec.ofNat 8 k))

end Sys2Proof.Machine
end

