-- ==== Sys2Proof/Machine/Platform.lean ====
section
/-!
DEFINITION. A platform that holds N_INSTANCES independent FBDEC instances (00_scope.md R6, 10_state.md R38,
60_exceptions.md R251), each with its own register window at the platform's WINDOW_BASE (20_memory.md R58). A State is
one instance; nothing is shared between two of them.
-/

namespace Sys2Proof.Machine

/-- One State for each instance. -/
abbrev Platform := Vector State Config.nInstances

/-- Every instance is right after reset. Which free values an instance draws, and which
parameters with a default it is built with, is its own (log 12, 17). -/
def Platform.atReset (p : Platform) : Prop :=
  ∀ k : Fin Config.nInstances, ∃ n, p[k] = State.atReset p[k].parameters n [] .nothing

/-- One step of instance k. -/
def Platform.step (k : Fin Config.nInstances) (p : Platform) : Host.Outcome Platform Fault Refusal :=
  match Machine.step p[k] with
  | .next s => .next (p.set k s)
  | .fault r => .fault r
  | .refused r => .refused r

/-- An input for instance k, after those already there. -/
def Platform.put (k : Fin Config.nInstances) (i : Input) (p : Platform) : Platform :=
  p.set k { p[k] with inputs := p[k].inputs ++ [i] }

/-- The window offset of a system address, for a window of 0x200 bytes at `base` (10_state.md R21). -/
def windowOffset (base addr : Nat) : Option (BitVec 9) :=
  if base ≤ addr ∧ addr < base + 0x200 then some (BitVec.ofNat 9 (addr - base)) else none

/-- A host access at a system address, to instance k's window: nothing where the address is outside it. -/
def Platform.access (k : Fin Config.nInstances) (addr : Nat) (wr wide : Bool) (data : Word) (p : Platform) :
    Option Platform :=
  match windowOffset (Config.windowBase k) addr with
  | some off => some (p.put k (.transaction (htWord off wr wide data)))
  | none => none

end Sys2Proof.Machine
end

