-- ==== Sys2Proof/Safety.lean ====
section
/-!
DEFINITION. The terms claims are stated in: the invariant of the visible registers, and the stream layouts of
30_encoding.md R76 to R78 read by POSITION, with no cursor, no reader and no sequence. A decode, which is a sequence of
reads, is claimed to agree with them.
-/

namespace Sys2Proof.Machine

/-! ### The invariant -/

/-- What every step keeps: STATUS and OUTLEN are as 10_state.md R25, R26 and 60_exceptions.md R240, R241 say, and a
decode in progress is the one START dispatched (41_commands.md R130). -/
structure Inv (s : State) : Prop where
  outValid : s.status.outValid = true ↔ s.status.state = .done
  faultKind : s.status.fault = s.status.detail.kind
  faultDetail : s.status.detail ≠ .none ↔ s.status.state = .fault
  outlenDone : s.status.state = .done → s.outlen = 256 ∨ s.outlen = 128
  outlenNotDone : s.status.state ≠ .done → s.outlen = 0
  pos : s.status.pos.toNat ≤ 512
  idle : s.status.state = .idle → s.status = Status.atReset
  busy : s.status.state = .busy → ∃ c, decodeCommand s.parameters.codes s.dp.command = .ok c ∧
    s.dp.mp = c.params ∧ s.status.warn = c.params.warning ∧ s.dp.cur = 0 ∧ s.dp.accBits = 0 ∧ s.dp.accCnt = 0

/-- A decode is in progress: STATE = BUSY (10_state.md R25). -/
abbrev Busy (s : State) : Prop := s.status.state = .busy

/-- Everything the host can see or has put there, but OUT: the frame of what only touches OUT or readData. -/
abbrev SameRegisters (s t : State) : Prop :=
  t.payload = s.payload ∧ t.cmd = s.cmd ∧ t.status = s.status ∧ t.outlen = s.outlen ∧ t.out = s.out ∧ t.dp = s.dp ∧
    t.inputs = s.inputs

/-- What a decode never touches: PAYLOAD, CMD, what is still to come and what the host last read. -/
abbrev SameHostSide (s t : State) : Prop :=
  t.payload = s.payload ∧ t.cmd = s.cmd ∧ t.inputs = s.inputs ∧ t.readData = s.readData

/-! ### Ends of a decode, and host accesses -/

/-- STATUS of a decode that ended DONE with the given warning and position (41_commands.md R143). -/
def doneStatus (warn : Warning) (pos : Nat) : Status :=
  { state := .done, outValid := true, fault := .none, detail := .none, warn := warn, pos := BitVec.ofNat 10 pos }

/-- STATUS of a decode that ended in a fault (60_exceptions.md R243). -/
def faultStatus (detail : Detail) (warn : Warning) (pos : Nat) : Status :=
  { state := .fault, outValid := false, fault := detail.kind, detail := detail, warn := warn,
    pos := BitVec.ofNat 10 pos }

/-- The host writes (70_reset_and_hazards.md R273). -/
def IsHostWrite : Instr → Prop
  | .wrpay _ _ | .wrcmd _ | .start _ | .wrctrl0 _ => True
  | .rdpay _ | .rdcmd | .rdctrl | .rdstat | .rdlen | .rdout _ | .decodeA4 | .decodeA3 | .decodeA2 | .decodeB8
  | .decodeB11S0 | .decodeB11S1 | .decodeB11S2 | .decodeB11S3 | .decodeB11S0X | .decodeB11S3X => False

/-- The host reads (70_reset_and_hazards.md R274). -/
def IsHostRead : Instr → Prop
  | .rdpay _ | .rdcmd | .rdctrl | .rdstat | .rdlen | .rdout _ => True
  | .wrpay _ _ | .wrcmd _ | .start _ | .wrctrl0 _ | .decodeA4 | .decodeA3 | .decodeA2 | .decodeB8 | .decodeB11S0
  | .decodeB11S1 | .decodeB11S2 | .decodeB11S3 | .decodeB11S0X | .decodeB11S3X => False

/-- The mask and match of the HT rows of spec/opcode_table.json. -/
def htRows : List (HtWord × HtWord) :=
  [(0xFFFFFFFFFFFFFFC0, 0x0000000000000000), (0xFFFFFFFFFF00FFC0, 0x0000000000000200),
   (0xFFFFFFFFFFFFFFFF, 0x0000000000000440), (0xFFFF00000000FFFF, 0x0000000000000640),
   (0xFFFF00000001FFFF, 0x0000000000010644), (0xFFFF00000001FFFF, 0x0000000000000644),
   (0xFFFFFFFFFFFFFFFF, 0x0000000000000444), (0xFFFFFFFFFFFFFFFF, 0x0000000000000448),
   (0xFFFFFFFFFFFFFFFF, 0x000000000000044C), (0xFFFFFFFFFFFFFF00, 0x0000000000000100)]

/-- The host accesses of 20_memory.md R55. -/
abbrev AccessDefined (addr : BitVec 9) (wr wide : Bool) : Prop :=
  (addr.toNat < 0x40 ∧ wide = false) ∨ ((addr = 0x40 ∨ addr = 0x44) ∧ wide = true) ∨
    ((addr = 0x48 ∨ addr = 0x4C) ∧ wide = true ∧ wr = false) ∨ (0x100 ≤ addr.toNat ∧ wide = false ∧ wr = false)

/-- The inputs of one decode: a START, then the decoder's move. -/
def startThenDecode : List Input := [.transaction 0x10644, .decoder]

/-- Two steps lead from s to t. -/
def TwoSteps (s t : State) : Prop := ∃ m, step s = .next m ∧ step m = .next t

/-! ### Bits by position -/

/-- Bits p..q-1 of the payload are all zero. -/
def zeroBits (pl : Payload) (p q : Nat) : Bool := (List.range (q - p)).all fun k => !payloadBit pl (p + k)

/-- The number of set bits among p..p+n-1. -/
def setBits (pl : Payload) (p n : Nat) : Nat := ((List.range n).filter fun k => payloadBit pl (p + k)).length

/-- f 0 + .. + f (n-1). -/
def sumTo (f : Nat → Nat) (n : Nat) : Nat := ((List.range n).map f).sum

/-! ### Vendor-A layout (30_encoding.md R76) -/

/-- The place of a channel and side in every per-side sequence of the stream: 2k + X, 0..7. -/
def sideSlot (ch : Channel) (x : Side) : Nat :=
  (match ch with
    | .g => 0
    | .cr => 2
    | .cb => 4
    | .a => 6) +
  (match x with
    | .l => 0
    | .r => 1)

/-- The channel of a slot. -/
def slotChannel (k : Nat) : Channel :=
  match k / 2 with
  | 0 => .g
  | 1 => .cr
  | 2 => .cb
  | _ => .a

/-- The side of a slot. -/
def slotSide (k : Nat) : Side := if k % 2 = 0 then .l else .r

/-- HP[ch][X] of the cacheline at bit c0. -/
def hpAt (pl : Payload) (c0 : Nat) (ch : Channel) (x : Side) : Bool := payloadBit pl (c0 + sideSlot ch x)

/-- CST[ch][X]. -/
def cstAt (pl : Payload) (c0 : Nat) (ch : Channel) (x : Side) : Bool := payloadBit pl (c0 + 8 + sideSlot ch x)

/-- lhp rhp lc rc of a channel is one of the 10 patterns of 42_vendor_a_header.md R153. -/
def legalAt (pl : Payload) (c0 : Nat) (ch : Channel) : Bool :=
  [(false, false, false, true), (false, false, true, true), (false, true, false, true), (true, false, false, false),
   (true, false, false, true), (true, false, true, true), (true, true, false, false), (true, true, false, true),
   (true, true, true, false), (true, true, true, true)].contains
    (hpAt pl c0 ch .l, hpAt pl c0 ch .r, cstAt pl c0 ch .l, cstAt pl c0 ch .r)

/-- The stage-2 byte of a side whose header is present: those of the slots before it come first. -/
def headerByteAt (pl : Payload) (c0 : Nat) (ch : Channel) (x : Side) : Byte :=
  bitsAt pl (c0 + 16 + 8 * setBits pl c0 (sideSlot ch x)) 8

/-- A present, non-constant side's byte is not 0 (42_vendor_a_header.md R157). -/
def nonzeroAt (pl : Payload) (c0 : Nat) (ch : Channel) (x : Side) : Bool :=
  !hpAt pl c0 ch x || cstAt pl c0 ch x || headerByteAt pl c0 ch x != 0

/-- split(b) (42_vendor_a_header.md R160). -/
def splitPlan (b : Byte) : Plan := ⟨.hseed, clearBit b (lowestSetBit b), lowestSetBit b⟩

/-- The plan table of 42_vendor_a_header.md R160: the number of stage-2 bytes and the two plans; BASE of a FLATINH side
is not given there and stands as 0. -/
def planTable (lhp rhp lc rc : Bool) (b0 b1 : Byte) : Option (Nat × Plan × Plan) :=
  match lhp, rhp, lc, rc with
  | false, false, false, true => some (0, ⟨.smseed, 0, 7⟩, ⟨.flatInh, 0, 0⟩)
  | false, false, true, true => some (0, ⟨.flat, 0, 0⟩, ⟨.flatInh, 0, 0⟩)
  | false, true, false, true => some (1, ⟨.smseed, 0, 7⟩, ⟨.flat, b0, 0⟩)
  | true, false, false, false => some (1, splitPlan b0, { splitPlan b0 with kind := .chain })
  | true, false, false, true => some (1, splitPlan b0, ⟨.flatInh, 0, 0⟩)
  | true, false, true, true => some (1, ⟨.flat, b0, 0⟩, ⟨.flatInh, 0, 0⟩)
  | true, true, false, false => some (2, splitPlan b0, splitPlan b1)
  | true, true, false, true => some (2, splitPlan b0, ⟨.flat, b1, 0⟩)
  | true, true, true, false => some (2, ⟨.flat, b0, 0⟩, splitPlan b1)
  | true, true, true, true => some (2, ⟨.flat, b0, 0⟩, ⟨.flat, b1, 0⟩)
  | false, false, false, false | false, false, true, false | false, true, false, false | false, true, true, false
  | false, true, true, true | true, false, true, false => none

/-- The plan of the left side, by the table of 42_vendor_a_header.md R160. -/
def leftPlanAt (pl : Payload) (c0 : Nat) (ch : Channel) : Plan :=
  match hpAt pl c0 ch .l, cstAt pl c0 ch .l with
  | false, false => ⟨.smseed, 0, 7⟩
  | false, true => ⟨.flat, 0, 0⟩
  | true, false => splitPlan (headerByteAt pl c0 ch .l)
  | true, true => ⟨.flat, headerByteAt pl c0 ch .l, 0⟩

/-- The plan of the right side, by the table of 42_vendor_a_header.md R160. -/
def rightPlanAt (pl : Payload) (c0 : Nat) (ch : Channel) : Plan :=
  match hpAt pl c0 ch .r, cstAt pl c0 ch .r with
  | false, false => { leftPlanAt pl c0 ch with kind := .chain }
  | false, true => ⟨.flatInh, 0, 0⟩
  | true, false => splitPlan (headerByteAt pl c0 ch .r)
  | true, true => ⟨.flat, headerByteAt pl c0 ch .r, 0⟩

/-- The plan of a side. -/
def planAt (pl : Payload) (c0 : Nat) (ch : Channel) : Side → Plan
  | .l => leftPlanAt pl c0 ch
  | .r => rightPlanAt pl c0 ch

/-- The bits of delta data a side holds (43_vendor_a_delta_chain.md R172). -/
def sideBits (p : Plan) : Nat :=
  match p.kind with
  | .flat | .flatInh => 0
  | .hseed | .smseed | .chain => 2 * (4 + 4 * p.width.val)

/-- Where the delta data starts: after stage 2. -/
def deltaStart (pl : Payload) (c0 : Nat) : Nat := c0 + 16 + 8 * setBits pl c0 8

/-- Where the delta data of slot k starts; slot 8 is the end of the cacheline (30_encoding.md R81). -/
def slotStart (pl : Payload) (c0 k : Nat) : Nat :=
  deltaStart pl c0 + sumTo (fun i => sideBits (planAt pl c0 (slotChannel i) (slotSide i))) k

/-- Magnitude i of a group at bit p: its bit k is at group offset 4 + 4k + i (43_vendor_a_delta_chain.md R171). -/
def magnitudeAt (pl : Payload) (p w i : Nat) : Byte :=
  BitVec.ofNat 8 (sumTo (fun k => if payloadBit pl (p + 4 + 4 * k + i) then 2 ^ k else 0) w)

/-- The delta group of width w at bit p. -/
def groupAt (pl : Payload) (p w : Nat) : Group :=
  { s := #v[payloadBit pl p, payloadBit pl (p + 1), payloadBit pl (p + 2), payloadBit pl (p + 3)]
    d := #v[magnitudeAt pl p w 0, magnitudeAt pl p w 1, magnitudeAt pl p w 2, magnitudeAt pl p w 3] }

/-- The samples of a side with plan p whose delta data starts at bit q (43_vendor_a_delta_chain.md R174 to R180). -/
def sideSamplesAt (inherit : Config.RightInherit) (pl : Payload) (p : Plan) (q : Nat) (leftLast : Byte) : Samples :=
  let g0 := groupAt pl q p.width.val
  let g1 := groupAt pl (q + (4 + 4 * p.width.val)) p.width.val
  match p.kind with
  | .flat => flatSide p.base
  | .flatInh => flatSide leftLast
  | .hseed => chain (hseed p.base g0.d[0] g0.s[0]) g0 g1
  | .smseed => chain (sm g0.s[0] g0.d[0]) g0 g1
  | .chain => chain (chainSeed inherit p.base leftLast g0) g0 g1

/-- The samples of a channel; a left side never inherits. -/
def channelSamplesAt (inherit : Config.RightInherit) (pl : Payload) (c0 : Nat) (ch : Channel) : PerSide Samples :=
  let l := sideSamplesAt inherit pl (leftPlanAt pl c0 ch) (slotStart pl c0 (sideSlot ch .l)) 0
  ⟨l, sideSamplesAt inherit pl (rightPlanAt pl c0 ch) (slotStart pl c0 (sideSlot ch .r)) l.upper[3]⟩

/-- A legal cacheline at bit c0: patterns, header bytes, and its end inside the payload. -/
def cachelineLegalAt (pl : Payload) (c0 : Nat) : Bool :=
  [Channel.g, .cr, .cb, .a].all (fun ch => legalAt pl c0 ch && nonzeroAt pl c0 ch .l && nonzeroAt pl c0 ch .r) &&
    decide (slotStart pl c0 8 ≤ 512)

/-- The 16 pixels of the cacheline at bit c0. -/
def cachelinePixelsAt (inherit : Config.RightInherit) (pl : Payload) (c0 : Nat) : List Pixel :=
  assembleA ⟨channelSamplesAt inherit pl c0 .g, channelSamplesAt inherit pl c0 .cr,
    channelSamplesAt inherit pl c0 .cb, channelSamplesAt inherit pl c0 .a⟩

/-- n cachelines packed from bit c0: the end bit and the pixels, where all are legal (decision D11). -/
def cachelinesLayout (inherit : Config.RightInherit) (pl : Payload) : Nat → Nat → Option (Nat × List Pixel)
  | c0, 0 => some (c0, [])
  | c0, n + 1 =>
    if cachelineLegalAt pl c0 then
      match cachelinesLayout inherit pl (slotStart pl c0 8) n with
      | some (e, px) => some (e, cachelinePixelsAt inherit pl c0 ++ px)
      | none => none
    else none

/-- A vendor-A payload of n cachelines: the end bit and the 64 pixels. -/
def vendorALayout (inherit : Config.RightInherit) (pl : Payload) (n : Nat) : Option (Nat × List Pixel) :=
  match cachelinesLayout inherit pl 0 n with
  | some (e, px) => some (e, px ++ List.replicate (64 - 16 * n) Pixel.zero)
  | none => none

/-! ### gen8 layout (30_encoding.md R77) -/

/-- R, G, B, A as 0..3. -/
def Component.index : Component → Nat
  | .r => 0
  | .g => 1
  | .b => 2
  | .a => 3

/-- The component of an index. -/
def componentAt (k : Nat) : Component :=
  match k with
  | 0 => .r
  | 1 => .g
  | 2 => .b
  | _ => .a

/-- SKIP[c], bits 0..3. -/
def gen8SkipAt (pl : Payload) (c : Component) : Bool := payloadBit pl c.index

/-- BASE_B[c], bits 4..35. -/
def gen8BaseAt (pl : Payload) (c : Component) : Byte := bitsAt pl (4 + 8 * c.index) 8

/-- The number of non-skipped channels before index n; k of R77 is that before 4. -/
def gen8Coded (pl : Payload) (n : Nat) : Nat := n - setBits pl 0 n

/-- WB[c]; a skipped channel has no width field. -/
def gen8WidthAt (pl : Payload) (c : Component) : Nat :=
  if gen8SkipAt pl c then 0 else (bitsAt pl (36 + 3 * gen8Coded pl c.index) 3).toNat

/-- The sum of the widths of the channels before index n. -/
def gen8WidthsBefore (pl : Payload) (n : Nat) : Nat := sumTo (fun k => gen8WidthAt pl (componentAt k)) n

/-- Record i starts at 36 + 3k + 14i. -/
def gen8RecordAt (pl : Payload) (i : Nat) : Nat := 36 + 3 * gen8Coded pl 4 + 14 * i

/-- Component c of logical pixel i. -/
def gen8ByteAt (pl : Payload) (i : Nat) (c : Component) : Byte :=
  if gen8SkipAt pl c then gen8BaseAt pl c
  else gen8BaseAt pl c + bitsAt pl (gen8RecordAt pl i + gen8WidthsBefore pl c.index) (gen8WidthAt pl c)

/-- The widths fit the budget, and every record tail, the padding and the reserved tail are zero. -/
def gen8Legal (pl : Payload) : Bool :=
  decide (gen8WidthsBefore pl 4 ≤ 14) &&
    (List.range 32).all (fun i => zeroBits pl (gen8RecordAt pl i + gen8WidthsBefore pl 4) (gen8RecordAt pl (i + 1))) &&
    zeroBits pl (gen8RecordAt pl 32) 512

/-- A gen8 payload: the end bit and the 32 logical pixels. -/
def gen8Layout (pl : Payload) : Option (Nat × List Pixel) :=
  if gen8Legal pl then
    some (512, (List.range 32).map fun i =>
      ⟨gen8ByteAt pl i .r, gen8ByteAt pl i .g, gen8ByteAt pl i .b, gen8ByteAt pl i .a⟩)
  else none

/-! ### gen11 layout (30_encoding.md R78) -/

/-- The place of a component in the order O (44_vendor_b_decode.md R197). -/
def Component.order (pred : Bool) : Component → Nat
  | .r => if pred then 1 else 0
  | .g => if pred then 2 else 1
  | .b => if pred then 0 else 2
  | .a => 3

/-- The component at a place of O. -/
def orderAt (pred : Bool) (k : Nat) : Component :=
  match k with
  | 0 => if pred then .b else .r
  | 1 => if pred then .r else .g
  | 2 => if pred then .g else .b
  | _ => .a

/-- BASE_B[c], bits 0..31. -/
def gen11BaseAt (pl : Payload) (pred : Bool) (c : Component) : Byte := bitsAt pl (8 * c.order pred) 8

/-- WB[c], bits 32..43. -/
def gen11WidthAt (pl : Payload) (pred : Bool) (c : Component) : Nat := (bitsAt pl (32 + 3 * c.order pred) 3).toNat

/-- The sum of the widths of the first n components of O. -/
def gen11WidthsBefore (pl : Payload) (pred : Bool) (n : Nat) : Nat :=
  sumTo (fun k => gen11WidthAt pl pred (orderAt pred k)) n

/-- The delta of c in the record that starts at bit q. -/
def gen11DeltaAt (pl : Payload) (pred : Bool) (q : Nat) (c : Component) : Byte :=
  bitsAt pl (q + gen11WidthsBefore pl pred (c.order pred)) (gen11WidthAt pl pred c)

/-- The pixel of the record that starts at bit q (44_vendor_b_decode.md R202, R203), computed in numbers and narrowed
at the end. -/
def gen11PixelAt (pl : Payload) (pred : Bool) (q : Nat) : Pixel :=
  let base := fun c => (gen11BaseAt pl pred c).toNat
  let delta := fun c => (gen11DeltaAt pl pred q c).toNat
  let b := (base .b + delta .b) % 256
  let r := if pred then (base .r + delta .r + b) % 256 else (base .r + delta .r) % 256
  let g := if pred then (base .g + delta .g + (b + r) / 2) % 256 else (base .g + delta .g) % 256
  let a := (base .a + delta .a) % 256
  ⟨BitVec.ofNat 8 r, BitVec.ofNat 8 g, BitVec.ofNat 8 b, BitVec.ofNat 8 a⟩

/-- The widths fit the budget and the tails of n records from bit h are zero. -/
def gen11Legal (pl : Payload) (pred : Bool) (budget h n : Nat) : Bool :=
  decide (gen11WidthsBefore pl pred 4 ≤ budget) &&
    (List.range n).all fun i =>
      zeroBits pl (h + budget * i + gen11WidthsBefore pl pred 4) (h + budget * (i + 1))

/-- A gen11 payload without EXT whose n records are the logical pixels lo, lo+1, ..: the end bit and the 32 logical
pixels, those not recovered being zero (44_vendor_b_decode.md R204, R206, R208). -/
def gen11Layout (pl : Payload) (pred : Bool) (budget lo n : Nat) : Option (Nat × List Pixel) :=
  if gen11Legal pl pred budget 44 n then
    some (44 + budget * n, (List.range 32).map fun i =>
      if lo ≤ i ∧ i < lo + n then gen11PixelAt pl pred (44 + budget * (i - lo)) else Pixel.zero)
  else none

/-- U[k], bits 44..51. -/
def uniformAt (pl : Payload) (k : Nat) : Bool := payloadBit pl (44 + k)

/-- The number of records before sub-window k: one for a uniform sub-window, four for another
(44_vendor_b_decode.md R205). -/
def recordsBefore (pl : Payload) (k : Nat) : Nat := sumTo (fun i => if uniformAt pl i then 1 else 4) k

/-- The record of logical pixel i. -/
def extensionRecordOf (pl : Payload) (i : Nat) : Nat :=
  recordsBefore pl (i / 4) + if uniformAt pl (i / 4) then 0 else i % 4

/-- A gen11 payload with EXT: four uniform sub-windows, 20 records from bit 52. -/
def extensionLayout (pl : Payload) (pred : Bool) (budget : Nat) : Option (Nat × List Pixel) :=
  if setBits pl 44 8 = 4 ∧ gen11Legal pl pred budget 52 20 = true then
    some (52 + budget * 20, (List.range 32).map fun i =>
      gen11PixelAt pl pred (52 + budget * extensionRecordOf pl i))
  else none

/-! ### All commands -/

/-- The layout of each command: the end bit and the pixels, in OUT order for vendor-A and in logical order for
vendor-B; none for a payload the command faults on. -/
def layout (inherit : Config.RightInherit) (pl : Payload) : Command → Option (Nat × List Pixel)
  | .a4 => vendorALayout inherit pl 4
  | .a3 => vendorALayout inherit pl 3
  | .a2 => vendorALayout inherit pl 2
  | .b8 => gen8Layout pl
  | .b11s0 => gen11Layout pl (Config.gen11Pred 0) 6 0 32
  | .b11s1 => gen11Layout pl (Config.gen11Pred 1) 12 0 16
  | .b11s2 => gen11Layout pl (Config.gen11Pred 2) 12 16 16
  | .b11s3 => gen11Layout pl (Config.gen11Pred 3) 14 0 32
  | .b11s0x => extensionLayout pl (Config.gen11Pred 0) 6
  | .b11s3x => extensionLayout pl (Config.gen11Pred 3) 14

/-! ### The first failing check (60_exceptions.md R244), by position -/

/-- Where ExpectZeroBits over bits q..r-1 faults: after the 8-bit chunk of the first set bit, capped at r
(40_bit_reader.md R102). -/
def zeroFault (pl : Payload) (q r : Nat) : Option Nat :=
  match (List.range (r - q)).find? fun k => payloadBit pl (q + k) with
  | some k => some (min r (q + 8 * (k / 8 + 1)))
  | none => none

/-- The first fault of a sequence of must-be-zero regions. -/
def regionsFault (pl : Payload) (regions : List (Nat × Nat)) : Option (Detail × Nat) :=
  match regions.findSome? fun qr => zeroFault pl qr.1 qr.2 with
  | some pos => some (.nonzeroReserved, pos)
  | none => none

/-- The fault at the header byte of slot k, if that slot has one. -/
def headerByteFault (pl : Payload) (c0 k : Nat) : Option (Detail × Nat) :=
  let q := c0 + 16 + 8 * setBits pl c0 k
  if hpAt pl c0 (slotChannel k) (slotSide k) = false then none
  else if 512 < q + 8 then some (.readPastEnd, q)
  else if nonzeroAt pl c0 (slotChannel k) (slotSide k) = false then some (.zeroHeaderByte, q + 8)
  else none

/-- The fault of the cacheline at bit c0: stage 1, the pattern check, the header bytes, the delta data. Stage 1 and
the delta data are read bit by bit, so a read past the end there is at bit 512. -/
def cachelineFault (pl : Payload) (c0 : Nat) : Option (Detail × Nat) :=
  if 512 < c0 + 16 then some (.readPastEnd, 512)
  else if ¬ (legalAt pl c0 .g ∧ legalAt pl c0 .cr ∧ legalAt pl c0 .cb ∧ legalAt pl c0 .a) then
    some (.headerPattern, c0 + 16)
  else
    match (List.range 8).findSome? (headerByteFault pl c0) with
    | some f => some f
    | none => if 512 < slotStart pl c0 8 then some (.readPastEnd, 512) else none

/-- The fault of n cachelines packed from bit c0. -/
def cachelinesFault (pl : Payload) : Nat → Nat → Option (Detail × Nat)
  | _, 0 => none
  | c0, n + 1 =>
    match cachelineFault pl c0 with
    | some f => some f
    | none => cachelinesFault pl (slotStart pl c0 8) n

/-- The fault of a gen8 payload. -/
def gen8Fault (pl : Payload) : Option (Detail × Nat) :=
  if 14 < gen8WidthsBefore pl 4 then some (.widthBudget, 36 + 3 * gen8Coded pl 4)
  else
    regionsFault pl
      (((List.range 32).map fun i => (gen8RecordAt pl i + gen8WidthsBefore pl 4, gen8RecordAt pl (i + 1))) ++
        [(gen8RecordAt pl 32, 496), (496, 512)])

/-- The fault of a gen11 payload whose n records start at bit h. -/
def gen11Fault (pl : Payload) (pred : Bool) (budget h n : Nat) (ext : Bool) : Option (Detail × Nat) :=
  if budget < gen11WidthsBefore pl pred 4 then some (.widthBudget, 44)
  else if ext = true ∧ setBits pl 44 8 ≠ 4 then some (.uniformCount, 52)
  else
    regionsFault pl
      ((List.range n).map fun i => (h + budget * i + gen11WidthsBefore pl pred 4, h + budget * (i + 1)))

/-- The fault each command ends in, and its POS; none for a payload it decodes. -/
def firstFault (pl : Payload) : Command → Option (Detail × Nat)
  | .a4 => cachelinesFault pl 0 4
  | .a3 => cachelinesFault pl 0 3
  | .a2 => cachelinesFault pl 0 2
  | .b8 => gen8Fault pl
  | .b11s0 => gen11Fault pl (Config.gen11Pred 0) 6 44 32 false
  | .b11s1 => gen11Fault pl (Config.gen11Pred 1) 12 44 16 false
  | .b11s2 => gen11Fault pl (Config.gen11Pred 2) 12 44 16 false
  | .b11s3 => gen11Fault pl (Config.gen11Pred 3) 14 44 32 false
  | .b11s0x => gen11Fault pl (Config.gen11Pred 0) 6 52 20 true
  | .b11s3x => gen11Fault pl (Config.gen11Pred 3) 14 52 20 true

/-- Validate(C), as 41_commands.md R131 writes it, under the machine's mode codes: the detail of the first check that
fails. -/
def validateDetail (codes : Config.ModeCodes) (w : Word) : Option Detail :=
  let mode : Byte := w.extractLsb' 0 8
  if w.extractLsb' 10 22 ≠ 0 then some .reservedCmdBits
  else if ¬ (w.getLsbD 8, mode) ∈
      [(false, codes.a4cl), (false, codes.a3cl), (false, codes.a2cl), (true, codes.bGen8), (true, codes.bG11S0),
       (true, codes.bG11S1), (true, codes.bG11S2), (true, codes.bG11S3)] then
    some .unknownMode
  else if w.getLsbD 9 = true ∧ ¬ (w.getLsbD 8 = true ∧ (mode = codes.bG11S0 ∨ mode = codes.bG11S3)) then
    some .extNotAllowed
  else none

/-- OUT holds the pixels of a vendor-A decode: pixel i in bytes 4i..4i+3 (20_memory.md R53). -/
def OutHoldsA (out : Vector Byte 256) (px : List Pixel) : Prop :=
  ∀ k : Fin 256, out[k] = (px.getD (k.val / 4) Pixel.zero).byte k.val

/-- OUT holds the logical pixels of a vendor-B decode: logical pixel i in the four bytes of slot B_SLOT(i)
(45_assembler.md R223). -/
def OutHoldsB (out : Vector Byte 256) (px : List Pixel) : Prop :=
  ∀ (i : Fin 32) (j : Fin 4),
    out[4 * (Config.bSlot i).val + j.val]'(by omega) = (px.getD i.val Pixel.zero).byte j.val

end Sys2Proof.Machine
end

