-- ==== Sys2Proof/Certificates/Slice0/Obligations.lean ====
section
/-!
DEFINITION. The statements about the model, from the numbered rules of the spec. No statement rests on the value of a
free value or of `draws`.
-/

open Sys2Proof Sys2Proof.Machine

/-! ### Encoding -/

/-- Decoding the encoding of a well-formed instruction gives it back, as a code and as bytes, whatever the mode
codes. -/
def Obligations.DecodeInvertsEncode : Prop :=
  ∀ (codes : Config.ModeCodes) (i : Instr), i.WellFormed →
    decodeCode codes (encode codes i) = .ok i ∧ decodeBytes codes (encode codes i).bytes = .ok i

/-- A code that decodes is the encoding of the well-formed instruction it decodes to: no code has a second meaning and
no instruction a second code, whatever the mode codes. -/
def Obligations.EncodeInvertsDecode : Prop :=
  ∀ (codes : Config.ModeCodes) (c : Code) (i : Instr), decodeCode codes c = .ok i → i.WellFormed ∧ encode codes i = c

/-- The command constants of 30_encoding.md R82, which are those of the default mode codes, and the transaction words of
95_test_vectors.md section 3. -/
def Obligations.SpecWordsDecode : Prop :=
  decodeTableWord 32 0x004 = some .decodeA4 ∧ decodeTableWord 32 0x003 = some .decodeA3 ∧
    decodeTableWord 32 0x002 = some .decodeA2 ∧ decodeTableWord 32 0x100 = some .decodeB8 ∧
    decodeTableWord 32 0x101 = some .decodeB11S0 ∧ decodeTableWord 32 0x102 = some .decodeB11S1 ∧
    decodeTableWord 32 0x103 = some .decodeB11S2 ∧ decodeTableWord 32 0x104 = some .decodeB11S3 ∧
    decodeTableWord 32 0x301 = some .decodeB11S0X ∧ decodeTableWord 32 0x304 = some .decodeB11S3X ∧
    decodeTableWord 64 0x00000000000A0202 = some (.wrpay 2 0x0A) ∧
    decodeTableWord 64 0x000000000001023F = some (.wrpay 63 0x01) ∧
    decodeTableWord 64 0x0000000001050640 = some (.wrcmd 0x105) ∧
    decodeTableWord 64 0x0000000000010644 = some (.start 1) ∧ decodeTableWord 64 0x448 = some .rdstat ∧
    decodeTableWord 64 0x44C = some .rdlen ∧ decodeTableWord 64 0x1FF = some (.rdout 255)

/-- The three checks of 30_encoding.md R74 in their order, each with its UnsupportedMode detail; a word that passes them
selects exactly one command. It holds for every choice of mode codes. -/
def Obligations.CommandWordValidation : Prop :=
  ∀ (codes : Config.ModeCodes) (w : Word),
    (∀ d, validateDetail codes w = some d → d.kind = .unsupportedMode ∧
      ∃ r, decodeCommand codes w = .error r ∧ detailOfReject r = d) ∧
    (validateDetail codes w = none → ∃! c, decodeCommand codes w = .ok c ∧ encodeCommand codes c = w)

/-- A transaction word decodes exactly when it matches an HT row of the opcode table. -/
def Obligations.TransactionsMatchTheTable : Prop :=
  ∀ w : HtWord, (∃ i, decodeHt w = .ok i) ↔ ∃ row ∈ htRows, w &&& row.1 = row.2

/-- The static parameters of each command (41_commands.md R132), with its word under the default mode codes, OUTLEN on
DONE and the warning. -/
def Obligations.ModeParamsTable : Prop :=
  (Command.all.map fun c =>
      ((encodeCommand .defaults c).toNat, c.params.variant.outlen.toNat, c.params.warning, c.params.ext)) =
      [(0x004, 256, .none, false), (0x003, 256, .aTrailingSynth, false), (0x002, 256, .aTrailingSynth, false),
       (0x100, 128, .none, false), (0x101, 128, .none, false), (0x102, 128, .bHalfSynth, false),
       (0x103, 128, .bHalfSynth, false), (0x104, 128, .none, false), (0x301, 128, .none, true),
       (0x304, 128, .none, true)] ∧
    ([Command.a4, .a3, .a2].map fun c => (c.params.variant, c.params.ncl)) = [(.a4, 4), (.a3, 3), (.a2, 2)] ∧
    Command.b8.params.variant = .b8 ∧ Command.b8.params.budget = 14 ∧ Command.b8.params.pred = false ∧
    Command.b8.params.lo = 0 ∧ Command.b8.params.hi = 31 ∧
    ([Command.b11s0, .b11s1, .b11s2, .b11s3, .b11s0x, .b11s3x].map fun c =>
        (c.params.variant, c.params.sub, c.params.budget, c.params.lo, c.params.hi)) =
      [(.b11, 0, 6, 0, 31), (.b11, 1, 12, 0, 15), (.b11, 2, 12, 16, 31), (.b11, 3, 14, 0, 31), (.b11, 0, 6, 0, 31),
       (.b11, 3, 14, 0, 31)] ∧
    ∀ c ∈ [Command.b11s0, .b11s1, .b11s2, .b11s3, .b11s0x, .b11s3x],
      c.params.pred = Config.gen11Pred c.params.sub

/-! ### The step -/

/-- A step runs the instruction of the transaction word that is first among the inputs, which it consumes. That host
accesses come as a list of inputs is the model's choice (log 2). -/
def Obligations.StepRunsTransaction : Prop :=
  ∀ (s : State) (w : HtWord) (rest : List Input) (i : Instr), s.inputs = .transaction w :: rest →
    decodeHt w = .ok i → step s = exec i { s with inputs := rest }

/-- With no host access first, a step of a BUSY machine runs the command START latched, and a step of a machine that is
not BUSY changes no register. That the decode body is one step is the model's choice (log 1, which 70_reset_and_hazards.md
R276 allows), and so is where it comes among the inputs (log 2). -/
def Obligations.StepRunsLatchedCommand : Prop :=
  (∀ (s : State) (c : Command), Busy s → decodeCommand s.parameters.codes s.dp.command = .ok c →
    (s.inputs = [] → step s = exec (.ofCommand c) s) ∧
    ∀ rest, s.inputs = .decoder :: rest → step s = exec (.ofCommand c) { s with inputs := rest }) ∧
  ∀ s : State, ¬ Busy s →
    (s.inputs = [] → step s = .next s) ∧
    ∀ rest, s.inputs = .decoder :: rest → step s = .next { s with inputs := rest }

/-- The accesses of 20_memory.md R55 run; every other access is refused. A read carries DATA 0, and a byte write at most
8 bits (30_encoding.md R75). -/
def Obligations.DefinedAccessesRunOthersAreRefused : Prop :=
  ∀ (s : State) (addr : BitVec 9) (wr wide : Bool) (data : Word) (rest : List Input),
    s.inputs = .transaction (htWord addr wr wide data) :: rest → (wr = false → data = 0) →
    (wr = true → wide = false → data.toNat < 256) →
    (AccessDefined addr wr wide → ∃ i, step s = exec i { s with inputs := rest }) ∧
    (¬ AccessDefined addr wr wide → ∃ e, step s = .refused (.undefinedAccess e))

/-- No step faults; a step refuses only a transaction word that matches no row, or a host write while BUSY. -/
def Obligations.OnlyUndefinedAccessesAndBusyWritesStop : Prop :=
  ∀ s : State,
    (∃ t, step s = .next t) ∨
    (∃ w rest e, s.inputs = .transaction w :: rest ∧ decodeHt w = .error e ∧
      step s = .refused (.undefinedAccess e)) ∨
    ∃ w rest i, s.inputs = .transaction w :: rest ∧ decodeHt w = .ok i ∧ Busy s ∧ IsHostWrite i ∧
      step s = .refused .writeWhileBusy

/-! ### Host operations -/

/-- RDPAY and WRPAY (41_commands.md R144): encodings, results and frames. -/
def Obligations.PayloadAccess : Prop :=
  (∀ (off : BitVec 6) (byte : Byte), decodeHt (htWord (off.setWidth 9) false false 0) = .ok (.rdpay off) ∧
    decodeHt (htWord (off.setWidth 9) true false (byte.setWidth 32)) = .ok (.wrpay off byte)) ∧
  (∀ (s : State) (off : BitVec 6), ∃ t, exec (.rdpay off) s = .next t ∧
    t.readData = .byte (payloadByte s.payload off) ∧ SameRegisters s t) ∧
  (∀ (s : State) (off : BitVec 6) (byte : Byte), ¬ Busy s → ∃ t, exec (.wrpay off byte) s = .next t ∧
    payloadByte t.payload off = byte ∧ (∀ k, k ≠ off → payloadByte t.payload k = payloadByte s.payload k) ∧
    t.cmd = s.cmd ∧ t.status = s.status ∧ t.outlen = s.outlen ∧ t.out = s.out ∧ t.dp = s.dp ∧ t.inputs = s.inputs ∧
    t.readData = s.readData) ∧
  ∀ (s : State) (off : BitVec 6) (byte : Byte), Busy s → exec (.wrpay off byte) s = .refused .writeWhileBusy

/-- RDCMD and WRCMD (41_commands.md R145): encodings, results and frames; any word may be written. -/
def Obligations.CommandAccess : Prop :=
  (∀ word : Word, decodeHt (htWord 0x040 false true 0) = .ok .rdcmd ∧
    decodeHt (htWord 0x040 true true word) = .ok (.wrcmd word)) ∧
  (∀ s : State, ∃ t, exec .rdcmd s = .next t ∧ t.readData = .word s.cmd ∧ SameRegisters s t) ∧
  (∀ (s : State) (word : Word), ¬ Busy s → ∃ t, exec (.wrcmd word) s = .next t ∧ t.cmd = word ∧
    t.payload = s.payload ∧ t.status = s.status ∧ t.outlen = s.outlen ∧ t.out = s.out ∧ t.dp = s.dp ∧
    t.inputs = s.inputs ∧ t.readData = s.readData) ∧
  ∀ (s : State) (word : Word), Busy s → exec (.wrcmd word) s = .refused .writeWhileBusy

/-- CTRL (10_state.md R24, 41_commands.md R146): a read returns 0, a write with bit 0 set is START, a write with bit 0
clear has no effect, and bits 31:1 of a write do not matter. -/
def Obligations.ControlAccess : Prop :=
  (∀ data : Word, decodeHt (htWord 0x044 false true 0) = .ok .rdctrl ∧
    decodeHt (htWord 0x044 true true data) = .ok (if data.getLsbD 0 then .start data else .wrctrl0 data)) ∧
  (∀ s : State, ∃ t, exec .rdctrl s = .next t ∧ t.readData = .word 0 ∧ SameRegisters s t) ∧
  (∀ (s : State) (data : Word), ¬ Busy s → exec (.wrctrl0 data) s = .next s) ∧
  (∀ (s : State) (data : Word), Busy s → exec (.wrctrl0 data) s = .refused .writeWhileBusy) ∧
  ∀ (s : State) (data data' : Word), exec (.start data) s = exec (.start data') s

/-- RDSTAT and RDLEN (41_commands.md R147), in the states the invariant allows: while BUSY, STATUS reads STATE 1,
OUT_VALID 0, FAULT 0, DETAIL 0, the WARN of the mode and some POS, and OUTLEN reads 0. -/
def Obligations.StatusAndLengthReads : Prop :=
  (decodeHt (htWord 0x048 false true 0) = .ok .rdstat ∧ decodeHt (htWord 0x04C false true 0) = .ok .rdlen) ∧
  ∀ s : State, Inv s →
    (¬ Busy s → ∃ t, exec .rdstat s = .next t ∧ t.readData = .word s.status.word ∧ SameRegisters s t) ∧
    (Busy s → ∃ t pos c, decodeCommand s.parameters.codes s.dp.command = .ok c ∧ exec .rdstat s = .next t ∧
      SameRegisters s t ∧
      t.readData = .word (Status.word
        { state := .busy, outValid := false, fault := .none, detail := .none, warn := c.params.warning,
          pos := pos })) ∧
    (∃ t, exec .rdlen s = .next t ∧ t.readData = .word (s.outlen.setWidth 32) ∧ SameRegisters s t) ∧
    (Busy s → s.outlen = 0)

/-- The fields of the STATUS word, what they may hold, and their code numbers (10_state.md R25, 60_exceptions.md R240,
R241, R246). -/
def Obligations.StatusWordFields : Prop :=
  (∀ s : State, Inv s →
    let w := s.status.word
    w.extractLsb' 0 2 = s.status.state.code ∧ w.getLsbD 2 = decide (s.status.state = .done) ∧ w.getLsbD 3 = false ∧
      w.extractLsb' 4 3 = s.status.fault.code ∧ (w.extractLsb' 4 3).toNat ≤ 4 ∧ w.getLsbD 7 = false ∧
      w.extractLsb' 8 4 = s.status.detail.code ∧ (w.extractLsb' 8 4).toNat ≤ 10 ∧
      (w.extractLsb' 4 3 = 0 ↔ w.extractLsb' 8 4 = 0) ∧
      w.extractLsb' 12 2 = s.status.warn.code ∧ (w.extractLsb' 12 2).toNat ≤ 2 ∧ w.extractLsb' 14 2 = 0 ∧
      w.extractLsb' 16 10 = s.status.pos ∧ (w.extractLsb' 16 10).toNat ≤ 512 ∧ w.extractLsb' 26 6 = 0) ∧
  [DecodeState.idle, .busy, .done, .fault].map DecodeState.code = [0, 1, 2, 3] ∧
  [FaultKind.none, .unsupportedMode, .formatViolation, .outOfBounds, .invariantViolation].map FaultKind.code =
    [0, 1, 2, 3, 4] ∧
  [Detail.none, .unknownMode, .reservedCmdBits, .extNotAllowed, .headerPattern, .nonzeroReserved, .readPastEnd,
      .zeroHeaderByte, .uniformCount, .widthBudget, .accCapacity].map (fun d => (d.code, d.kind)) =
    [(0, .none), (1, .unsupportedMode), (2, .unsupportedMode), (3, .unsupportedMode), (4, .formatViolation),
     (5, .formatViolation), (6, .outOfBounds), (7, .invariantViolation), (8, .invariantViolation),
     (9, .invariantViolation), (10, .invariantViolation)] ∧
  [Warning.none, .aTrailingSynth, .bHalfSynth].map Warning.code = [0, 1, 2]

/-- RDOUT (41_commands.md R148): OUT[OFF] when STATE = DONE and OFF < OUTLEN, some value otherwise. -/
def Obligations.OutAccess : Prop :=
  (∀ off : BitVec 8, decodeHt (htWord (0x100 ||| off.setWidth 9) false false 0) = .ok (.rdout off)) ∧
  ∀ (s : State) (off : BitVec 8), ∃ t v, exec (.rdout off) s = .next t ∧ t.readData = .byte v ∧ SameRegisters s t ∧
    (s.status.state = .done → off.toNat < s.outlen.toNat → v = outByte s.out off)

/-- WRPAY, WRCMD, START and WRCTRL0 are refused while BUSY, at exec and at the step that would run them; nothing else is,
and none of the four is refused otherwise. -/
def Obligations.WritesWhileBusyRefused : Prop :=
  (∀ (i : Instr) (s : State), (Busy s ∧ IsHostWrite i ↔ ∃ r, exec i s = .refused r)) ∧
  ∀ (i : Instr) (s : State) (w : HtWord) (rest : List Input), Busy s → IsHostWrite i →
    s.inputs = .transaction w :: rest → decodeHt w = .ok i → step s = .refused .writeWhileBusy

/-! ### START -/

/-- START with an unsupported command word faults in the START step, before any payload bit is read (41_commands.md
R131). -/
def Obligations.StartRejectsUnsupportedWord : Prop :=
  ∀ (s : State) (data : Word) (d : Detail), ¬ Busy s → validateDetail s.parameters.codes s.cmd = some d →
    ∃ t, exec (.start data) s = .next t ∧ t.status = faultStatus d .none 0 ∧ t.status.fault = .unsupportedMode ∧
      t.outlen = 0 ∧ SameHostSide s t

/-- START with a supported word begins its decode: the first lines and the dispatch of 41_commands.md R130. -/
def Obligations.StartBeginsDecode : Prop :=
  ∀ (s : State) (data : Word), ¬ Busy s → validateDetail s.parameters.codes s.cmd = none →
    ∃ c t, encodeCommand s.parameters.codes c = s.cmd ∧ exec (.start data) s = .next t ∧
      t.status = { state := .busy, outValid := false, fault := .none, detail := .none, warn := c.params.warning,
                   pos := 0 } ∧
      t.outlen = 0 ∧ t.dp.command = s.cmd ∧ t.dp.cur = 0 ∧ t.dp.accBits = 0 ∧ t.dp.accCnt = 0 ∧ t.dp.mp = c.params ∧
      SameHostSide s t

/-! ### Decode commands -/

/-- DECODE.A4, A3 and A2 on a payload of NCL legal cachelines end DONE: POS is the end of the last cacheline, OUTLEN 256,
and OUT holds the pixels the layout of 30_encoding.md R76 gives, whichever the value of A_RIGHT_INHERIT. -/
def Obligations.VendorADecodesItsLayout : Prop :=
  ∀ (c : Command) (s : State) (e : Nat) (px : List Pixel), c ∈ [Command.a4, .a3, .a2] → s.dp.cur = 0 →
    layout s.parameters.rightInherit s.payload c = some (e, px) →
    ∃ t, exec (.ofCommand c) s = .next t ∧ t.status = doneStatus s.status.warn e ∧ t.outlen = 256 ∧
      OutHoldsA t.out px ∧ SameHostSide s t

/-- DECODE.B8 on a legal payload ends DONE with the pixels of the layout of 30_encoding.md R77, through B_SLOT. -/
def Obligations.Gen8DecodesItsLayout : Prop :=
  ∀ (s : State) (e : Nat) (px : List Pixel), s.dp.cur = 0 →
    layout s.parameters.rightInherit s.payload .b8 = some (e, px) →
    ∃ t, exec .decodeB8 s = .next t ∧ t.status = doneStatus s.status.warn e ∧ t.outlen = 128 ∧ OutHoldsB t.out px ∧
      SameHostSide s t

/-- DECODE.B11S0, S1, S2 and S3 on a legal payload end DONE with the pixels of the layout of 30_encoding.md R78 without
EXT, through B_SLOT. -/
def Obligations.Gen11DecodesItsLayout : Prop :=
  ∀ (c : Command) (s : State) (e : Nat) (px : List Pixel), c ∈ [Command.b11s0, .b11s1, .b11s2, .b11s3] →
    s.dp.cur = 0 → layout s.parameters.rightInherit s.payload c = some (e, px) →
    ∃ t, exec (.ofCommand c) s = .next t ∧ t.status = doneStatus s.status.warn e ∧ t.outlen = 128 ∧
      OutHoldsB t.out px ∧ SameHostSide s t

/-- DECODE.B11S0X and S3X on a legal payload end DONE with the pixels of the layout of 30_encoding.md R78 with EXT,
through B_SLOT: a uniform sub-window's one record fills its four pixels. -/
def Obligations.ExtensionDecodesItsLayout : Prop :=
  ∀ (c : Command) (s : State) (e : Nat) (px : List Pixel), c ∈ [Command.b11s0x, .b11s3x] → s.dp.cur = 0 →
    layout s.parameters.rightInherit s.payload c = some (e, px) →
    ∃ t, exec (.ofCommand c) s = .next t ∧ t.status = doneStatus s.status.warn e ∧ t.outlen = 128 ∧
      OutHoldsB t.out px ∧ SameHostSide s t

/-- A vendor-A decode that faults reports the first failing check in sequence order, with POS there; a payload without
one has a layout. -/
def Obligations.VendorAFirstFault : Prop :=
  ∀ (c : Command) (s : State), c ∈ [Command.a4, .a3, .a2] → s.dp.cur = 0 →
    (firstFault s.payload c = none ↔ (layout s.parameters.rightInherit s.payload c).isSome) ∧
    ∀ d pos, firstFault s.payload c = some (d, pos) →
      ∃ t, exec (.ofCommand c) s = .next t ∧ t.status = faultStatus d s.status.warn pos ∧ t.outlen = 0 ∧
        SameHostSide s t

/-- A vendor-B decode that faults reports the first failing check in sequence order, with POS there; a payload without
one has a layout. -/
def Obligations.VendorBFirstFault : Prop :=
  ∀ (c : Command) (s : State), c ∉ [Command.a4, .a3, .a2] → s.dp.cur = 0 →
    (firstFault s.payload c = none ↔ (layout s.parameters.rightInherit s.payload c).isSome) ∧
    ∀ d pos, firstFault s.payload c = some (d, pos) →
      ∃ t, exec (.ofCommand c) s = .next t ∧ t.status = faultStatus d s.status.warn pos ∧ t.outlen = 0 ∧
        SameHostSide s t

/-- The faults each command can raise (60_exceptions.md R242). -/
def Obligations.PossibleFaults : Prop :=
  (∀ (c : Command) (s : State), s.dp.cur = 0 → ∃ t, exec (.ofCommand c) s = .next t ∧
    (t.status.state = .done ∨ t.status.state = .fault ∧ t.status.detail ∈
      match c with
      | .a4 | .a3 | .a2 => [Detail.headerPattern, .zeroHeaderByte, .readPastEnd]
      | .b8 | .b11s0 | .b11s1 | .b11s2 | .b11s3 => [Detail.widthBudget, .nonzeroReserved]
      | .b11s0x | .b11s3x => [Detail.widthBudget, .uniformCount, .nonzeroReserved])) ∧
  ∀ (s : State) (data : Word), ¬ Busy s → ∃ t, exec (.start data) s = .next t ∧
    (t.status.state = .busy ∨ t.status.state = .fault ∧ t.status.detail ∈
      [Detail.unknownMode, .reservedCmdBits, .extNotAllowed])

/-- An illegal pattern in a cacheline, after legal ones, faults HEADER_PATTERN with POS = c0 + 16, whichever channel holds
it (42_vendor_a_header.md R153, R154). -/
def Obligations.IllegalPatternFaults : Prop :=
  ∀ (c : Command) (s : State) (k c0 : Nat) (px : List Pixel) (ch : Channel), c ∈ [Command.a4, .a3, .a2] →
    s.dp.cur = 0 → k < c.params.ncl → cachelinesLayout s.parameters.rightInherit s.payload 0 k = some (c0, px) →
    c0 + 16 ≤ 512 → legalAt s.payload c0 ch = false →
    ∃ t, exec (.ofCommand c) s = .next t ∧ t.status = faultStatus .headerPattern s.status.warn (c0 + 16) ∧
      t.status.fault = .formatViolation ∧ t.outlen = 0 ∧ SameHostSide s t

/-- Widths whose sum exceeds the budget fault WIDTH_BUDGET: under gen8 at POS 36 + 3k, k the number of channels that are
not skipped (44_vendor_b_decode.md R193), under gen11 at POS 44, whatever the extension flags hold (R199). -/
def Obligations.WidthBudgetFaults : Prop :=
  (∀ s : State, s.dp.cur = 0 → 14 < gen8WidthsBefore s.payload 4 →
    ∃ t, exec .decodeB8 s = .next t ∧
      t.status = faultStatus .widthBudget s.status.warn (36 + 3 * gen8Coded s.payload 4) ∧
      t.status.fault = .invariantViolation ∧ t.outlen = 0 ∧ SameHostSide s t) ∧
  ∀ (c : Command) (s : State), c ∈ [Command.b11s0, .b11s1, .b11s2, .b11s3, .b11s0x, .b11s3x] → s.dp.cur = 0 →
    c.params.budget < gen11WidthsBefore s.payload c.params.pred 4 →
    ∃ t, exec (.ofCommand c) s = .next t ∧ t.status = faultStatus .widthBudget s.status.warn 44 ∧
      t.status.fault = .invariantViolation ∧ t.outlen = 0 ∧ SameHostSide s t

/-- With EXT and widths inside the budget, a count of uniform flags (bits 44..51) other than 4 faults UNIFORM_COUNT at
POS 52 (44_vendor_b_decode.md R200). -/
def Obligations.UniformCountFaults : Prop :=
  ∀ (c : Command) (s : State), c ∈ [Command.b11s0x, .b11s3x] → s.dp.cur = 0 →
    gen11WidthsBefore s.payload c.params.pred 4 ≤ c.params.budget → setBits s.payload 44 8 ≠ 4 →
    ∃ t, exec (.ofCommand c) s = .next t ∧ t.status = faultStatus .uniformCount s.status.warn 52 ∧
      t.status.fault = .invariantViolation ∧ t.outlen = 0 ∧ SameHostSide s t

/-- A gen8 decode never raises OutOfBounds, and ends with POS 512 when it succeeds (44_vendor_b_decode.md R196). -/
def Obligations.Gen8ReadsEveryBit : Prop :=
  ∀ s : State, s.dp.cur = 0 → ∃ t, exec .decodeB8 s = .next t ∧ t.status.fault ≠ .outOfBounds ∧
    (t.status.state = .done ∧ t.status.pos = 512 ∨ t.status.state = .fault)

/-- A gen11 decode that succeeds ends with POS as the table of 44_vendor_b_decode.md R208. -/
def Obligations.Gen11StreamLengths : Prop :=
  ∀ (s : State) (t : State) (c : Command) (len : Nat),
    (c, len) ∈ [(Command.b11s0, 236), (.b11s1, 236), (.b11s2, 236), (.b11s3, 492), (.b11s0x, 172), (.b11s3x, 332)] →
    s.dp.cur = 0 → exec (.ofCommand c) s = .next t → t.status.state = .done → t.status.pos.toNat = len

/-- A gen11 decode never raises OutOfBounds, and payload bits after its last record change nothing the host can see
(44_vendor_b_decode.md R207). -/
def Obligations.Gen11IgnoresTrailingBits : Prop :=
  ∀ (s₁ s₂ : State) (c : Command) (len : Nat),
    (c, len) ∈ [(Command.b11s0, 236), (.b11s1, 236), (.b11s2, 236), (.b11s3, 492), (.b11s0x, 172), (.b11s3x, 332)] →
    s₁.dp.cur = 0 → s₂.dp.cur = 0 → s₁.status.warn = s₂.status.warn →
    (∀ p < len, payloadBit s₁.payload p = payloadBit s₂.payload p) →
    ∃ t₁ t₂, exec (.ofCommand c) s₁ = .next t₁ ∧ exec (.ofCommand c) s₂ = .next t₂ ∧ t₁.status = t₂.status ∧
      t₁.status.fault ≠ .outOfBounds ∧ t₁.outlen = t₂.outlen ∧
      ∀ k : Fin 256, k.val < t₁.outlen.toNat → t₁.out[k] = t₂.out[k]

/-- The cachelines after NCL are zero in OUT (45_assembler.md R222). -/
def Obligations.TrailingCachelinesZero : Prop :=
  (∀ s t : State, s.dp.cur = 0 → exec .decodeA3 s = .next t → t.status.state = .done →
    ∀ k : Fin 256, 0xC0 ≤ k.val → t.out[k] = 0) ∧
  ∀ s t : State, s.dp.cur = 0 → exec .decodeA2 s = .next t → t.status.state = .done →
    ∀ k : Fin 256, 0x80 ≤ k.val → t.out[k] = 0

/-- A payload that is valid for DECODE.A4 decodes under A3 and A2 to the same first 48 and 32 pixels
(41_commands.md R134, R135). -/
def Obligations.PartialCodesAgree : Prop :=
  ∀ s t : State, s.dp.cur = 0 → exec .decodeA4 s = .next t → t.status.state = .done →
    (∃ u, exec .decodeA3 s = .next u ∧ u.status.state = .done ∧ u.status.pos.toNat ≤ t.status.pos.toNat ∧
      ∀ k : Fin 256, k.val < 192 → u.out[k] = t.out[k]) ∧
    ∃ u, exec .decodeA2 s = .next u ∧ u.status.state = .done ∧ u.status.pos.toNat ≤ t.status.pos.toNat ∧
      ∀ k : Fin 256, k.val < 128 → u.out[k] = t.out[k]

/-- Under S1 the slots of logical pixels 16..31 are zero, under S2 those of 0..15; START warns B_HALF_SYNTH for both
(44_vendor_b_decode.md R206, 45_assembler.md R224). -/
def Obligations.HalfRecoveryZeros : Prop :=
  (∀ s t : State, s.dp.cur = 0 → exec .decodeB11S1 s = .next t → t.status.state = .done →
    ∀ (i : Fin 32) (j : Fin 4), 16 ≤ i.val → t.out[4 * (Config.bSlot i).val + j.val]'(by omega) = 0) ∧
  (∀ s t : State, s.dp.cur = 0 → exec .decodeB11S2 s = .next t → t.status.state = .done →
    ∀ (i : Fin 32) (j : Fin 4), i.val < 16 → t.out[4 * (Config.bSlot i).val + j.val]'(by omega) = 0) ∧
  ∀ (s : State) (data : Word), ¬ Busy s →
    s.cmd = encodeCommand s.parameters.codes .b11s1 ∨ s.cmd = encodeCommand s.parameters.codes .b11s2 →
    ∃ t, exec (.start data) s = .next t ∧ t.status.warn = .bHalfSynth

/-- WARN is set at START, by the mode, and a decode that ends DONE or FAULT keeps it (60_exceptions.md R246). -/
def Obligations.WarningSetAtStartAndKept : Prop :=
  (∀ (s : State) (data : Word), ¬ Busy s → ∃ t, exec (.start data) s = .next t ∧ t.status.warn =
    let word := encodeCommand s.parameters.codes
    if s.cmd = word .a3 ∨ s.cmd = word .a2 then .aTrailingSynth
    else if s.cmd = word .b11s1 ∨ s.cmd = word .b11s2 then .bHalfSynth
    else .none) ∧
  ∀ (c : Command) (s : State), ∃ t, exec (.ofCommand c) s = .next t ∧ t.status.warn = s.status.warn

/-! ### The bit reader -/

/-- ReadBits(n) (40_bit_reader.md R100): the bounds check first; bit k of the value is payload bit CUR + k; only CUR
changes. -/
def Obligations.ReadBitsRule : Prop :=
  ∀ (pl : Payload) (n : Nat) (d : Datapath), n ≤ 8 →
    (512 < d.cur.val + n → readBits pl n d = .error .readPastEnd d) ∧
    (d.cur.val + n ≤ 512 → ∃ v d', readBits pl n d = .ok v d' ∧
      (∀ k, v.getLsbD k = (decide (k < n) && payloadBit pl (d.cur.val + k))) ∧ d'.cur.val = d.cur.val + n ∧
      d' = { d with cur := d'.cur })

/-- ReadBits(n) and n single-bit reads: same bits, same CUR, same fault, the sequence of single reads faulting at 512
(40_bit_reader.md R101); ReadBits(a) then ReadBits(b) gives the bits of ReadBits(a + b), the later above the earlier
(20_memory.md R52). -/
def Obligations.ReadsCompose : Prop :=
  (∀ (pl : Payload) (n : Nat) (d : Datapath), n ≤ 8 →
    (∀ v d', readBits pl n d = .ok v d' → ∃ bs, repeatMicro (readBits pl 1) n d = .ok bs d' ∧ bs.length = n ∧
      v.toNat = ((List.range n).map fun k => (bs.getD k 0).toNat * 2 ^ k).sum) ∧
    ∀ d', readBits pl n d = .error .readPastEnd d' → d' = d ∧
      ∃ d'', repeatMicro (readBits pl 1) n d = .error .readPastEnd d'' ∧ d''.cur = 512) ∧
  ∀ (pl : Payload) (a b : Nat) (d d' : Datapath) (v : Byte), a + b ≤ 8 → readBits pl (a + b) d = .ok v d' →
    ∃ lo hi m, readBits pl a d = .ok lo m ∧ readBits pl b m = .ok hi d' ∧ v.toNat = lo.toNat + 2 ^ a * hi.toNat

/-- ExpectZeroBits(n) (40_bit_reader.md R102): POS after the chunk of the first set bit, or at the chunk that would pass
bit 511; only CUR changes. -/
def Obligations.ExpectZeroBitsRule : Prop :=
  ∀ (pl : Payload) (n : Nat) (d : Datapath),
    let q := d.cur.val
    (q + n ≤ 512 →
      (zeroFault pl q (q + n) = none → ∃ d', expectZeroBits pl n d = .ok () d' ∧ d'.cur.val = q + n ∧
        d' = { d with cur := d'.cur }) ∧
      ∀ pos, zeroFault pl q (q + n) = some pos → ∃ d', expectZeroBits pl n d = .error .nonzeroReserved d' ∧
        d'.cur.val = pos ∧ d' = { d with cur := d'.cur }) ∧
    (512 < q + n →
      let e := q + 8 * ((512 - q) / 8)
      (zeroFault pl q e = none → ∃ d', expectZeroBits pl n d = .error .readPastEnd d' ∧ d'.cur.val = e ∧
        d' = { d with cur := d'.cur }) ∧
      ∀ pos, zeroFault pl q e = some pos → ∃ d', expectZeroBits pl n d = .error .nonzeroReserved d' ∧
        d'.cur.val = pos ∧ d' = { d with cur := d'.cur })

/-- AccFill(n) (40_bit_reader.md R103): the capacity check first; the bits are appended in stream order above those
buffered; the chunks before a read past the end stay appended. -/
def Obligations.AccFillRule : Prop :=
  ∀ (pl : Payload) (n : Nat) (d : Datapath),
    (32 - d.accCnt.val < n → accFill pl n d = .error .accCapacity d) ∧
    (n ≤ 32 - d.accCnt.val → d.cur.val + n ≤ 512 → ∃ d', accFill pl n d = .ok () d' ∧
      (∀ k < 32, d'.accBits.getLsbD k = (d.accBits.getLsbD k ||
        (decide (d.accCnt.val ≤ k ∧ k < d.accCnt.val + n) && payloadBit pl (d.cur.val + (k - d.accCnt.val))))) ∧
      d'.accCnt.val = d.accCnt.val + n ∧ d'.cur.val = d.cur.val + n ∧
      d' = { d with cur := d'.cur, accBits := d'.accBits, accCnt := d'.accCnt }) ∧
    (n ≤ 32 - d.accCnt.val → 512 < d.cur.val + n → ∃ d', accFill pl n d = .error .readPastEnd d' ∧
      d'.cur.val = d.cur.val + 8 * ((512 - d.cur.val) / 8) ∧
      d'.accCnt.val = d.accCnt.val + 8 * ((512 - d.cur.val) / 8) ∧
      (∀ k < 32, d'.accBits.getLsbD k = (d.accBits.getLsbD k ||
        (decide (d.accCnt.val ≤ k ∧ k < d'.accCnt.val) && payloadBit pl (d.cur.val + (k - d.accCnt.val))))) ∧
      d' = { d with cur := d'.cur, accBits := d'.accBits, accCnt := d'.accCnt })

/-- AccTake(n) and AccExpectZero(n) (40_bit_reader.md R104, R105): capacity, the n oldest bits, and what is left. -/
def Obligations.AccDrainRules : Prop :=
  ∀ (n : Nat) (d : Datapath),
    (8 < n ∨ d.accCnt.val < n → accTake n d = .error .accCapacity d) ∧
    (n ≤ 8 → n ≤ d.accCnt.val → ∃ v d', accTake n d = .ok v d' ∧
      (∀ k, v.getLsbD k = (decide (k < n) && d.accBits.getLsbD k)) ∧ d'.accBits = d.accBits >>> n ∧
      d'.accCnt.val = d.accCnt.val - n ∧ d' = { d with accBits := d'.accBits, accCnt := d'.accCnt }) ∧
    (d.accCnt.val < n → accExpectZero n d = .error .accCapacity d) ∧
    (n ≤ d.accCnt.val → ∃ d', d'.accBits = d.accBits >>> n ∧ d'.accCnt.val = d.accCnt.val - n ∧
      d' = { d with accBits := d'.accBits, accCnt := d'.accCnt } ∧
      accExpectZero n d =
        if ∃ k < n, d.accBits.getLsbD k = true then .error .nonzeroReserved d' else .ok () d')

/-- No decode command touches the accumulator or raises ACC_CAPACITY (40_bit_reader.md R106). -/
def Obligations.DecodesLeaveTheAccumulator : Prop :=
  ∀ (inherit : Config.RightInherit) (c : Command) (pl : Payload) (mp : ModeParams) (d : Datapath),
    match bodyOf inherit c pl mp d with
    | .ok _ d' => d'.accBits = d.accBits ∧ d'.accCnt = d.accCnt
    | .error e d' => d'.accBits = d.accBits ∧ d'.accCnt = d.accCnt ∧ e ≠ .accCapacity

/-! ### Arithmetic -/

/-- Sign-magnitude steps (40_bit_reader.md R112): adding SM(1, d) subtracts d + 1, adding SM(0, d) adds d, SM(1, d) is
the complement of d, and the steps of width w are all distinct. -/
def Obligations.SignMagnitudeStep : Prop :=
  (∀ x d : Byte, (add8 x (sm true d)).toNat = (x.toNat + 256 - (d.toNat + 1)) % 256 ∧
    (add8 x (sm false d)).toNat = (x.toNat + d.toNat) % 256 ∧ sm true d = ~~~d ∧
    (sm true d).toNat = 255 - d.toNat) ∧
  ∀ (w : Nat) (s s' : Bool) (d d' : Byte), w ≤ 7 → d.toNat < 2 ^ w → d'.toNat < 2 ^ w → sm s d = sm s' d' →
    s = s' ∧ d = d'

/-- HSEED never wraps: the base of a header byte has bits w..0 clear and the seed is base | (2d + s)
(40_bit_reader.md R113). -/
def Obligations.SeedNeverWraps : Prop :=
  ∀ (b d : Byte) (s : Bool), b ≠ 0 → d.toNat < 2 ^ (lowestSetBit b).val →
    (∀ k ≤ (lowestSetBit b).val, (clearBit b (lowestSetBit b)).getLsbD k = false) ∧
    (clearBit b (lowestSetBit b)).toNat + 2 * d.toNat + s.toNat < 256 ∧
    (hseed (clearBit b (lowestSetBit b)) d s).toNat =
      (clearBit b (lowestSetBit b)).toNat + 2 * d.toNat + s.toNat ∧
    (hseed (clearBit b (lowestSetBit b)) d s).toNat =
      (clearBit b (lowestSetBit b)).toNat ||| (2 * d.toNat + s.toNat)

/-! ### Vendor A -/

/-- TZCNT8(b) (40_bit_reader.md R107), and the plan of a present, non-constant side (42_vendor_a_header.md R157): a zero
byte faults after it is read; else W is the place of the lowest set bit and BASE the byte without it. -/
def Obligations.HeaderByteSplit : Prop :=
  (∀ (b : Byte) (d : Datapath),
    (b = 0 → tzcnt8 b d = .error .zeroHeaderByte d) ∧
    (b ≠ 0 → ∃ w : Fin 8, tzcnt8 b d = .ok w d ∧ b.getLsbD w.val = true ∧ ∀ k < w.val, b.getLsbD k = false)) ∧
  ∀ (pl : Payload) (d : Datapath) (absent : Plan), d.cur.val + 8 ≤ 512 →
    let byte := bitsAt pl d.cur.val 8
    ∃ d', d'.cur.val = d.cur.val + 8 ∧
      (byte = 0 → planSide pl true false absent d = .error .zeroHeaderByte d') ∧
      (byte ≠ 0 → ∃ p, planSide pl true false absent d = .ok p d' ∧ p.kind = .hseed ∧
        byte.getLsbD p.width.val = true ∧ (∀ k < p.width.val, byte.getLsbD k = false) ∧
        p.base.toNat = byte.toNat - 2 ^ p.width.val)

/-- The plan of each legal pattern is the row of 42_vendor_a_header.md R160: bytes read, kinds, bases and widths. BASE of
a FLATINH side is not compared: no rule gives it. -/
def Obligations.PlansMatchTheTable : Prop :=
  ∀ (pl : Payload) (d : Datapath) (hp cst : PerSide Bool) (n : Nat) (l r : Plan),
    let b0 := bitsAt pl d.cur.val 8
    let b1 := bitsAt pl (d.cur.val + 8) 8
    planTable hp.l hp.r cst.l cst.r b0 b1 = some (n, l, r) → d.cur.val + 8 * n ≤ 512 →
    (hp.l = true → cst.l = false → b0 ≠ 0) → (hp.r = true → cst.r = false → b1 ≠ 0) →
    ∃ p d', planChannel pl hp cst d = .ok p d' ∧ d'.cur.val = d.cur.val + 8 * n ∧ p.l = l ∧ p.r.kind = r.kind ∧
      p.r.width = r.width ∧ (r.kind ≠ .flatInh → p.r.base = r.base)

/-- ReadGroup(w) (43_vendor_a_delta_chain.md R171): 4 + 4w bits; bit k of magnitude i is at group offset 4 + 4k + i. -/
def Obligations.ReadGroupRule : Prop :=
  ∀ (pl : Payload) (w : Fin 8) (d : Datapath), d.cur.val + (4 + 4 * w.val) ≤ 512 →
    ∃ g d', readGroup pl w d = .ok g d' ∧ d'.cur.val = d.cur.val + (4 + 4 * w.val) ∧
      ∀ i : Fin 4, g.s[i] = payloadBit pl (d.cur.val + i.val) ∧
        ∀ k, g.d[i].getLsbD k = (decide (k < w.val) && payloadBit pl (d.cur.val + (4 + 4 * k + i.val)))

/-- The chain of a side (43_vendor_a_delta_chain.md R177, R178): each sample is its predecessor plus a sign-magnitude
step. -/
def Obligations.ChainGraph : Prop :=
  ∀ (seed : Byte) (g0 g1 : Group),
    let p := chain seed g0 g1
    p.at 0 0 = seed ∧ p.at 0 1 = p.at 0 0 + sm g0.s[1] g0.d[1] ∧ p.at 1 0 = p.at 0 0 + sm g0.s[2] g0.d[2] ∧
      p.at 1 1 = p.at 1 0 + sm g0.s[3] g0.d[3] ∧ p.at 0 2 = p.at 0 1 + sm g1.s[0] g1.d[0] ∧
      p.at 0 3 = p.at 0 2 + sm g1.s[1] g1.d[1] ∧ p.at 1 2 = p.at 0 2 + sm g1.s[2] g1.d[2] ∧
      p.at 1 3 = p.at 1 2 + sm g1.s[3] g1.d[3]

/-- Constant sides and seeds, by KIND (43_vendor_a_delta_chain.md R174 to R176, R179, R180): FLAT takes BASE; HSEED and
SMSEED seed from the side's first group; on the right, FLATINH takes the left side's last upper-row sample, and CHAIN
seeds as A_RIGHT_INHERIT selects: CHAIN, the default, steps from that sample, ABSOLUTE_SM is the step alone, and
BASE_SEED is the seed over BASE[ch][R], which 42_vendor_a_header.md R159 makes BASE[ch][L]. -/
def Obligations.SidesByKind : Prop :=
  (∀ (inherit : Config.RightInherit) (pl : Payload) (base v : Byte) (w : Fin 8) (d : Datapath),
    ∃ p, reconstructSide inherit pl ⟨.flat, base, w⟩ v d = .ok p d ∧ ∀ row j, p.at row j = base) ∧
  (∀ (inherit : Config.RightInherit) (pl : Payload) (base v : Byte) (w : Fin 8) (d : Datapath),
    d.cur.val + 2 * (4 + 4 * w.val) ≤ 512 →
    let g0 := groupAt pl d.cur.val w.val
    (∃ p d', reconstructSide inherit pl ⟨.hseed, base, w⟩ v d = .ok p d' ∧
      (p.at 0 0).toNat = (base.toNat + 2 * g0.d[0].toNat + g0.s[0].toNat) % 256) ∧
    ∃ p d', reconstructSide inherit pl ⟨.smseed, base, w⟩ v d = .ok p d' ∧ p.at 0 0 = sm g0.s[0] g0.d[0]) ∧
  ∀ (inherit : Config.RightInherit) (pl : Payload) (plan : PerSide Plan) (old : Samples) (d d' : Datapath)
    (p : PerSide Samples), reconstructChannel inherit pl plan old d = .ok p d' →
    let g0 := groupAt pl (d.cur.val + sideBits plan.l) plan.r.width.val
    d'.cur.val = d.cur.val + sideBits plan.l + sideBits plan.r ∧
      (plan.r.kind = .flatInh → ∀ row j, p.r.at row j = p.l.at 0 3) ∧
      (plan.r.kind = .chain →
        match inherit with
        | .chain => p.r.at 0 0 = p.l.at 0 3 + sm g0.s[0] g0.d[0]
        | .absoluteSm => p.r.at 0 0 = sm g0.s[0] g0.d[0]
        | .baseSeed =>
          (p.r.at 0 0).toNat = (plan.r.base.toNat + 2 * g0.d[0].toNat + g0.s[0].toNat) % 256)

/-- Colour conversion and quadrant order (45_assembler.md R220, R221): pixel 8X + 4 row + j of a cacheline. -/
def Obligations.ColourAndQuadrantOrder : Prop :=
  ∀ (p : PerChannel (PerSide Samples)) (x : Side) (row j : Nat), row < 2 → j < 4 →
    ∃ q, (assembleA p)[(match x with | .l => 0 | .r => 8) + 4 * row + j]? = some q ∧
      q.r.toNat = (((p.cr.get x).at row j).toNat + ((p.g.get x).at row j).toNat) % 256 ∧
      q.g = (p.g.get x).at row j ∧
      q.b.toNat = (((p.cb.get x).at row j).toNat + ((p.g.get x).at row j).toNat) % 256 ∧
      q.a = (p.a.get x).at row j

/-! ### Vendor B -/

/-- AVG8 is the floor of half the 9-bit sum (40_bit_reader.md R111); predicted and independent reconstruction
(44_vendor_b_decode.md R202, R203), in numbers. -/
def Obligations.Gen11Reconstruction : Prop :=
  (∀ b r : Byte, (avg8 b r).toNat = (b.toNat + r.toNat) / 2) ∧
  ∀ base delta : Rgba Byte,
    (let px := gen11Pixel true base delta
     px.b.toNat = (base.b.toNat + delta.b.toNat) % 256 ∧
       px.r.toNat = (base.r.toNat + delta.r.toNat + px.b.toNat) % 256 ∧
       px.g.toNat = (base.g.toNat + delta.g.toNat + (px.b.toNat + px.r.toNat) / 2) % 256 ∧
       px.a.toNat = (base.a.toNat + delta.a.toNat) % 256) ∧
    ∀ c : Component, ((gen11Pixel false base delta).get c).toNat = ((base.get c).toNat + (delta.get c).toNat) % 256

/-! ### The whole machine -/

/-- The registers after reset (10_state.md R37), at start and when a reset comes in any state; no decode is in progress.
The registers the spec leaves unspecified are not spoken of. START straight after reset, CMD still 0, faults UNKNOWN_MODE
(R23, 41_commands.md R130), and RDSTAT then returns 0x113. That the inputs still to come stay as they are when a reset
comes is the model's choice (log 16). -/
def Obligations.ResetValues : Prop :=
  (State.reset.cmd = 0 ∧ State.reset.status.word = 0 ∧ State.reset.outlen = 0 ∧ ¬ Busy State.reset) ∧
  (∀ (s : State) (rest : List Input), s.inputs = .reset :: rest →
    ∃ t, step s = .next t ∧ t.cmd = 0 ∧ t.status.word = 0 ∧ t.outlen = 0 ∧ ¬ Busy t ∧ t.inputs = rest) ∧
  ∀ data : Word, ∃ t u, exec (.start data) State.reset = .next t ∧ t.status = faultStatus .unknownMode .none 0 ∧
    exec .rdstat t = .next u ∧ u.readData = .word 0x113

/-- Every step keeps the invariant of STATUS, OUTLEN and the decode in progress. That CUR and the accumulator are still 0
while BUSY rests on the decode body being one step (log 1). -/
def Obligations.InvariantKept : Prop := ∀ s t : State, Inv s → step s = .next t → Inv t

/-- The invariant holds after reset, whatever the parameters, the free values and what is to come. -/
def Obligations.InvariantAtReset : Prop :=
  Inv State.reset ∧ ∀ (p : Config.Parameters) (n : Nat) (inputs : List Input) (r : ReadData),
    Inv (State.atReset p n inputs r)

/-- PAYLOAD is changed only by WRPAY and reset, CMD only by WRCMD and reset (70_reset_and_hazards.md R272). -/
def Obligations.PayloadAndCommandKept : Prop :=
  ∀ s t : State, step s = .next t →
    (t.payload = s.payload ∨ ∃ rest, s.inputs = .reset :: rest ∨
      ∃ w off byte, s.inputs = .transaction w :: rest ∧ decodeHt w = .ok (.wrpay off byte)) ∧
    (t.cmd = s.cmd ∨ ∃ rest, s.inputs = .reset :: rest ∨
      ∃ w word, s.inputs = .transaction w :: rest ∧ decodeHt w = .ok (.wrcmd word))

/-- STATUS of a machine that is not BUSY changes only by START and reset, and then a fault is UnsupportedMode
(60_exceptions.md R245, R248). -/
def Obligations.StatusStaysUntilStartOrReset : Prop :=
  ∀ s t : State, ¬ Busy s → step s = .next t →
    t.status = s.status ∨ (∃ rest, s.inputs = .reset :: rest) ∨
    ∃ rest w data, s.inputs = .transaction w :: rest ∧ decodeHt w = .ok (.start data) ∧
      (t.status.state = .fault → t.status.fault = .unsupportedMode)

/-- Two decodes started with the same PAYLOAD and CMD, on machines with the same parameters, end with the same STATUS,
OUTLEN and OUT[0 .. OUTLEN-1], whatever else the two machines hold (41_commands.md R149). That a decode ends in the two
steps START and the decoder's move is the model's choice (log 1), and so is that they come as this one list of inputs
(log 2): a run with host reads while BUSY is left out here. -/
def Obligations.DecodeDeterministic : Prop :=
  ∀ s₁ s₂ : State, ¬ Busy s₁ → ¬ Busy s₂ → s₁.parameters = s₂.parameters →
    s₁.payload = s₂.payload → s₁.cmd = s₂.cmd → ∃ t₁ t₂, TwoSteps { s₁ with inputs := startThenDecode } t₁ ∧
      TwoSteps { s₂ with inputs := startThenDecode } t₂ ∧ t₁.status.state ≠ .busy ∧ t₁.status = t₂.status ∧
      t₁.outlen = t₂.outlen ∧ ∀ k : Fin 256, k.val < t₁.outlen.toNat → t₁.out[k] = t₂.out[k]

/-- A BUSY machine with no host access to come completes: its next step ends DONE or FAULT. That one step is enough is
the model's choice (log 1); the spec says only that the number is finite. -/
def Obligations.BusyDecodeCompletes : Prop :=
  ∀ s : State, Inv s → Busy s → s.inputs = [] →
    ∃ t, step s = .next t ∧ (t.status.state = .done ∨ t.status.state = .fault) ∧ SameHostSide s t

/-- A step of one instance is a step of that instance alone and leaves every other as it was (60_exceptions.md R251,
10_state.md R38). A host access to instance k at an address of its window gives k the transaction at that window
offset, after the inputs already there, and changes nothing else of k and nothing of any other instance. That an access
names its instance is the model's choice (log 17: the spec does not say whether windows overlap), and so is that it
comes as an input (log 2). -/
def Obligations.InstancesIndependent : Prop :=
  ∀ (k : Fin Config.nInstances) (p q : Platform),
    (Platform.step k p = .next q → Machine.step p[k] = .next q[k] ∧ ∀ j, j ≠ k → q[j] = p[j]) ∧
    ∀ (addr : Nat) (wr wide : Bool) (data : Word), Platform.access k addr wr wide data p = some q →
      Config.windowBase k ≤ addr ∧ addr < Config.windowBase k + 0x200 ∧
      q[k] = { p[k] with
        inputs := p[k].inputs ++
          [.transaction (htWord (BitVec.ofNat 9 (addr - Config.windowBase k)) wr wide data)] } ∧
      ∀ j, j ≠ k → q[j] = p[j]

/-- A_RIGHT_INHERIT and the mode codes have their defaults in State.reset, and no instruction and no step, a reset
included, changes them. That the parameters stand in State is the model's choice (log 12). -/
def Obligations.ParametersKept : Prop :=
  (State.reset.parameters.rightInherit = .chain ∧
    Command.all.map (fun c => (c.path, c.mode State.reset.parameters.codes, c.ext)) =
      [(false, 4, false), (false, 3, false), (false, 2, false), (true, 0, false), (true, 1, false), (true, 2, false),
       (true, 3, false), (true, 4, false), (true, 1, true), (true, 4, true)]) ∧
  (∀ (i : Instr) (s t : State), exec i s = .next t → t.parameters = s.parameters) ∧
  ∀ s t : State, step s = .next t → t.parameters = s.parameters
end

