-- ==== Sys2Proof/Laws/Encoding.lean ====
section
/-!
SUPPORT. Laws of the two formats: a transaction word and a command word as their own fields, decoding a word built from
fields, and codes as bytes.
-/

namespace Sys2Proof

/-- Bit k of a transaction word, field by field (30_encoding.md R75). -/
theorem htWord_getLsbD (addr : BitVec 9) (wr wide : Bool) (data : Word) (k : Nat) :
    (htWord addr wr wide data).getLsbD k =
      if k < 9 then addr.getLsbD k
      else if k = 9 then wr
      else if k = 10 then wide
      else if k < 16 then false
      else if k < 48 then data.getLsbD (k - 16)
      else false := by
  by_cases hk : k < 64
  · simp only [htWord, BitVec.getLsbD_append]
    interval_cases k <;> simp
  · rw [BitVec.getLsbD_of_ge _ _ (by omega)]
    simp [show ¬ k < 9 by omega, show ¬ k = 9 by omega, show ¬ k = 10 by omega, show ¬ k < 16 by omega,
      show ¬ k < 48 by omega]

@[simp] theorem htAddr_htWord (addr : BitVec 9) (wr wide : Bool) (data : Word) :
    htAddr (htWord addr wr wide data) = addr := by
  apply BitVec.eq_of_getLsbD_eq
  intro k hk
  simp only [htAddr, BitVec.getLsbD_extractLsb', htWord_getLsbD]
  simp [hk]

@[simp] theorem htWr_htWord (addr : BitVec 9) (wr wide : Bool) (data : Word) :
    htWr (htWord addr wr wide data) = wr := by
  rw [htWr, htWord_getLsbD]
  rfl

@[simp] theorem htWide_htWord (addr : BitVec 9) (wr wide : Bool) (data : Word) :
    htWide (htWord addr wr wide data) = wide := by
  rw [htWide, htWord_getLsbD]
  rfl

@[simp] theorem htData_htWord (addr : BitVec 9) (wr wide : Bool) (data : Word) :
    htData (htWord addr wr wide data) = data := by
  apply BitVec.eq_of_getLsbD_eq
  intro k hk
  simp only [htData, BitVec.getLsbD_extractLsb', htWord_getLsbD]
  rw [if_neg (by omega), if_neg (by omega), if_neg (by omega), if_neg (by omega), if_pos (by omega)]
  simp [hk]

@[simp] theorem htLowZeros_htWord (addr : BitVec 9) (wr wide : Bool) (data : Word) :
    htLowZeros (htWord addr wr wide data) = 0 := by
  apply BitVec.eq_of_getLsbD_eq
  intro k hk
  simp only [htLowZeros, BitVec.getLsbD_extractLsb', htWord_getLsbD]
  rw [if_neg (by omega), if_neg (by omega), if_neg (by omega), if_pos (by omega)]
  simp

@[simp] theorem htHighZeros_htWord (addr : BitVec 9) (wr wide : Bool) (data : Word) :
    htHighZeros (htWord addr wr wide data) = 0 := by
  apply BitVec.eq_of_getLsbD_eq
  intro k hk
  simp only [htHighZeros, BitVec.getLsbD_extractLsb', htWord_getLsbD]
  rw [if_neg (by omega), if_neg (by omega), if_neg (by omega), if_neg (by omega), if_neg (by omega)]
  simp

/-- The shape of a word built from fields: DATA 0 for a read, at most 8 bits for a byte write. -/
theorem htShape_htWord (addr : BitVec 9) (wr wide : Bool) (data : Word) :
    htShape (htWord addr wr wide data) = true ↔
      (wr = false → data = 0) ∧ (wr = true → wide = false → data.extractLsb' 8 24 = 0) := by
  cases wr <;> cases wide <;> simp [htShape]

/-- A word built from the fields of a defined access decodes as that access. -/
theorem decodeHt_htWord (addr : BitVec 9) (wr wide : Bool) (data : Word) (h0 : wr = false → data = 0)
    (h1 : wr = true → wide = false → data.extractLsb' 8 24 = 0) :
    decodeHt (htWord addr wr wide data) = decodeAccess addr wr wide data := by
  simp [decodeHt, (htShape_htWord addr wr wide data).2 ⟨h0, h1⟩]

/-- The upper bits of a byte written are zero. -/
theorem extractLsb'_of_lt {data : Word} (h : data.toNat < 256) : data.extractLsb' 8 24 = 0 := by
  apply BitVec.eq_of_toNat_eq
  simp [BitVec.extractLsb'_toNat, Nat.shiftRight_eq_div_pow]
  omega

/-- A word whose zero fields are zero is the word of its fields. -/
theorem htWord_fields {w : HtWord} (hl : htLowZeros w = 0) (hh : htHighZeros w = 0) :
    htWord (htAddr w) (htWr w) (htWide w) (htData w) = w := by
  apply BitVec.eq_of_getLsbD_eq
  intro k hk
  rw [htWord_getLsbD]
  have h1 : ∀ j < 5, w.getLsbD (11 + j) = false := fun j hj => by
    have := congrArg (fun v => v.getLsbD j) hl
    simpa [htLowZeros, hj] using this
  have h2 : ∀ j < 16, w.getLsbD (48 + j) = false := fun j hj => by
    have := congrArg (fun v => v.getLsbD j) hh
    simpa [htHighZeros, hj] using this
  split
  · rename_i h
    rw [htAddr, BitVec.getLsbD_extractLsb']
    simp [h]
  split
  · rename_i h
    rw [h, htWr]
  split
  · rename_i h
    rw [h, htWide]
  split
  · have := h1 (k - 11) (by omega)
    rw [show 11 + (k - 11) = k by omega] at this
    exact this.symm
  split
  · rw [htData, BitVec.getLsbD_extractLsb', show 16 + (k - 16) = k by omega]
    simp
    omega
  · have := h2 (k - 48) (by omega)
    rw [show 48 + (k - 48) = k by omega] at this
    exact this.symm

/-- A word decodes only as the access of its fields. -/
theorem decodeHt_eq_ok {w : HtWord} {i : Instr} (h : decodeHt w = .ok i) :
    htShape w = true ∧ decodeAccess (htAddr w) (htWr w) (htWide w) (htData w) = .ok i := by
  unfold decodeHt at h
  split at h
  · exact ⟨‹_›, h⟩
  · cases h

/-! ### Command words -/

/-- A command word is its four fields. -/
theorem commandWord_fields (w : Word) :
    w = cmdRsvd w ++ BitVec.ofBool (cmdExt w) ++ BitVec.ofBool (cmdPath w) ++ cmdMode w := by
  apply BitVec.eq_of_getLsbD_eq
  intro k hk
  simp only [cmdRsvd, cmdExt, cmdPath, cmdMode, BitVec.getLsbD_append, BitVec.getLsbD_extractLsb',
    BitVec.getLsbD_ofBool]
  by_cases h1 : k < 8
  · simp [h1]
  by_cases h2 : k = 8
  · subst h2
    simp
  by_cases h3 : k = 9
  · subst h3
    simp
  simp [h1, show ¬ k - 8 < 1 by omega, show ¬ k - 8 - 1 < 1 by omega, show k - 8 - 1 - 1 < 22 by omega,
    show 10 + (k - 8 - 1 - 1) = k by omega]

/-- Bit k of a command's word, field by field (30_encoding.md R70). -/
theorem encodeCommand_getLsbD (codes : Config.ModeCodes) (c : Command) (k : Nat) :
    (encodeCommand codes c).getLsbD k =
      if k < 8 then (c.mode codes).getLsbD k else if k = 8 then c.path else if k = 9 then c.ext else false := by
  by_cases hk : k < 32
  · simp only [encodeCommand, BitVec.getLsbD_append]
    interval_cases k <;> simp
  · rw [BitVec.getLsbD_of_ge _ _ (by omega), if_neg (by omega), if_neg (by omega), if_neg (by omega)]

@[simp] theorem cmdMode_encodeCommand (codes : Config.ModeCodes) (c : Command) :
    cmdMode (encodeCommand codes c) = c.mode codes := by
  apply BitVec.eq_of_getLsbD_eq
  intro k hk
  rw [cmdMode, BitVec.getLsbD_extractLsb', encodeCommand_getLsbD]
  simp [hk]

@[simp] theorem cmdPath_encodeCommand (codes : Config.ModeCodes) (c : Command) :
    cmdPath (encodeCommand codes c) = c.path := by
  rw [cmdPath, encodeCommand_getLsbD]
  rfl

@[simp] theorem cmdExt_encodeCommand (codes : Config.ModeCodes) (c : Command) :
    cmdExt (encodeCommand codes c) = c.ext := by
  rw [cmdExt, encodeCommand_getLsbD]
  rfl

@[simp] theorem cmdRsvd_encodeCommand (codes : Config.ModeCodes) (c : Command) :
    cmdRsvd (encodeCommand codes c) = 0 := by
  apply BitVec.eq_of_getLsbD_eq
  intro k hk
  rw [cmdRsvd, BitVec.getLsbD_extractLsb', encodeCommand_getLsbD, if_neg (by omega), if_neg (by omega),
    if_neg (by omega)]
  simp

/-- The row of the mode table names its own PATH and MODE, with EXT 0. -/
theorem modeTable_some {codes : Config.ModeCodes} {path : Bool} {mode : Byte} {c : Command}
    (h : modeTable codes path mode = some c) : c.path = path ∧ c.mode codes = mode ∧ c.ext = false := by
  unfold modeTable at h
  repeat' split at h
  all_goals cases h
  all_goals simp_all [Command.path, Command.mode, Command.ext]

/-- Every command without EXT is the row of its own PATH and MODE: the codes of one PATH are distinct. -/
theorem modeTable_of_command (codes : Config.ModeCodes) (c : Command) (h : c.ext = false) :
    modeTable codes c.path (c.mode codes) = some c := by
  obtain ⟨_, _, _, _, _, _, _, _, ha, hb⟩ := codes
  simp only [List.nodup_cons, List.mem_cons, not_or] at ha hb
  cases c <;> simp_all [modeTable, Command.path, Command.mode, Command.ext, eq_comm]

/-- A command with EXT is the extension of the command without it. -/
theorem exists_withExtension {c : Command} (h : c.ext = true) :
    ∃ b : Command, b.ext = false ∧ withExtension b = some c := by
  cases c with
  | b11s0x => exact ⟨.b11s0, rfl, rfl⟩
  | b11s3x => exact ⟨.b11s3, rfl, rfl⟩
  | a4 | a3 | a2 | b8 | b11s0 | b11s1 | b11s2 | b11s3 => cases h

/-- The extended command has the same PATH and MODE, with EXT 1. -/
theorem withExtension_some {c x : Command} (h : withExtension c = some x) (codes : Config.ModeCodes) :
    x.path = c.path ∧ x.mode codes = c.mode codes ∧ x.ext = true := by
  cases c <;> cases h <;> exact ⟨rfl, rfl, rfl⟩

/-- A command word that selects a command is that command's word. -/
theorem encodeCommand_of_decode {codes : Config.ModeCodes} {w : Word} {c : Command}
    (h : decodeCommand codes w = .ok c) : encodeCommand codes c = w := by
  unfold decodeCommand at h
  split at h
  · cases h
  rename_i h0
  split at h
  · cases h
  rename_i c0 hc
  obtain ⟨h1, h2, h3⟩ := modeTable_some hc
  have h0 : cmdRsvd w = 0 := not_not.1 h0
  rw [encodeCommand, commandWord_fields w, h0]
  split at h
  · rename_i he
    split at h <;> cases h
    rename_i x hx
    obtain ⟨g1, g2, g3⟩ := withExtension_some hx codes
    rw [g1, g2, g3, h1, h2, he]
  · rename_i he
    cases h
    have he : cmdExt w = false := by simpa using he
    rw [h1, h2, h3, he]

/-- A command's word selects that command. -/
theorem decodeCommand_encodeCommand (codes : Config.ModeCodes) (c : Command) :
    decodeCommand codes (encodeCommand codes c) = .ok c := by
  cases he : c.ext with
  | false => simp [decodeCommand, modeTable_of_command codes c he, he]
  | true =>
    obtain ⟨b, hb, hx⟩ := exists_withExtension he
    obtain ⟨h1, h2, -⟩ := withExtension_some hx codes
    simp [decodeCommand, h1, h2, modeTable_of_command codes b hb, hx, he]

/-! ### Bytes -/

theorem bytesOf_length (n w : Nat) : (bytesOf n w).length = n := by
  induction n generalizing w with
  | zero => rfl
  | succ n ih => simp [bytesOf, ih]

/-- The number whose little-endian bytes are the low n bytes of w. -/
theorem littleEndian_bytesOf (n w : Nat) : littleEndian (bytesOf n w) = w % 256 ^ n := by
  induction n generalizing w with
  | zero => simp [bytesOf, littleEndian, Nat.mod_one]
  | succ n ih =>
    simp only [bytesOf, littleEndian, ih]
    rw [BitVec.toNat_ofNat, show 2 ^ 8 = 256 from rfl, Nat.pow_succ', Nat.mod_mul]

/-- A code is what its bytes hold. -/
theorem codeOfBytes_bytes (c : Code) : codeOfBytes c.bytes = .ok c := by
  cases c with
  | cmd32 w =>
    simp only [codeOfBytes, Code.bytes, bytesOf_length, if_true, littleEndian_bytesOf]
    congr 2
    apply BitVec.eq_of_toNat_eq
    have := w.isLt
    rw [BitVec.toNat_ofNat]
    omega
  | ht w =>
    simp only [codeOfBytes, Code.bytes, bytesOf_length, littleEndian_bytesOf]
    rw [if_neg (by omega), if_pos trivial]
    congr 2
    apply BitVec.eq_of_toNat_eq
    have := w.isLt
    rw [BitVec.toNat_ofNat]
    omega

theorem decodeBytes_bytes (codes : Config.ModeCodes) (c : Code) : decodeBytes codes c.bytes = decodeCode codes c := by
  simp [decodeBytes, codeOfBytes_bytes]

end Sys2Proof
end

