-- ==== Sys2Proof/Laws/Micro.lean ====
section
/-!
SUPPORT. How micro-operations run, and the one fact most of them share: they only move the cursor (`CursorOnly`), so
they depend on no other internal register and change none.
-/

namespace Sys2Proof.Machine

variable {α β : Type}

/-! ### Running -/

@[simp] theorem micro_pure (a : α) (d : Datapath) : (pure a : Micro α) d = .ok a d := rfl

@[simp] theorem micro_throw (e : Detail) (d : Datapath) : (throw e : Micro α) d = .error e d := rfl

@[simp] theorem micro_get (d : Datapath) : (get : Micro Datapath) d = .ok d d := rfl

@[simp] theorem micro_modify (f : Datapath → Datapath) (d : Datapath) : (modify f : Micro Unit) d = .ok () (f d) := rfl

theorem micro_bind (m : Micro α) (f : α → Micro β) (d : Datapath) :
    (m >>= f) d =
      match m d with
      | .ok a d' => f a d'
      | .error e d' => .error e d' := by
  show EStateM.bind m f d = _
  unfold EStateM.bind
  cases m d <;> rfl

theorem micro_bind_ok {m : Micro α} {f : α → Micro β} {d d' : Datapath} {a : α} (h : m d = .ok a d') :
    (m >>= f) d = f a d' := by rw [micro_bind, h]

theorem micro_bind_error {m : Micro α} {f : α → Micro β} {d d' : Datapath} {e : Detail} (h : m d = .error e d') :
    (m >>= f) d = .error e d' := by rw [micro_bind, h]

/-- A bind that answers a value: both of its parts did. -/
theorem micro_bind_eq_ok {m : Micro α} {f : α → Micro β} {d d'' : Datapath} {b : β} :
    (m >>= f) d = .ok b d'' ↔ ∃ a d', m d = .ok a d' ∧ f a d' = .ok b d'' := by
  rw [micro_bind]
  cases m d <;> simp

/-- A bind that faults: its first part did, or its second after the first answered. -/
theorem micro_bind_eq_error {m : Micro α} {f : α → Micro β} {d d'' : Datapath} {e : Detail} :
    (m >>= f) d = .error e d'' ↔
      m d = .error e d'' ∨ ∃ a d', m d = .ok a d' ∧ f a d' = .error e d'' := by
  rw [micro_bind]
  cases m d <;> simp

/-! ### Micro-operations that only move the cursor -/

/-- The micro-operation that works on the cursor alone. -/
def onCursor (g : Fin 513 → EStateM.Result Detail (Fin 513) α) : Micro α := fun d =>
  match g d.cur with
  | .ok a c => .ok a { d with cur := c }
  | .error e c => .error e { d with cur := c }

/-- m reads and writes no internal register but the cursor. -/
def CursorOnly (m : Micro α) : Prop := ∃ g, m = onCursor g

theorem cursorOnly_pure (a : α) : CursorOnly (pure a : Micro α) := ⟨fun c => .ok a c, rfl⟩

theorem cursorOnly_throw (e : Detail) : CursorOnly (throw e : Micro α) := ⟨fun c => .error e c, rfl⟩

theorem cursorOnly_bind {m : Micro α} {f : α → Micro β} (hm : CursorOnly m) (hf : ∀ a, CursorOnly (f a)) :
    CursorOnly (m >>= f) := by
  obtain ⟨g, rfl⟩ := hm
  choose k hk using hf
  refine ⟨fun c => match g c with
    | .ok a c' => k a c'
    | .error e c' => .error e c', ?_⟩
  funext d
  rw [micro_bind]
  unfold onCursor
  cases hg : g d.cur with
  | ok a c => simp only [hk, onCursor, hg]
  | error e c => simp only [hg]

theorem cursorOnly_ite {p : Prop} [Decidable p] {m n : Micro α} (hm : CursorOnly m) (hn : CursorOnly n) :
    CursorOnly (if p then m else n) := by
  split <;> assumption

/-- A cursor-only operation that answers a value changed nothing but the cursor. -/
theorem CursorOnly.frame_ok {m : Micro α} (hm : CursorOnly m) {d d' : Datapath} {a : α} (h : m d = .ok a d') :
    d' = { d with cur := d'.cur } := by
  obtain ⟨g, rfl⟩ := hm
  unfold onCursor at h
  cases hg : g d.cur with
  | ok b c => rw [hg] at h; cases h; rfl
  | error e c => rw [hg] at h; cases h

/-- A cursor-only operation that faults changed nothing but the cursor. -/
theorem CursorOnly.frame_error {m : Micro α} (hm : CursorOnly m) {d d' : Datapath} {e : Detail}
    (h : m d = .error e d') : d' = { d with cur := d'.cur } := by
  obtain ⟨g, rfl⟩ := hm
  unfold onCursor at h
  cases hg : g d.cur with
  | ok b c => rw [hg] at h; cases h
  | error e c => rw [hg] at h; cases h; rfl

/-- A cursor-only operation answers the same from the same cursor, whatever the other registers hold. -/
theorem CursorOnly.same_ok {m : Micro α} (hm : CursorOnly m) {d d' e : Datapath} {a : α} (h : m d = .ok a d')
    (hc : e.cur = d.cur) : m e = .ok a { e with cur := d'.cur } := by
  obtain ⟨g, rfl⟩ := hm
  unfold onCursor at h ⊢
  rw [hc]
  cases hg : g d.cur with
  | ok b c => rw [hg] at h; cases h; rfl
  | error e c => rw [hg] at h; cases h

/-- A cursor-only operation faults the same from the same cursor. -/
theorem CursorOnly.same_error {m : Micro α} (hm : CursorOnly m) {d d' e : Datapath} {x : Detail}
    (h : m d = .error x d') (hc : e.cur = d.cur) : m e = .error x { e with cur := d'.cur } := by
  obtain ⟨g, rfl⟩ := hm
  unfold onCursor at h ⊢
  rw [hc]
  cases hg : g d.cur with
  | ok b c => rw [hg] at h; cases h
  | error e c => rw [hg] at h; cases h; rfl

/-! ### Which faults a micro-operation can raise -/

/-- Every fault m raises has a detail of p. -/
def RaisesOnly (p : Detail → Prop) (m : Micro α) : Prop := ∀ d e d', m d = .error e d' → p e

theorem raisesOnly_pure (p : Detail → Prop) (a : α) : RaisesOnly p (pure a : Micro α) := by
  intro d e d' h
  cases h

theorem raisesOnly_throw {p : Detail → Prop} {e : Detail} (h : p e) : RaisesOnly p (throw e : Micro α) := by
  intro d e' d' h'
  cases h'
  exact h

theorem raisesOnly_get (p : Detail → Prop) : RaisesOnly p (get : Micro Datapath) := by
  intro d e d' h
  cases h

theorem raisesOnly_modify (p : Detail → Prop) (f : Datapath → Datapath) :
    RaisesOnly p (modify f : Micro Unit) := by
  intro d e d' h
  cases h

theorem raisesOnly_bind {p : Detail → Prop} {m : Micro α} {f : α → Micro β} (hm : RaisesOnly p m)
    (hf : ∀ a, RaisesOnly p (f a)) : RaisesOnly p (m >>= f) := by
  intro d e d' h
  rcases micro_bind_eq_error.1 h with h | ⟨a, d₁, -, h⟩
  · exact hm _ _ _ h
  · exact hf a _ _ _ h

theorem raisesOnly_ite {p : Detail → Prop} {q : Prop} [Decidable q] {m n : Micro α} (hm : RaisesOnly p m)
    (hn : RaisesOnly p n) : RaisesOnly p (if q then m else n) := by
  split <;> assumption

theorem raisesOnly_mono {p q : Detail → Prop} {m : Micro α} (hm : RaisesOnly p m) (h : ∀ e, p e → q e) :
    RaisesOnly q m := fun d e d' he => h e (hm d e d' he)

/-! ### The reader -/

/-- Everything ReadBits can do. -/
theorem readBits_eq (pl : Payload) (n : Nat) (d : Datapath) :
    readBits pl n d =
      if h : d.cur.val + n ≤ 512 then .ok (bitsAt pl d.cur.val n) { d with cur := ⟨d.cur.val + n, by omega⟩ }
      else .error .readPastEnd d := rfl

theorem readBits_ok (pl : Payload) (n : Nat) (d : Datapath) (h : d.cur.val + n ≤ 512) :
    readBits pl n d = .ok (bitsAt pl d.cur.val n) { d with cur := ⟨d.cur.val + n, by omega⟩ } := by
  simp [readBits_eq, h]

theorem readBits_past (pl : Payload) (n : Nat) (d : Datapath) (h : ¬ d.cur.val + n ≤ 512) :
    readBits pl n d = .error .readPastEnd d := by simp [readBits_eq, h]

theorem cursorOnly_readBits (pl : Payload) (n : Nat) : CursorOnly (readBits pl n) := by
  refine ⟨fun c => if h : c.val + n ≤ 512 then .ok (bitsAt pl c.val n) ⟨c.val + n, by omega⟩
    else .error .readPastEnd c, ?_⟩
  funext d
  unfold onCursor
  rw [readBits_eq]
  by_cases h : d.cur.val + n ≤ 512 <;> simp [h]

theorem raisesOnly_readBits {p : Detail → Prop} (h : p .readPastEnd) (pl : Payload) (n : Nat) :
    RaisesOnly p (readBits pl n) := by
  intro d e d' he
  rw [readBits_eq] at he
  split at he
  · cases he
  · cases he
    exact h

theorem bitByte_getLsbD (b : Bool) (k : Nat) : (bitByte b).getLsbD k = (b && decide (k = 0)) := by
  cases b <;> cases k <;> simp [bitByte]

/-- Bit k of an n-bit field is payload bit p + k. -/
theorem bitsAt_getLsbD (pl : Payload) (p n k : Nat) (hn : n ≤ 8) :
    (bitsAt pl p n).getLsbD k = (decide (k < n) && payloadBit pl (p + k)) := by
  induction n with
  | zero => simp [bitsAt]
  | succ n ih =>
    rw [bitsAt, BitVec.getLsbD_or, ih (by omega), BitVec.getLsbD_shiftLeft, bitByte_getLsbD]
    rcases lt_trichotomy k n with h | h | h
    · simp [h, Nat.lt_succ_of_lt h]
    · subst h
      simp [show k < 8 by omega]
    · simp [show ¬ k < n by omega, show ¬ k < n + 1 by omega, show ¬ k - n = 0 by omega]

/-- An n-bit field is below 2^n. -/
theorem bitsAt_lt (pl : Payload) (p n : Nat) (hn : n ≤ 8) : (bitsAt pl p n).toNat < 2 ^ n := by
  apply Nat.lt_of_testBit n
  · show (bitsAt pl p n).getLsbD n = false
    rw [bitsAt_getLsbD pl p n n hn]
    simp
  · simp
  · intro j hj
    have h1 : (bitsAt pl p n).toNat.testBit j = (bitsAt pl p n).getLsbD j := rfl
    rw [h1, bitsAt_getLsbD pl p n j hn, Nat.testBit_two_pow_of_ne (by omega)]
    simp [show ¬ j < n by omega]

theorem readFlag_ok (pl : Payload) (d : Datapath) (h : d.cur.val < 512) :
    readFlag pl d = .ok (payloadBit pl d.cur.val) { d with cur := ⟨d.cur.val + 1, by omega⟩ } := by
  unfold readFlag
  rw [micro_bind_ok (readBits_ok pl 1 d (by omega)), micro_pure, bitsAt_getLsbD _ _ _ _ (by omega)]
  simp

theorem readFlag_past (pl : Payload) (d : Datapath) (h : ¬ d.cur.val < 512) :
    readFlag pl d = .error .readPastEnd d := by
  unfold readFlag
  exact micro_bind_error (readBits_past pl 1 d (by omega))

theorem readWidth_ok (pl : Payload) (d : Datapath) (h : d.cur.val + 3 ≤ 512) :
    readWidth pl d =
      .ok ⟨(bitsAt pl d.cur.val 3).toNat, bitsAt_lt pl _ 3 (by omega)⟩ { d with cur := ⟨d.cur.val + 3, by omega⟩ } := by
  unfold readWidth
  rw [micro_bind_ok (readBits_ok pl 3 d h), micro_pure]
  congr 1
  apply Fin.ext
  simpa using Nat.mod_eq_of_lt (bitsAt_lt pl d.cur.val 3 (by omega))

theorem cursorOnly_readFlag (pl : Payload) : CursorOnly (readFlag pl) :=
  cursorOnly_bind (cursorOnly_readBits pl 1) fun _ => cursorOnly_pure _

theorem cursorOnly_readWidth (pl : Payload) : CursorOnly (readWidth pl) :=
  cursorOnly_bind (cursorOnly_readBits pl 3) fun _ => cursorOnly_pure _

theorem cursorOnly_expectZeroLoop (pl : Payload) (fuel r : Nat) : CursorOnly (expectZeroLoop pl fuel r) := by
  induction fuel generalizing r with
  | zero => exact cursorOnly_pure ()
  | succ fuel ih =>
    refine cursorOnly_ite (cursorOnly_pure ()) (cursorOnly_bind (cursorOnly_readBits pl _) fun v => ?_)
    exact cursorOnly_ite (ih _) (cursorOnly_throw _)

theorem cursorOnly_expectZeroBits (pl : Payload) (n : Nat) : CursorOnly (expectZeroBits pl n) :=
  cursorOnly_expectZeroLoop pl n n

theorem cursorOnly_repeatMicro {m : Micro α} (hm : CursorOnly m) (n : Nat) : CursorOnly (repeatMicro m n) := by
  induction n with
  | zero => exact cursorOnly_pure _
  | succ n ih => exact cursorOnly_bind hm fun _ => cursorOnly_bind ih fun _ => cursorOnly_pure _

/-- n repetitions answer n values. -/
theorem repeatMicro_length {m : Micro α} {n : Nat} {d d' : Datapath} {xs : List α}
    (h : repeatMicro m n d = .ok xs d') : xs.length = n := by
  induction n generalizing d d' xs with
  | zero => cases h; rfl
  | succ n ih =>
    obtain ⟨x, d₁, -, h⟩ := micro_bind_eq_ok.1 h
    obtain ⟨ys, d₂, hys, h⟩ := micro_bind_eq_ok.1 h
    cases h
    simp [ih hys]

theorem raisesOnly_repeatMicro {p : Detail → Prop} {m : Micro α} (hm : RaisesOnly p m) (n : Nat) :
    RaisesOnly p (repeatMicro m n) := by
  induction n with
  | zero => exact raisesOnly_pure p _
  | succ n ih => exact raisesOnly_bind hm fun _ => raisesOnly_bind ih fun _ => raisesOnly_pure p _

theorem cursorOnly_forChannels {f : Channel → Micro α} (hf : ∀ ch, CursorOnly (f ch)) : CursorOnly (forChannels f) :=
  cursorOnly_bind (hf _) fun _ => cursorOnly_bind (hf _) fun _ => cursorOnly_bind (hf _) fun _ =>
    cursorOnly_bind (hf _) fun _ => cursorOnly_pure _

theorem cursorOnly_forSides {f : Side → Micro α} (hf : ∀ x, CursorOnly (f x)) : CursorOnly (forSides f) :=
  cursorOnly_bind (hf _) fun _ => cursorOnly_bind (hf _) fun _ => cursorOnly_pure _

theorem cursorOnly_forComponents {f : Component → Micro α} (hf : ∀ c, CursorOnly (f c)) :
    CursorOnly (forComponents f) :=
  cursorOnly_bind (hf _) fun _ => cursorOnly_bind (hf _) fun _ => cursorOnly_bind (hf _) fun _ =>
    cursorOnly_bind (hf _) fun _ => cursorOnly_pure _

theorem cursorOnly_forOrder {f : Component → Micro α} (pred : Bool) (hf : ∀ c, CursorOnly (f c)) :
    CursorOnly (forOrder pred f) :=
  cursorOnly_ite (cursorOnly_bind (hf _) fun _ => cursorOnly_bind (hf _) fun _ => cursorOnly_bind (hf _) fun _ =>
    cursorOnly_bind (hf _) fun _ => cursorOnly_pure _) (cursorOnly_forComponents hf)

/-! ### Delta groups and sides -/

theorem cursorOnly_readFour (pl : Payload) : CursorOnly (readFour pl) :=
  cursorOnly_bind (cursorOnly_readFlag pl) fun _ => cursorOnly_bind (cursorOnly_readFlag pl) fun _ =>
    cursorOnly_bind (cursorOnly_readFlag pl) fun _ => cursorOnly_bind (cursorOnly_readFlag pl) fun _ =>
      cursorOnly_pure _

theorem cursorOnly_readPlanes (pl : Payload) (n k : Nat) (d : Vector Byte 4) : CursorOnly (readPlanes pl n k d) := by
  induction n generalizing k d with
  | zero => exact cursorOnly_pure _
  | succ n ih => exact cursorOnly_bind (cursorOnly_readFour pl) fun _ => ih _ _

theorem cursorOnly_readGroup (pl : Payload) (w : Fin 8) : CursorOnly (readGroup pl w) :=
  cursorOnly_bind (cursorOnly_readFour pl) fun _ => cursorOnly_bind (cursorOnly_readPlanes pl _ _ _) fun _ =>
    cursorOnly_pure _

theorem cursorOnly_chainSide (pl : Payload) (w : Fin 8) (seed : Group → Byte) : CursorOnly (chainSide pl w seed) :=
  cursorOnly_bind (cursorOnly_readGroup pl w) fun _ => cursorOnly_bind (cursorOnly_readGroup pl w) fun _ =>
    cursorOnly_pure _

theorem cursorOnly_reconstructSide (inherit : Config.RightInherit) (pl : Payload) (p : Plan) (v : Byte) :
    CursorOnly (reconstructSide inherit pl p v) := by
  unfold reconstructSide
  cases p.kind with
  | flat => exact cursorOnly_pure _
  | flatInh => exact cursorOnly_pure _
  | hseed => exact cursorOnly_chainSide pl _ _
  | smseed => exact cursorOnly_chainSide pl _ _
  | chain => exact cursorOnly_chainSide pl _ _

theorem cursorOnly_reconstructChannel (inherit : Config.RightInherit) (pl : Payload) (plan : PerSide Plan)
    (old : Samples) : CursorOnly (reconstructChannel inherit pl plan old) :=
  cursorOnly_bind (cursorOnly_reconstructSide inherit pl _ _) fun _ =>
    cursorOnly_bind (cursorOnly_reconstructSide inherit pl _ _) fun _ => cursorOnly_pure _

theorem cursorOnly_tzcnt8 (b : Byte) : CursorOnly (tzcnt8 b) := cursorOnly_ite (cursorOnly_throw _) (cursorOnly_pure _)

theorem cursorOnly_planPresent (cst : Bool) (b : Byte) : CursorOnly (planPresent cst b) := by
  unfold planPresent
  exact cursorOnly_ite (cursorOnly_pure _) (cursorOnly_bind (cursorOnly_tzcnt8 b) fun _ => cursorOnly_pure _)

theorem cursorOnly_planSide (pl : Payload) (hp cst : Bool) (p : Plan) : CursorOnly (planSide pl hp cst p) := by
  unfold planSide
  exact cursorOnly_ite (cursorOnly_bind (cursorOnly_readBits pl 8) fun _ => cursorOnly_planPresent _ _)
    (cursorOnly_pure _)

theorem cursorOnly_planChannel (pl : Payload) (hp cst : PerSide Bool) : CursorOnly (planChannel pl hp cst) :=
  cursorOnly_bind (cursorOnly_planSide pl _ _ _) fun _ => cursorOnly_bind (cursorOnly_planSide pl _ _ _) fun _ =>
    cursorOnly_pure _

theorem cursorOnly_stageRound (pl : Payload) : CursorOnly (stageRound pl) :=
  cursorOnly_forChannels fun _ => cursorOnly_forSides fun _ => cursorOnly_readFlag pl

/-! ### Vendor-B records -/

theorem cursorOnly_gen8Component (pl : Payload) (skip : Bool) (base : Byte) (w : Fin 8) :
    CursorOnly (gen8Component pl skip base w) := by
  unfold gen8Component
  exact cursorOnly_ite (cursorOnly_pure _) (cursorOnly_bind (cursorOnly_readBits pl _) fun _ => cursorOnly_pure _)

theorem cursorOnly_gen8Record (pl : Payload) (skip : Rgba Bool) (base : Rgba Byte) (wb : Rgba (Fin 8)) :
    CursorOnly (gen8Record pl skip base wb) :=
  cursorOnly_bind (cursorOnly_forComponents fun _ => cursorOnly_gen8Component pl _ _ _) fun _ =>
    cursorOnly_bind (cursorOnly_expectZeroBits pl _) fun _ => cursorOnly_pure _

theorem cursorOnly_gen11Record (pl : Payload) (mp : ModeParams) (base : Rgba Byte) (wb : Rgba (Fin 8)) :
    CursorOnly (gen11Record pl mp base wb) :=
  cursorOnly_bind (cursorOnly_forOrder _ fun _ => cursorOnly_readBits pl _) fun _ =>
    cursorOnly_bind (cursorOnly_expectZeroBits pl _) fun _ => cursorOnly_pure _

theorem cursorOnly_checkWidths (wb : Rgba (Fin 8)) (b : Nat) : CursorOnly (checkWidths wb b) :=
  cursorOnly_ite (cursorOnly_throw _) (cursorOnly_pure _)

theorem cursorOnly_gen8Width (pl : Payload) (skip : Bool) : CursorOnly (gen8Width pl skip) := by
  unfold gen8Width
  exact cursorOnly_ite (cursorOnly_pure _) (cursorOnly_readWidth pl)

theorem cursorOnly_subWindow {record : Micro Pixel} (hr : CursorOnly record) (u : Bool) :
    CursorOnly (subWindow record u) := by
  unfold subWindow
  exact cursorOnly_ite (cursorOnly_bind hr fun _ => cursorOnly_pure _) (cursorOnly_repeatMicro hr 4)

theorem cursorOnly_extensionWalk {record : Micro Pixel} (hr : CursorOnly record) (us : List Bool) :
    CursorOnly (extensionWalk record us) := by
  induction us with
  | nil => exact cursorOnly_pure _
  | cons u us ih =>
    exact cursorOnly_bind (cursorOnly_subWindow hr u) fun _ => cursorOnly_bind ih fun _ => cursorOnly_pure _

theorem cursorOnly_checkUniform (u : Vector Bool 8) : CursorOnly (checkUniform u) :=
  cursorOnly_ite (cursorOnly_pure _) (cursorOnly_throw _)

end Sys2Proof.Machine
end

