-- ==== Sys2Proof/Laws/State.lean ====
section
/-!
SUPPORT. One lemma per field and update of State, true by unfolding, so that no proof unfolds a record update; and
what hostWrite and step answer.
-/

namespace Sys2Proof.Machine

/-! ### Reset -/

section Reset

variable (p : Config.Parameters) (n : Nat) (is : List Input) (r : ReadData)

@[simp] theorem atReset_payload : (State.atReset p n is r).payload = Config.freePayload n := rfl
@[simp] theorem atReset_cmd : (State.atReset p n is r).cmd = 0 := rfl
@[simp] theorem atReset_status : (State.atReset p n is r).status = Status.atReset := rfl
@[simp] theorem atReset_outlen : (State.atReset p n is r).outlen = 0 := rfl
@[simp] theorem atReset_out : (State.atReset p n is r).out = Config.freeOut n := rfl
@[simp] theorem atReset_dp : (State.atReset p n is r).dp = Config.freeDatapath n := rfl
@[simp] theorem atReset_parameters : (State.atReset p n is r).parameters = p := rfl
@[simp] theorem atReset_inputs : (State.atReset p n is r).inputs = is := rfl
@[simp] theorem atReset_readData : (State.atReset p n is r).readData = r := rfl
@[simp] theorem atReset_draws : (State.atReset p n is r).draws = n + 1 := rfl

end Reset

@[simp] theorem resetMachine_parameters (s : State) : (resetMachine s).parameters = s.parameters := rfl

theorem resetMachine_eq (s : State) :
    resetMachine s = State.atReset s.parameters s.draws s.inputs s.readData := rfl

/-! ### Fault entry -/

@[simp] theorem raiseFault_payload (e : Detail) (s : State) : (raiseFault e s).payload = s.payload := rfl
@[simp] theorem raiseFault_cmd (e : Detail) (s : State) : (raiseFault e s).cmd = s.cmd := rfl
@[simp] theorem raiseFault_status (e : Detail) (s : State) :
    (raiseFault e s).status =
      { state := .fault, outValid := false, fault := e.kind, detail := e, warn := s.status.warn,
        pos := posOf s.dp.cur } := rfl
@[simp] theorem raiseFault_outlen (e : Detail) (s : State) : (raiseFault e s).outlen = 0 := rfl
@[simp] theorem raiseFault_out (e : Detail) (s : State) : (raiseFault e s).out = Config.freeOut s.draws := rfl
@[simp] theorem raiseFault_dp (e : Detail) (s : State) : (raiseFault e s).dp = Config.freeDatapath s.draws := rfl
@[simp] theorem raiseFault_parameters (e : Detail) (s : State) : (raiseFault e s).parameters = s.parameters := rfl
@[simp] theorem raiseFault_inputs (e : Detail) (s : State) : (raiseFault e s).inputs = s.inputs := rfl
@[simp] theorem raiseFault_readData (e : Detail) (s : State) : (raiseFault e s).readData = s.readData := rfl
@[simp] theorem raiseFault_draws (e : Detail) (s : State) : (raiseFault e s).draws = s.draws + 1 := rfl

/-! ### Completion -/

@[simp] theorem complete_payload (v : Variant) (px : List Pixel) (s : State) :
    (complete v px s).payload = s.payload := rfl
@[simp] theorem complete_cmd (v : Variant) (px : List Pixel) (s : State) : (complete v px s).cmd = s.cmd := rfl
@[simp] theorem complete_status (v : Variant) (px : List Pixel) (s : State) :
    (complete v px s).status =
      { state := .done, outValid := true, fault := .none, detail := .none, warn := s.status.warn,
        pos := posOf s.dp.cur } := rfl
@[simp] theorem complete_outlen (v : Variant) (px : List Pixel) (s : State) :
    (complete v px s).outlen = v.outlen := rfl
@[simp] theorem complete_out (v : Variant) (px : List Pixel) (s : State) :
    (complete v px s).out = storePixels px (Config.freeOut s.draws) := rfl
@[simp] theorem complete_dp (v : Variant) (px : List Pixel) (s : State) :
    (complete v px s).dp = Config.freeDatapath s.draws := rfl
@[simp] theorem complete_parameters (v : Variant) (px : List Pixel) (s : State) :
    (complete v px s).parameters = s.parameters := rfl
@[simp] theorem complete_inputs (v : Variant) (px : List Pixel) (s : State) :
    (complete v px s).inputs = s.inputs := rfl
@[simp] theorem complete_readData (v : Variant) (px : List Pixel) (s : State) :
    (complete v px s).readData = s.readData := rfl
@[simp] theorem complete_draws (v : Variant) (px : List Pixel) (s : State) :
    (complete v px s).draws = s.draws + 1 := rfl

/-! ### START -/

@[simp] theorem latchCommand_payload (s : State) : (latchCommand s).payload = s.payload := rfl
@[simp] theorem latchCommand_cmd (s : State) : (latchCommand s).cmd = s.cmd := rfl
@[simp] theorem latchCommand_status (s : State) :
    (latchCommand s).status =
      { state := .busy, outValid := false, fault := .none, detail := .none, warn := .none, pos := 0 } := rfl
@[simp] theorem latchCommand_outlen (s : State) : (latchCommand s).outlen = 0 := rfl
@[simp] theorem latchCommand_out (s : State) : (latchCommand s).out = Config.freeOut s.draws := rfl
@[simp] theorem latchCommand_dp (s : State) :
    (latchCommand s).dp = { s.dp with command := s.cmd, cur := 0, accBits := 0, accCnt := 0 } := rfl
@[simp] theorem latchCommand_parameters (s : State) : (latchCommand s).parameters = s.parameters := rfl
@[simp] theorem latchCommand_inputs (s : State) : (latchCommand s).inputs = s.inputs := rfl
@[simp] theorem latchCommand_readData (s : State) : (latchCommand s).readData = s.readData := rfl
@[simp] theorem latchCommand_draws (s : State) : (latchCommand s).draws = s.draws + 1 := rfl

@[simp] theorem latchMode_payload (mp : ModeParams) (s : State) : (latchMode mp s).payload = s.payload := rfl
@[simp] theorem latchMode_cmd (mp : ModeParams) (s : State) : (latchMode mp s).cmd = s.cmd := rfl
@[simp] theorem latchMode_status (mp : ModeParams) (s : State) :
    (latchMode mp s).status = { s.status with warn := mp.warning } := rfl
@[simp] theorem latchMode_outlen (mp : ModeParams) (s : State) : (latchMode mp s).outlen = s.outlen := rfl
@[simp] theorem latchMode_out (mp : ModeParams) (s : State) : (latchMode mp s).out = s.out := rfl
@[simp] theorem latchMode_dp (mp : ModeParams) (s : State) : (latchMode mp s).dp = { s.dp with mp := mp } := rfl
@[simp] theorem latchMode_parameters (mp : ModeParams) (s : State) : (latchMode mp s).parameters = s.parameters := rfl
@[simp] theorem latchMode_inputs (mp : ModeParams) (s : State) : (latchMode mp s).inputs = s.inputs := rfl
@[simp] theorem latchMode_readData (mp : ModeParams) (s : State) : (latchMode mp s).readData = s.readData := rfl
@[simp] theorem latchMode_draws (mp : ModeParams) (s : State) : (latchMode mp s).draws = s.draws := rfl

/-- Everything START can leave: the dispatched decode, or UnsupportedMode. -/
theorem startDecode_cases (s : State) :
    (∃ c, decodeCommand s.parameters.codes s.cmd = .ok c ∧
        startDecode s = latchMode c.params (latchCommand s)) ∨
      (∃ e, decodeCommand s.parameters.codes s.cmd = .error e ∧
        startDecode s = raiseFault (detailOfReject e) (latchCommand s)) := by
  unfold startDecode
  cases h : decodeCommand s.parameters.codes s.cmd with
  | ok c => exact .inl ⟨c, rfl, by simp [h]⟩
  | error e => exact .inr ⟨e, rfl, by simp [h]⟩

/-! ### Host writes -/

theorem hostWrite_eq_next {s t u : State} : hostWrite s t = .next u ↔ s.status.state ≠ .busy ∧ u = t := by
  unfold hostWrite
  split <;> simp_all [eq_comm]

theorem hostWrite_busy {s : State} (t : State) (h : s.status.state = .busy) :
    hostWrite s t = .refused .writeWhileBusy := by simp [hostWrite, h]

theorem hostWrite_notBusy {s : State} (t : State) (h : s.status.state ≠ .busy) : hostWrite s t = .next t := by
  simp [hostWrite, h]

/-! ### Decode commands -/

/-- Everything a decode command can leave: Complete, or a fault with a detail its body raised. -/
theorem runDecode_cases (c : Command) (body : Payload → ModeParams → Micro (List Pixel)) (s : State) :
    (∃ px d, body s.payload c.params { s.dp with mp := c.params } = .ok px d ∧
        runDecode c body s = complete c.params.variant px { s with dp := d }) ∨
      (∃ e d, body s.payload c.params { s.dp with mp := c.params } = .error e d ∧
        runDecode c body s = raiseFault e { s with dp := d }) := by
  unfold runDecode
  dsimp only
  cases h : body s.payload c.params { s.dp with mp := c.params } with
  | ok px d => exact .inl ⟨px, d, rfl, rfl⟩
  | error e d => exact .inr ⟨e, d, rfl, rfl⟩

/-- Every decode command is runDecode of its own row, under the machine's A_RIGHT_INHERIT. -/
theorem exec_ofCommand (c : Command) (s : State) :
    exec (.ofCommand c) s = .next (runDecode c (bodyOf s.parameters.rightInherit c) s) := by
  cases c <;> rfl

/-! ### Step -/

theorem step_of_fetch_run {s t : State} {i : Instr} (h : fetch s = .run i t) : step s = exec i t := by
  simp [step, h]

theorem step_of_fetch_move {s t : State} (h : fetch s = .move t) : step s = .next t := by simp [step, h]

theorem step_of_fetch_refuse {s : State} {r : Refusal} (h : fetch s = .refuse r) : step s = .refused r := by
  simp [step, h]

theorem fetch_transaction {s : State} {w : HtWord} {rest : List Input} {i : Instr}
    (hs : s.inputs = .transaction w :: rest) (hw : decodeHt w = .ok i) :
    fetch s = .run i { s with inputs := rest } := by
  simp [fetch, hs, hw]

theorem fetch_idle {s : State} (hs : s.inputs = []) : fetch s = decoderMove s := by simp [fetch, hs]

theorem decoderMove_busy {s : State} {c : Command} (hb : s.status.state = .busy)
    (hc : decodeCommand s.parameters.codes s.dp.command = .ok c) : decoderMove s = .run (.ofCommand c) s := by
  simp [decoderMove, hb, hc]

theorem decoderMove_notBusy {s : State} (hb : s.status.state ≠ .busy) : decoderMove s = .move s := by
  simp [decoderMove, hb]

/-- No host access and no reset is first among the inputs, and rest is what is left after the decoder's move. -/
def NoAccess (s : State) (rest : List Input) : Prop := s.inputs = .decoder :: rest ∨ s.inputs = [] ∧ rest = []

/-- Everything the fetch can do, by the first input. -/
theorem fetch_cases (s : State) :
    (∃ w rest i, s.inputs = .transaction w :: rest ∧ decodeHt w = .ok i ∧
      fetch s = .run i { s with inputs := rest }) ∨
    (∃ w rest e, s.inputs = .transaction w :: rest ∧ decodeHt w = .error e ∧
      fetch s = .refuse (.undefinedAccess e)) ∨
    (∃ rest, s.inputs = .reset :: rest ∧ fetch s = .move (resetMachine { s with inputs := rest })) ∨
    ∃ rest, NoAccess s rest ∧
      fetch s = decoderMove { s with inputs := rest } := by
  rcases h : s.inputs with _ | ⟨x, rest⟩
  · refine .inr (.inr (.inr ⟨[], .inr ⟨h, rfl⟩, ?_⟩))
    rw [fetch_idle h, ← h]
  cases x with
  | decoder => exact .inr (.inr (.inr ⟨rest, .inl h, by simp [fetch, h]⟩))
  | reset => exact .inr (.inr (.inl ⟨rest, rfl, by simp [fetch, h]⟩))
  | transaction w =>
    cases hd : decodeHt w with
    | error e => exact .inr (.inl ⟨w, rest, e, rfl, hd, by simp [fetch, h, hd]⟩)
    | ok i => exact .inl ⟨w, rest, i, rfl, hd, by simp [fetch, h, hd]⟩

/-- Everything the decoder's move can be. -/
theorem decoderMove_cases (s : State) :
    (s.status.state = .busy ∧ ∃ c, decodeCommand s.parameters.codes s.dp.command = .ok c ∧
      decoderMove s = .run (.ofCommand c) s) ∨
    (s.status.state = .busy ∧ ∃ e, decodeCommand s.parameters.codes s.dp.command = .error e ∧
      decoderMove s = .move (raiseFault (detailOfReject e) s)) ∨
    (s.status.state ≠ .busy ∧ decoderMove s = .move s) := by
  unfold decoderMove
  by_cases hb : s.status.state = .busy
  · cases hd : decodeCommand s.parameters.codes s.dp.command <;> simp [hb]
  · simp [hb]

/-- Everything a step that answers a next state can be: a host access, a reset, the decode in progress, or nothing. -/
theorem step_cases {s t : State} (h : step s = .next t) :
    (∃ w rest i, s.inputs = .transaction w :: rest ∧ decodeHt w = .ok i ∧
      exec i { s with inputs := rest } = .next t) ∨
    (∃ rest, s.inputs = .reset :: rest ∧ t = resetMachine { s with inputs := rest }) ∨
    (∃ rest c, NoAccess s rest ∧ s.status.state = .busy ∧ decodeCommand s.parameters.codes s.dp.command = .ok c ∧
      t = runDecode c (bodyOf s.parameters.rightInherit c) { s with inputs := rest }) ∨
    (∃ rest e, NoAccess s rest ∧ s.status.state = .busy ∧ decodeCommand s.parameters.codes s.dp.command = .error e ∧
      t = raiseFault (detailOfReject e) { s with inputs := rest }) ∨
    ∃ rest, NoAccess s rest ∧ s.status.state ≠ .busy ∧ t = { s with inputs := rest } := by
  unfold step at h
  rcases fetch_cases s with ⟨w, rest, i, hi, hd, hf⟩ | ⟨w, rest, e, hi, hd, hf⟩ | ⟨rest, hi, hf⟩ | ⟨rest, hi, hf⟩
  · rw [hf] at h
    exact .inl ⟨w, rest, i, hi, hd, h⟩
  · rw [hf] at h
    cases h
  · rw [hf] at h
    cases h
    exact .inr (.inl ⟨rest, hi, rfl⟩)
  · rcases decoderMove_cases { s with inputs := rest } with ⟨hb, c, hc, hm⟩ | ⟨hb, e, hc, hm⟩ | ⟨hb, hm⟩
    · rw [hf, hm] at h
      simp only [exec_ofCommand] at h
      cases h
      exact .inr (.inr (.inl ⟨rest, c, hi, hb, hc, rfl⟩))
    · rw [hf, hm] at h
      cases h
      exact .inr (.inr (.inr (.inl ⟨rest, e, hi, hb, hc, rfl⟩)))
    · rw [hf, hm] at h
      cases h
      exact .inr (.inr (.inr (.inr ⟨rest, hi, hb, rfl⟩)))

/-- A decode command keeps PAYLOAD and CMD, whatever its body. -/
theorem runDecode_host (c : Command) (body : Payload → ModeParams → Micro (List Pixel)) (s : State) :
    (runDecode c body s).payload = s.payload ∧ (runDecode c body s).cmd = s.cmd ∧
      (runDecode c body s).inputs = s.inputs ∧ (runDecode c body s).readData = s.readData := by
  rcases runDecode_cases c body s with ⟨px, d, -, h⟩ | ⟨e, d, -, h⟩ <;> rw [h] <;> exact ⟨rfl, rfl, rfl, rfl⟩

/-- A decode command keeps the parameters. -/
@[simp] theorem runDecode_parameters (c : Command) (body : Payload → ModeParams → Micro (List Pixel)) (s : State) :
    (runDecode c body s).parameters = s.parameters := by
  rcases runDecode_cases c body s with ⟨px, d, -, h⟩ | ⟨e, d, -, h⟩ <;> rw [h] <;> rfl

/-- START keeps the parameters. -/
@[simp] theorem startDecode_parameters (s : State) : (startDecode s).parameters = s.parameters := by
  rcases startDecode_cases s with ⟨c, -, h⟩ | ⟨e, -, h⟩ <;> rw [h] <;> rfl

/-- START keeps PAYLOAD and CMD. -/
theorem startDecode_host (s : State) :
    (startDecode s).payload = s.payload ∧ (startDecode s).cmd = s.cmd ∧ (startDecode s).inputs = s.inputs ∧
      (startDecode s).readData = s.readData := by
  rcases startDecode_cases s with ⟨c, -, h⟩ | ⟨e, -, h⟩ <;> rw [h] <;> exact ⟨rfl, rfl, rfl, rfl⟩

end Sys2Proof.Machine
end

