-- ==== Sys2Proof/Laws/Output.lean ====
section
/-!
SUPPORT. What OUT holds after the assembler's writes, and the fields of the mode parameters.
-/

namespace Sys2Proof.Machine

/-- Byte k of a pixel that was stored. -/
theorem storePixels_stored (px : List Pixel) (rest : Vector Byte 256) (k : Nat) (hk : k < 256)
    (h : k / 4 < px.length) : (storePixels px rest)[k] = px[k / 4].byte k := by
  simp [storePixels, h]

/-- A byte past the last stored pixel. -/
theorem storePixels_rest (px : List Pixel) (rest : Vector Byte 256) (k : Nat) (hk : k < 256)
    (h : px.length ≤ k / 4) : (storePixels px rest)[k] = rest[k] := by
  simp [storePixels, h]

theorem assembleB_length (slot : Equiv.Perm (Fin 32)) (lp : Vector Pixel 32) : (assembleB slot lp).length = 32 := by
  simp [assembleB]

/-- Slot B_SLOT(i) holds logical pixel i. -/
theorem assembleB_slot (slot : Equiv.Perm (Fin 32)) (lp : Vector Pixel 32) (i : Fin 32) :
    (assembleB slot lp)[(slot i).val]? = some lp[i] := by
  rw [assembleB, List.getElem?_ofFn]
  simp

theorem assembleA_length (p : PerChannel (PerSide Samples)) : (assembleA p).length = 16 := by simp [assembleA]

/-- Pixel 8X + 4 row + j of a cacheline. -/
theorem assembleA_get (p : PerChannel (PerSide Samples)) (x : Side) (row j : Nat) (hr : row < 2) (hj : j < 4) :
    (assembleA p)[(if x = .l then 0 else 8) + 4 * row + j]? = some (colour p x row j) := by
  have hrow : row = 0 ∨ row = 1 := by omega
  have hcol : j = 0 ∨ j = 1 ∨ j = 2 ∨ j = 3 := by omega
  cases x <;> rcases hrow with rfl | rfl <;> rcases hcol with rfl | rfl | rfl | rfl <;> rfl

theorem zeroFillA_length (n : Nat) : (zeroFillA n).length = 16 * (4 - n) := by simp [zeroFillA]

theorem logicalPixels_get (lo : Nat) (px : List Pixel) (i : Nat) (hi : i < 32) :
    (logicalPixels lo px)[i] = if i < lo then Pixel.zero else px.getD (i - lo) Pixel.zero := by
  simp [logicalPixels]

@[simp] theorem pixel_zero_byte (k : Nat) : Pixel.zero.byte k = 0 := by
  unfold Pixel.byte
  split <;> rfl

end Sys2Proof.Machine
end

