-- ==== Sys2Proof/Laws/PerInstr.lean ====
section
/-!
SUPPORT. The per-instruction family EncodingMatchesTable: the code of a well-formed instruction has the format of its
opcode-table row, and agrees with the row's match under its mask. The table's command words are those of the
default mode codes.
-/

namespace Sys2Proof.Laws.EncodingMatchesTable

/-- The code of i lies in the row with the given format, mask and match. -/
def inRow (c : Code) (nbits mask mtch : Nat) : Prop :=
  match c with
  | .cmd32 w => nbits = 32 ∧ w &&& BitVec.ofNat 32 mask = BitVec.ofNat 32 mtch
  | .ht w => nbits = 64 ∧ w &&& BitVec.ofNat 64 mask = BitVec.ofNat 64 mtch

/-- The mask and match of each row, as spec/opcode_table.json gives them. -/
def Statement (i : Instr) : Prop :=
  i.WellFormed →
    match i with
    | .decodeA4 => inRow (encode .defaults i) 32 0xFFFFFFFF 0x00000004
    | .decodeA3 => inRow (encode .defaults i) 32 0xFFFFFFFF 0x00000003
    | .decodeA2 => inRow (encode .defaults i) 32 0xFFFFFFFF 0x00000002
    | .decodeB8 => inRow (encode .defaults i) 32 0xFFFFFFFF 0x00000100
    | .decodeB11S0 => inRow (encode .defaults i) 32 0xFFFFFFFF 0x00000101
    | .decodeB11S1 => inRow (encode .defaults i) 32 0xFFFFFFFF 0x00000102
    | .decodeB11S2 => inRow (encode .defaults i) 32 0xFFFFFFFF 0x00000103
    | .decodeB11S3 => inRow (encode .defaults i) 32 0xFFFFFFFF 0x00000104
    | .decodeB11S0X => inRow (encode .defaults i) 32 0xFFFFFFFF 0x00000301
    | .decodeB11S3X => inRow (encode .defaults i) 32 0xFFFFFFFF 0x00000304
    | .rdpay _ => inRow (encode .defaults i) 64 0xFFFFFFFFFFFFFFC0 0x0000000000000000
    | .wrpay _ _ => inRow (encode .defaults i) 64 0xFFFFFFFFFF00FFC0 0x0000000000000200
    | .rdcmd => inRow (encode .defaults i) 64 0xFFFFFFFFFFFFFFFF 0x0000000000000440
    | .wrcmd _ => inRow (encode .defaults i) 64 0xFFFF00000000FFFF 0x0000000000000640
    | .start _ => inRow (encode .defaults i) 64 0xFFFF00000001FFFF 0x0000000000010644
    | .wrctrl0 _ => inRow (encode .defaults i) 64 0xFFFF00000001FFFF 0x0000000000000644
    | .rdctrl => inRow (encode .defaults i) 64 0xFFFFFFFFFFFFFFFF 0x0000000000000444
    | .rdstat => inRow (encode .defaults i) 64 0xFFFFFFFFFFFFFFFF 0x0000000000000448
    | .rdlen => inRow (encode .defaults i) 64 0xFFFFFFFFFFFFFFFF 0x000000000000044C
    | .rdout _ => inRow (encode .defaults i) 64 0xFFFFFFFFFFFFFF00 0x0000000000000100

/-- Two words that agree at every bit are equal. -/
theorem word_ext {n : Nat} {v w : BitVec n} (h : ∀ k : Fin n, v.getLsbD k = w.getLsbD k) : v = w :=
  BitVec.eq_of_getLsbD_eq fun k hk => h ⟨k, hk⟩

theorem decodeA4 : Statement .decodeA4 := by intro _; exact ⟨rfl, by decide⟩
theorem decodeA3 : Statement .decodeA3 := by intro _; exact ⟨rfl, by decide⟩
theorem decodeA2 : Statement .decodeA2 := by intro _; exact ⟨rfl, by decide⟩
theorem decodeB8 : Statement .decodeB8 := by intro _; exact ⟨rfl, by decide⟩
theorem decodeB11S0 : Statement .decodeB11S0 := by intro _; exact ⟨rfl, by decide⟩
theorem decodeB11S1 : Statement .decodeB11S1 := by intro _; exact ⟨rfl, by decide⟩
theorem decodeB11S2 : Statement .decodeB11S2 := by intro _; exact ⟨rfl, by decide⟩
theorem decodeB11S3 : Statement .decodeB11S3 := by intro _; exact ⟨rfl, by decide⟩
theorem decodeB11S0X : Statement .decodeB11S0X := by intro _; exact ⟨rfl, by decide⟩
theorem decodeB11S3X : Statement .decodeB11S3X := by intro _; exact ⟨rfl, by decide⟩
theorem rdcmd : Statement .rdcmd := by intro _; exact ⟨rfl, by decide⟩
theorem rdctrl : Statement .rdctrl := by intro _; exact ⟨rfl, by decide⟩
theorem rdstat : Statement .rdstat := by intro _; exact ⟨rfl, by decide⟩
theorem rdlen : Statement .rdlen := by intro _; exact ⟨rfl, by decide⟩

theorem rdpay (off : BitVec 6) : Statement (.rdpay off) := by
  intro _
  refine ⟨rfl, word_ext fun k => ?_⟩
  rw [BitVec.getLsbD_and, htWord_getLsbD]
  fin_cases k <;> simp

theorem rdout (off : BitVec 8) : Statement (.rdout off) := by
  intro _
  refine ⟨rfl, word_ext fun k => ?_⟩
  rw [BitVec.getLsbD_and, htWord_getLsbD]
  fin_cases k <;> simp

theorem wrpay (off : BitVec 6) (byte : Byte) : Statement (.wrpay off byte) := by
  intro _
  refine ⟨rfl, word_ext fun k => ?_⟩
  rw [BitVec.getLsbD_and, htWord_getLsbD]
  fin_cases k <;> simp

theorem wrcmd (word : Word) : Statement (.wrcmd word) := by
  intro _
  refine ⟨rfl, word_ext fun k => ?_⟩
  rw [BitVec.getLsbD_and, htWord_getLsbD]
  fin_cases k <;> simp

theorem start (data : Word) : Statement (.start data) := by
  intro h
  have h0 : data[0] = true := by simpa [Instr.WellFormed, Instr.wellFormed] using h
  refine ⟨rfl, word_ext fun k => ?_⟩
  rw [BitVec.getLsbD_and, htWord_getLsbD]
  fin_cases k <;> simp [h0]

theorem wrctrl0 (data : Word) : Statement (.wrctrl0 data) := by
  intro h
  have h0 : data[0] = false := by simpa [Instr.WellFormed, Instr.wellFormed] using h
  refine ⟨rfl, word_ext fun k => ?_⟩
  rw [BitVec.getLsbD_and, htWord_getLsbD]
  fin_cases k <;> simp [h0]

end Sys2Proof.Laws.EncodingMatchesTable
end

