-- ==== Sys2Proof/Laws/Units.lean ====
section
/-!
SUPPORT. What each unit of the decode answers, and where it faults, from a cursor position: one lemma per unit, in the
terms of the layouts of Safety.lean, so that no proof about a decode unfolds a unit.
-/

namespace Sys2Proof.Machine

variable {α β : Type}

/-! ### Answers and faults by position -/

/-- From cursor q, m answers a with the cursor at q', and changes nothing else. -/
def Answers (m : Micro α) (q : Nat) (a : α) (q' : Nat) : Prop :=
  ∀ d : Datapath, d.cur.val = q → ∃ d', m d = .ok a d' ∧ d'.cur.val = q' ∧ d' = { d with cur := d'.cur }

/-- From cursor q, m faults with detail e with the cursor at q', and changes nothing else. -/
def FaultsAt (m : Micro α) (q : Nat) (e : Detail) (q' : Nat) : Prop :=
  ∀ d : Datapath, d.cur.val = q → ∃ d', m d = .error e d' ∧ d'.cur.val = q' ∧ d' = { d with cur := d'.cur }

theorem answers_pure (a : α) (q : Nat) : Answers (pure a : Micro α) q a q := fun d h => ⟨d, rfl, h, rfl⟩

theorem faultsAt_throw (e : Detail) (q : Nat) : FaultsAt (throw e : Micro α) q e q := fun d h => ⟨d, rfl, h, rfl⟩

theorem answers_bind {m : Micro α} {f : α → Micro β} {q q' q'' : Nat} {a : α} {b : β} (hm : Answers m q a q')
    (hf : Answers (f a) q' b q'') : Answers (m >>= f) q b q'' := by
  intro d hd
  obtain ⟨d₁, h₁, hc₁, hd₁⟩ := hm d hd
  obtain ⟨d₂, h₂, hc₂, hd₂⟩ := hf d₁ hc₁
  refine ⟨d₂, by rw [micro_bind_ok h₁, h₂], hc₂, ?_⟩
  rw [hd₂, hd₁]

theorem faultsAt_bind {m : Micro α} {f : α → Micro β} {q q' : Nat} {e : Detail} (hm : FaultsAt m q e q') :
    FaultsAt (m >>= f) q e q' := by
  intro d hd
  obtain ⟨d₁, h₁, hc₁, hd₁⟩ := hm d hd
  exact ⟨d₁, micro_bind_error h₁, hc₁, hd₁⟩

theorem faultsAt_bind_of_answers {m : Micro α} {f : α → Micro β} {q q' q'' : Nat} {a : α} {e : Detail}
    (hm : Answers m q a q') (hf : FaultsAt (f a) q' e q'') : FaultsAt (m >>= f) q e q'' := by
  intro d hd
  obtain ⟨d₁, h₁, hc₁, hd₁⟩ := hm d hd
  obtain ⟨d₂, h₂, hc₂, hd₂⟩ := hf d₁ hc₁
  refine ⟨d₂, by rw [micro_bind_ok h₁, h₂], hc₂, ?_⟩
  rw [hd₂, hd₁]

/-- m, n times over, where the i-th time goes from p i to p (i + 1). -/
theorem answers_repeatMicro {m : Micro α} {f : Nat → α} {p : Nat → Nat} {n : Nat}
    (h : ∀ i < n, Answers m (p i) (f i) (p (i + 1))) :
    Answers (repeatMicro m n) (p 0) ((List.range n).map f) (p n) := by
  induction n generalizing f p with
  | zero => exact answers_pure _ _
  | succ n ih =>
    refine answers_bind (h 0 (by omega)) ?_
    refine answers_bind (ih (f := fun i => f (i + 1)) (p := fun i => p (i + 1)) fun i hi => h (i + 1) (by omega)) ?_
    rw [List.range_succ_eq_map, List.map_cons, List.map_map]
    exact answers_pure _ _

/-- The first time that faults decides. -/
theorem faultsAt_repeatMicro {m : Micro α} {f : Nat → α} {p : Nat → Nat} {n k : Nat} {e : Detail} {q : Nat}
    (hk : k < n) (h : ∀ i < k, Answers m (p i) (f i) (p (i + 1))) (hf : FaultsAt m (p k) e q) :
    FaultsAt (repeatMicro m n) (p 0) e q := by
  induction n generalizing f p k with
  | zero => omega
  | succ n ih =>
    cases k with
    | zero => exact faultsAt_bind hf
    | succ k =>
      refine faultsAt_bind_of_answers (h 0 (by omega)) (faultsAt_bind ?_)
      exact ih (f := fun i => f (i + 1)) (p := fun i => p (i + 1)) (k := k) (by omega)
        (fun i hi => h (i + 1) (by omega)) hf

/-! ### Single fields -/

theorem answers_readBits (pl : Payload) {n q : Nat} (h : q + n ≤ 512) :
    Answers (readBits pl n) q (bitsAt pl q n) (q + n) := by
  rintro d rfl
  exact ⟨_, readBits_ok pl n d h, rfl, rfl⟩

theorem faultsAt_readBits (pl : Payload) {n q : Nat} (h : 512 < q + n) :
    FaultsAt (readBits pl n) q .readPastEnd q := by
  rintro d rfl
  exact ⟨d, readBits_past pl n d (by omega), rfl, rfl⟩

theorem answers_readFlag (pl : Payload) {q : Nat} (h : q + 1 ≤ 512) :
    Answers (readFlag pl) q (payloadBit pl q) (q + 1) := by
  rintro d rfl
  exact ⟨_, readFlag_ok pl d (by omega), rfl, rfl⟩

theorem answers_readWidth (pl : Payload) {q : Nat} (h : q + 3 ≤ 512) :
    Answers (readWidth pl) q ⟨(bitsAt pl q 3).toNat, bitsAt_lt pl q 3 (by omega)⟩ (q + 3) := by
  rintro d rfl
  exact ⟨_, readWidth_ok pl d h, rfl, rfl⟩

/-- An n-bit field is 0 exactly when all its bits are. -/
theorem bitsAt_eq_zero {pl : Payload} {p n : Nat} (hn : n ≤ 8) :
    bitsAt pl p n = 0 ↔ ∀ k < n, payloadBit pl (p + k) = false := by
  constructor
  · intro h k hk
    have := bitsAt_getLsbD pl p n k hn
    rw [h] at this
    simpa [hk] using this.symm
  · intro h
    apply BitVec.eq_of_getLsbD_eq
    intro k _
    rw [bitsAt_getLsbD pl p n k hn]
    by_cases hkn : k < n
    · simp [h k hkn]
    · simp [hkn]

/-! ### Must-be-zero regions -/

theorem zeroFault_eq_none {pl : Payload} {q r : Nat} :
    zeroFault pl q r = none ↔ ∀ k < r - q, payloadBit pl (q + k) = false := by
  unfold zeroFault
  split
  · rename_i k h
    rw [List.find?_range_eq_some] at h
    refine ⟨fun h => (by cases h), fun h' => ?_⟩
    have := h' k (by simpa using h.2.1)
    rw [h.1] at this
    cases this
  · rename_i h
    rw [List.find?_range_eq_none] at h
    simpa using h

theorem zeroFault_eq_some {pl : Payload} {q r pos : Nat} :
    zeroFault pl q r = some pos ↔
      ∃ k < r - q, payloadBit pl (q + k) = true ∧ (∀ j < k, payloadBit pl (q + j) = false) ∧
        pos = min r (q + 8 * (k / 8 + 1)) := by
  unfold zeroFault
  split
  · rename_i k h
    rw [List.find?_range_eq_some] at h
    obtain ⟨h1, h2, h3⟩ := h
    simp only [Bool.not_eq_true', List.mem_range] at h2 h3
    refine ⟨fun h => by cases h; exact ⟨k, h2, h1, h3, rfl⟩, ?_⟩
    rintro ⟨k', -, h2', h3', rfl⟩
    have : k = k' := by
      rcases lt_trichotomy k k' with h | h | h
      · rw [h3' k h] at h1
        cases h1
      · exact h
      · rw [h3 k' h] at h2'
        cases h2'
    rw [this]
  · rename_i h
    rw [List.find?_range_eq_none] at h
    refine ⟨fun h => (by cases h), ?_⟩
    rintro ⟨k', h1', h2', -, -⟩
    have := h k' h1'
    simp [h2'] at this

/-- A region is zero exactly when it has no fault. -/
theorem zeroBits_eq (pl : Payload) (q r : Nat) : zeroBits pl q r = true ↔ zeroFault pl q r = none := by
  rw [zeroFault_eq_none]
  simp [zeroBits]

/-- Where the chunks of ExpectZeroBits(n) from bit q stop: after n bits, or before the chunk that would pass bit 511. -/
def zeroEnd (q n : Nat) : Nat := if q + n ≤ 512 then q + n else q + 8 * ((512 - q) / 8)

/-- What ExpectZeroBits(r) does from bit q. -/
def ZeroRule (pl : Payload) (m : Micro Unit) (q r : Nat) : Prop :=
  (zeroFault pl q (zeroEnd q r) = none →
    (q + r ≤ 512 → Answers m q () (q + r)) ∧ (512 < q + r → FaultsAt m q .readPastEnd (zeroEnd q r))) ∧
  ∀ pos, zeroFault pl q (zeroEnd q r) = some pos → FaultsAt m q .nonzeroReserved pos

theorem expectZeroLoop_zero (pl : Payload) (fuel : Nat) {q : Nat} (hq : q ≤ 512) :
    ZeroRule pl (expectZeroLoop pl fuel 0) q 0 := by
  have h0 : zeroFault pl q (zeroEnd q 0) = none := by simp [zeroFault_eq_none, zeroEnd, hq]
  refine ⟨fun _ => ⟨fun _ => ?_, fun h => by omega⟩, fun pos h => by rw [h0] at h; cases h⟩
  cases fuel <;> exact answers_pure () q

/-- Everything the chunk loop can do, whatever fuel is left over. -/
theorem expectZeroLoop_spec (pl : Payload) (fuel r q : Nat) (hr : r ≤ fuel) (hq : q ≤ 512) :
    ZeroRule pl (expectZeroLoop pl fuel r) q r := by
  induction fuel generalizing r q with
  | zero =>
    obtain rfl : r = 0 := by omega
    exact expectZeroLoop_zero pl 0 hq
  | succ fuel ih =>
    by_cases h0 : r = 0
    · subst h0
      exact expectZeroLoop_zero pl (fuel + 1) hq
    have hl : expectZeroLoop pl (fuel + 1) r =
        (readBits pl (min 8 r) >>= fun v =>
          if v = 0 then expectZeroLoop pl fuel (r - min 8 r) else throw .nonzeroReserved) := by
      simp [expectZeroLoop, h0]
    rw [hl]
    by_cases hc : q + min 8 r ≤ 512
    · have hle : q + min 8 r ≤ zeroEnd q r := by
        unfold zeroEnd
        split <;> omega
      by_cases hv : bitsAt pl q (min 8 r) = 0
      · have e1 : zeroEnd (q + min 8 r) (r - min 8 r) = zeroEnd q r := by
          unfold zeroEnd
          split <;> split <;> omega
        have e2 : q + min 8 r + (r - min 8 r) = q + r := by omega
        have hread := answers_readBits pl hc
        obtain ⟨a, b⟩ := ih (r - min 8 r) (q + min 8 r) (by omega) hc
        rw [e1, e2] at a
        rw [e1] at b
        rw [bitsAt_eq_zero (by omega)] at hv
        have hv0 : bitsAt pl q (min 8 r) = 0 := (bitsAt_eq_zero (by omega)).2 hv
        refine ⟨fun h => ?_, fun pos h => ?_⟩
        · have hn : zeroFault pl (q + min 8 r) (zeroEnd q r) = none := by
            rw [zeroFault_eq_none] at h ⊢
            intro k hk
            have := h (min 8 r + k) (by omega)
            rwa [← Nat.add_assoc] at this
          refine ⟨fun hb => answers_bind hread ?_, fun hb => faultsAt_bind_of_answers hread ?_⟩
          · rw [hv0, if_pos rfl]
            exact (a hn).1 hb
          · rw [hv0, if_pos rfl]
            exact (a hn).2 hb
        · refine faultsAt_bind_of_answers hread ?_
          rw [hv0, if_pos rfl]
          apply b
          rw [zeroFault_eq_some] at h ⊢
          obtain ⟨k, h1, h2, h3, h4⟩ := h
          have hmk : min 8 r ≤ k := by
            by_contra h
            have := hv k (by omega)
            rw [h2] at this
            cases this
          have h8 : min 8 r = 8 := by
            unfold zeroEnd at h1
            split at h1 <;> omega
          have hk8 : 8 ≤ k := by omega
          rw [h8]
          refine ⟨k - 8, by omega, ?_, fun j hj => ?_, ?_⟩
          · rw [← h2]
            congr 1
            omega
          · have := h3 (8 + j) (by omega)
            rwa [← Nat.add_assoc] at this
          · rw [h4]
            congr 1
            omega
      · have hx : ∃ k, k < min 8 r ∧ payloadBit pl (q + k) = true := by
          rw [bitsAt_eq_zero (by omega)] at hv
          by_contra hn
          apply hv
          intro k hk
          by_contra hb
          exact hn ⟨k, hk, by simpa using hb⟩
        have hs : zeroFault pl q (zeroEnd q r) = some (q + min 8 r) := by
          rw [zeroFault_eq_some]
          have hk := (Nat.find_spec hx).1
          refine ⟨Nat.find hx, by omega, (Nat.find_spec hx).2, fun j hj => ?_, ?_⟩
          · have := Nat.find_min hx hj
            simp only [not_and, Bool.not_eq_true] at this
            exact this (by omega)
          · rw [show Nat.find hx / 8 = 0 by omega]
            unfold zeroEnd at hle ⊢
            split at hle <;> rename_i hh <;> simp only [hh, if_true, if_false] <;> omega
        refine ⟨fun h => (by rw [hs] at h; cases h), fun pos h => ?_⟩
        rw [hs] at h
        cases h
        refine faultsAt_bind_of_answers (answers_readBits pl hc) ?_
        rw [if_neg hv]
        exact faultsAt_throw _ _
    · have e : zeroEnd q r = q := by
        unfold zeroEnd
        split <;> omega
      refine ⟨fun _ => ⟨fun h => by omega, fun _ => ?_⟩, fun pos h => ?_⟩
      · rw [e]
        exact faultsAt_bind (faultsAt_readBits pl (by omega))
      rw [e, zeroFault_eq_none.2 (by simp)] at h
      cases h

theorem answers_expectZeroBits {pl : Payload} {n q : Nat} (h : q + n ≤ 512) (hz : zeroFault pl q (q + n) = none) :
    Answers (expectZeroBits pl n) q () (q + n) := by
  have := expectZeroLoop_spec pl n n q (le_refl n) (by omega)
  rw [ZeroRule, show zeroEnd q n = q + n from if_pos h] at this
  exact (this.1 hz).1 h

theorem faultsAt_expectZeroBits {pl : Payload} {n q pos : Nat} (h : q + n ≤ 512)
    (hz : zeroFault pl q (q + n) = some pos) : FaultsAt (expectZeroBits pl n) q .nonzeroReserved pos := by
  have := expectZeroLoop_spec pl n n q (le_refl n) (by omega)
  rw [ZeroRule, show zeroEnd q n = q + n from if_pos h] at this
  exact this.2 pos hz

/-! ### Delta groups -/

theorem answers_readFour (pl : Payload) {q : Nat} (h : q + 4 ≤ 512) :
    Answers (readFour pl) q
      #v[payloadBit pl q, payloadBit pl (q + 1), payloadBit pl (q + 2), payloadBit pl (q + 3)] (q + 4) :=
  answers_bind (answers_readFlag pl (by omega)) <| answers_bind (answers_readFlag pl (by omega)) <|
    answers_bind (answers_readFlag pl (by omega)) <| answers_bind (answers_readFlag pl (by omega)) <|
      answers_pure _ _

/-- m reads n bits one at a time, so that it faults at bit 512 and nowhere else. -/
def BitByBit (m : Micro α) (n : Nat) : Prop := ∀ q, q ≤ 512 → 512 < q + n → FaultsAt m q .readPastEnd 512

theorem bitByBit_zero (m : Micro α) : BitByBit m 0 := fun q h h' => by omega

theorem bitByBit_bind {m : Micro α} {f : α → Micro β} {n k : Nat} (hm : BitByBit m n)
    (ha : ∀ q, q + n ≤ 512 → ∃ a, Answers m q a (q + n)) (hf : ∀ a, BitByBit (f a) k) :
    BitByBit (m >>= f) (n + k) := by
  intro q hq h
  by_cases hn : q + n ≤ 512
  · obtain ⟨a, ha⟩ := ha q hn
    exact faultsAt_bind_of_answers ha (hf a _ hn (by omega))
  · exact faultsAt_bind (hm q hq (by omega))

theorem bitByBit_readFlag (pl : Payload) : BitByBit (readFlag pl) 1 := by
  intro q hq h
  obtain rfl : q = 512 := by omega
  exact faultsAt_bind (faultsAt_readBits pl (by omega))

theorem bitByBit_readFour (pl : Payload) : BitByBit (readFour pl) 4 := by
  have h1 : ∀ q, q + 1 ≤ 512 → ∃ a, Answers (readFlag pl) q a (q + 1) := fun q h => ⟨_, answers_readFlag pl h⟩
  exact bitByBit_bind (k := 3) (bitByBit_readFlag pl) h1 fun _ =>
    bitByBit_bind (k := 2) (bitByBit_readFlag pl) h1 fun _ =>
      bitByBit_bind (k := 1) (bitByBit_readFlag pl) h1 fun _ =>
        bitByBit_bind (k := 0) (bitByBit_readFlag pl) h1 fun _ => bitByBit_zero _

theorem orPlane_get (v : Vector Byte 4) (k : Nat) (plane : Vector Bool 4) (i : Fin 4) :
    (orPlane v k plane)[i] = v[i] ||| bitByte plane[i] <<< k := by
  fin_cases i <;> rfl

/-- n planes from plane k on: bit b of value i is at bit 4 (b - k) + i of what is read. -/
theorem answers_readPlanes (pl : Payload) (n k : Nat) (v : Vector Byte 4) {q : Nat} (h : q + 4 * n ≤ 512) :
    ∃ v' : Vector Byte 4, Answers (readPlanes pl n k v) q v' (q + 4 * n) ∧
      ∀ (i : Fin 4) (b : Nat), b < 8 → v'[i].getLsbD b =
        (v[i].getLsbD b || (decide (k ≤ b ∧ b < k + n) && payloadBit pl (q + 4 * (b - k) + i.val))) := by
  induction n generalizing k v q with
  | zero => exact ⟨v, answers_pure _ _, fun i b _ => by simp⟩
  | succ n ih =>
    obtain ⟨v', h1, h2⟩ := ih (k + 1)
      (orPlane v k #v[payloadBit pl q, payloadBit pl (q + 1), payloadBit pl (q + 2), payloadBit pl (q + 3)])
      (q := q + 4) (by omega)
    refine ⟨v', ?_, fun i b hb => ?_⟩
    · have := answers_bind (f := fun plane => readPlanes pl n (k + 1) (orPlane v k plane))
        (answers_readFour pl (q := q) (by omega)) h1
      rwa [show q + 4 + 4 * n = q + 4 * (n + 1) by omega] at this
    · rw [h2 i b hb, orPlane_get, BitVec.getLsbD_or, BitVec.getLsbD_shiftLeft, bitByte_getLsbD]
      have e : (#v[payloadBit pl q, payloadBit pl (q + 1), payloadBit pl (q + 2), payloadBit pl (q + 3)] :
          Vector Bool 4)[i] = payloadBit pl (q + i.val) := by fin_cases i <;> rfl
      rw [e]
      rcases lt_trichotomy b k with h3 | h3 | h3
      · simp [h3, show ¬ k ≤ b by omega, show ¬ k + 1 ≤ b by omega]
      · subst h3
        simp [hb]
      · have e2 : q + 4 + 4 * (b - (k + 1)) = q + 4 * (b - k) := by omega
        simp [show ¬ b < k by omega, show k ≤ b by omega, show k + 1 ≤ b by omega, show ¬ b - k = 0 by omega,
          show b < k + 1 + n ↔ b < k + (n + 1) by omega, e2]

theorem bitByBit_readPlanes (pl : Payload) (n k : Nat) (v : Vector Byte 4) :
    BitByBit (readPlanes pl n k v) (4 * n) := by
  induction n generalizing k v with
  | zero => exact bitByBit_zero _
  | succ n ih =>
    have := bitByBit_bind (f := fun plane => readPlanes pl n (k + 1) (orPlane v k plane)) (bitByBit_readFour pl)
      (fun q h => ⟨_, answers_readFour pl h⟩) fun _ => ih _ _
    rwa [show 4 + 4 * n = 4 * (n + 1) by omega] at this

theorem sumTo_succ (f : Nat → Nat) (n : Nat) : sumTo f (n + 1) = sumTo f n + f n := by
  simp [sumTo, List.range_succ]

theorem setBits_succ (pl : Payload) (p n : Nat) :
    setBits pl p (n + 1) = setBits pl p n + if payloadBit pl (p + n) then 1 else 0 := by
  rw [setBits, setBits, List.range_succ, List.filter_append, List.length_append]
  cases h : payloadBit pl (p + n) <;> simp [h]

/-- A number built from its bits. -/
theorem sumTo_bits_lt (f : Nat → Bool) (w : Nat) : sumTo (fun k => if f k then 2 ^ k else 0) w < 2 ^ w := by
  induction w with
  | zero => simp [sumTo]
  | succ n ih =>
    rw [sumTo_succ, Nat.pow_succ]
    split <;> omega

theorem sumTo_bits_testBit (f : Nat → Bool) (w b : Nat) :
    (sumTo (fun k => if f k then 2 ^ k else 0) w).testBit b = (decide (b < w) && f b) := by
  induction w with
  | zero => simp [sumTo]
  | succ n ih =>
    rw [sumTo_succ]
    have hlt := sumTo_bits_lt f n
    cases hf : f n
    · simp only [Bool.false_eq_true, if_false, Nat.add_zero, ih]
      by_cases h : b = n
      · subst h
        simp [hf]
      · simp [show b < n + 1 ↔ b < n by omega]
    · simp only [if_true]
      rw [Nat.add_comm]
      rcases lt_trichotomy b n with h | h | h
      · rw [Nat.testBit_two_pow_add_gt h, ih]
        simp [h, Nat.lt_succ_of_lt h]
      · subst h
        rw [Nat.testBit_two_pow_add_eq, ih]
        simp [hf]
      · rw [Nat.testBit_lt_two_pow]
        · simp [show ¬ b < n + 1 by omega]
        · have : 2 ^ (n + 1) ≤ 2 ^ b := Nat.pow_le_pow_right (by omega) h
          rw [Nat.pow_succ] at this
          omega

theorem magnitudeAt_getLsbD (pl : Payload) (p w i b : Nat) (hw : w ≤ 8) :
    (magnitudeAt pl p w i).getLsbD b = (decide (b < w) && payloadBit pl (p + 4 + 4 * b + i)) := by
  rw [magnitudeAt, BitVec.getLsbD_ofNat, sumTo_bits_testBit]
  by_cases h : b < w
  · simp [h, show b < 8 by omega]
  · simp [h]

/-- ReadGroup(w) answers the group of the layout. -/
theorem answers_readGroup (pl : Payload) (w : Fin 8) {q : Nat} (h : q + (4 + 4 * w.val) ≤ 512) :
    Answers (readGroup pl w) q (groupAt pl q w.val) (q + (4 + 4 * w.val)) := by
  obtain ⟨v', h1, h2⟩ := answers_readPlanes pl w.val 0 #v[0, 0, 0, 0] (q := q + 4) (by omega)
  have hv : v' = #v[magnitudeAt pl q w.val 0, magnitudeAt pl q w.val 1, magnitudeAt pl q w.val 2,
      magnitudeAt pl q w.val 3] := by
    apply Vector.ext
    intro i hi
    apply BitVec.eq_of_getLsbD_eq
    intro b hb
    have := h2 ⟨i, hi⟩ b hb
    have hz : (#v[0, 0, 0, 0] : Vector Byte 4)[i] = 0 := by interval_cases i <;> rfl
    have hm : (#v[magnitudeAt pl q w.val 0, magnitudeAt pl q w.val 1, magnitudeAt pl q w.val 2,
        magnitudeAt pl q w.val 3] : Vector Byte 4)[i] = magnitudeAt pl q w.val i := by interval_cases i <;> rfl
    simp only [Fin.getElem_fin] at this
    rw [this, hm, hz, magnitudeAt_getLsbD _ _ _ _ _ (by omega)]
    simp
  subst hv
  have := answers_bind (f := fun s => readPlanes pl w.val 0 #v[0, 0, 0, 0] >>= fun d => pure (Group.mk s d))
    (answers_readFour pl (q := q) (by omega)) (answers_bind h1 (answers_pure _ _))
  rwa [show q + 4 + 4 * w.val = q + (4 + 4 * w.val) by omega] at this

theorem bitByBit_readGroup (pl : Payload) (w : Fin 8) : BitByBit (readGroup pl w) (4 + 4 * w.val) := by
  refine bitByBit_bind (bitByBit_readFour pl) (fun q h => ⟨_, answers_readFour pl h⟩) fun s => ?_
  refine bitByBit_bind (k := 0) (bitByBit_readPlanes pl _ _ _) (fun q h => ?_) fun _ => bitByBit_zero _
  obtain ⟨v, hv, -⟩ := answers_readPlanes pl w.val 0 #v[0, 0, 0, 0] h
  exact ⟨v, hv⟩

/-! ### Sides and channels -/

theorem answers_chainSide (pl : Payload) (w : Fin 8) (seed : Group → Byte) {q : Nat}
    (h : q + 2 * (4 + 4 * w.val) ≤ 512) :
    Answers (chainSide pl w seed) q
      (chain (seed (groupAt pl q w.val)) (groupAt pl q w.val) (groupAt pl (q + (4 + 4 * w.val)) w.val))
      (q + 2 * (4 + 4 * w.val)) := by
  have := answers_bind (f := fun g0 => readGroup pl w >>= fun g1 => pure (chain (seed g0) g0 g1))
    (answers_readGroup pl w (q := q) (by omega)) (answers_bind (answers_readGroup pl w (by omega)) (answers_pure _ _))
  rwa [show q + (4 + 4 * w.val) + (4 + 4 * w.val) = q + 2 * (4 + 4 * w.val) by omega] at this

theorem bitByBit_chainSide (pl : Payload) (w : Fin 8) (seed : Group → Byte) :
    BitByBit (chainSide pl w seed) (2 * (4 + 4 * w.val)) := by
  have h : ∀ q, q + (4 + 4 * w.val) ≤ 512 → ∃ a, Answers (readGroup pl w) q a (q + (4 + 4 * w.val)) :=
    fun q h => ⟨_, answers_readGroup pl w h⟩
  have := bitByBit_bind (f := fun g0 => readGroup pl w >>= fun g1 => pure (chain (seed g0) g0 g1))
    (bitByBit_readGroup pl w) h fun g0 => bitByBit_bind (k := 0) (bitByBit_readGroup pl w) h fun _ => bitByBit_zero _
  rwa [show 4 + 4 * w.val + (4 + 4 * w.val + 0) = 2 * (4 + 4 * w.val) by omega] at this

/-- The samples of a side are those of the layout. -/
theorem answers_reconstructSide (inherit : Config.RightInherit) (pl : Payload) (p : Plan) (v : Byte) {q : Nat}
    (h : q + sideBits p ≤ 512) :
    Answers (reconstructSide inherit pl p v) q (sideSamplesAt inherit pl p q v) (q + sideBits p) := by
  obtain ⟨k, b, w⟩ := p
  cases k with
  | flat => exact answers_pure _ _
  | flatInh => exact answers_pure _ _
  | hseed => exact answers_chainSide pl w _ h
  | smseed => exact answers_chainSide pl w _ h
  | chain => exact answers_chainSide pl w _ h

theorem bitByBit_reconstructSide (inherit : Config.RightInherit) (pl : Payload) (p : Plan) (v : Byte) :
    BitByBit (reconstructSide inherit pl p v) (sideBits p) := by
  obtain ⟨k, b, w⟩ := p
  cases k with
  | flat => exact bitByBit_zero _
  | flatInh => exact bitByBit_zero _
  | hseed => exact bitByBit_chainSide pl w _
  | smseed => exact bitByBit_chainSide pl w _
  | chain => exact bitByBit_chainSide pl w _

/-- The samples of a channel whose two plans and start bit are given. -/
def pairSamplesAt (inherit : Config.RightInherit) (pl : Payload) (plan : PerSide Plan) (q : Nat)
    (leftLast : Byte) : PerSide Samples :=
  let l := sideSamplesAt inherit pl plan.l q leftLast
  ⟨l, sideSamplesAt inherit pl plan.r (q + sideBits plan.l) l.upper[3]⟩

theorem answers_reconstructChannel (inherit : Config.RightInherit) (pl : Payload) (plan : PerSide Plan)
    (old : Samples) {q : Nat} (h : q + (sideBits plan.l + sideBits plan.r) ≤ 512) :
    Answers (reconstructChannel inherit pl plan old) q (pairSamplesAt inherit pl plan q old.upper[3])
      (q + (sideBits plan.l + sideBits plan.r)) := by
  rw [← Nat.add_assoc]
  exact answers_bind (answers_reconstructSide inherit pl plan.l _ (by omega))
    (answers_bind (answers_reconstructSide inherit pl plan.r _ (by omega)) (answers_pure _ _))

theorem bitByBit_reconstructChannel (inherit : Config.RightInherit) (pl : Payload) (plan : PerSide Plan)
    (old : Samples) :
    BitByBit (reconstructChannel inherit pl plan old) (sideBits plan.l + sideBits plan.r) :=
  have h : ∀ (p : Plan) (v : Byte) (q : Nat), q + sideBits p ≤ 512 →
      ∃ a, Answers (reconstructSide inherit pl p v) q a (q + sideBits p) :=
    fun p v _ h => ⟨_, answers_reconstructSide inherit pl p v h⟩
  bitByBit_bind (bitByBit_reconstructSide inherit pl _ _) (h _ _) fun _ =>
    bitByBit_bind (k := 0) (bitByBit_reconstructSide inherit pl _ _) (h _ _) fun _ => bitByBit_zero _

/-! ### The vendor-A header -/

theorem answers_forChannels {f : Channel → Micro α} {q0 q1 q2 q3 q4 : Nat} {g cr cb a : α}
    (hg : Answers (f .g) q0 g q1) (hcr : Answers (f .cr) q1 cr q2) (hcb : Answers (f .cb) q2 cb q3)
    (ha : Answers (f .a) q3 a q4) : Answers (forChannels f) q0 ⟨g, cr, cb, a⟩ q4 :=
  answers_bind hg (answers_bind hcr (answers_bind hcb (answers_bind ha (answers_pure _ _))))

theorem bitByBit_forChannels {f : Channel → Micro α} {n : Channel → Nat} (hf : ∀ ch, BitByBit (f ch) (n ch))
    (ha : ∀ ch q, q + n ch ≤ 512 → ∃ a, Answers (f ch) q a (q + n ch)) :
    BitByBit (forChannels f) (n .g + (n .cr + (n .cb + n .a))) :=
  bitByBit_bind (hf .g) (ha .g) fun _ => bitByBit_bind (hf .cr) (ha .cr) fun _ =>
    bitByBit_bind (hf .cb) (ha .cb) fun _ =>
      bitByBit_bind (k := 0) (hf .a) (ha .a) fun _ => bitByBit_zero _

/-- The eight flags from bit q on, in stage-1 order. -/
def flagsAt (pl : Payload) (q : Nat) : PerChannel (PerSide Bool) :=
  ⟨⟨payloadBit pl q, payloadBit pl (q + 1)⟩, ⟨payloadBit pl (q + 2), payloadBit pl (q + 3)⟩,
    ⟨payloadBit pl (q + 4), payloadBit pl (q + 5)⟩, ⟨payloadBit pl (q + 6), payloadBit pl (q + 7)⟩⟩

theorem flagsAt_hp (pl : Payload) (c0 : Nat) (ch : Channel) (x : Side) :
    ((flagsAt pl c0).get ch).get x = hpAt pl c0 ch x := by
  cases ch <;> cases x <;> rfl

theorem flagsAt_cst (pl : Payload) (c0 : Nat) (ch : Channel) (x : Side) :
    ((flagsAt pl (c0 + 8)).get ch).get x = cstAt pl c0 ch x := by
  cases ch <;> cases x <;> rfl

theorem answers_stageRound (pl : Payload) {q : Nat} (h : q + 8 ≤ 512) :
    Answers (stageRound pl) q (flagsAt pl q) (q + 8) := by
  have side : ∀ p, p + 2 ≤ 512 →
      Answers (forSides fun _ => readFlag pl) p ⟨payloadBit pl p, payloadBit pl (p + 1)⟩ (p + 2) := fun p hp =>
    answers_bind (answers_readFlag pl (by omega)) (answers_bind (answers_readFlag pl (by omega)) (answers_pure _ _))
  exact answers_forChannels (side q (by omega)) (side (q + 2) (by omega)) (side (q + 4) (by omega))
    (side (q + 6) (by omega))

theorem bitByBit_stageRound (pl : Payload) : BitByBit (stageRound pl) 8 := by
  have h1 : ∀ q, q + 1 ≤ 512 → ∃ a, Answers (readFlag pl) q a (q + 1) := fun q h => ⟨_, answers_readFlag pl h⟩
  refine bitByBit_forChannels (n := fun _ => 2) (fun _ => ?_) fun _ q h => ?_
  · exact bitByBit_bind (k := 1) (bitByBit_readFlag pl) h1 fun _ =>
      bitByBit_bind (k := 0) (bitByBit_readFlag pl) h1 fun _ => bitByBit_zero _
  · exact ⟨_, answers_bind (answers_readFlag pl (by omega))
      (answers_bind (answers_readFlag pl (by omega)) (answers_pure _ _))⟩

/-- The pattern table, as the model matches it and as the layout lists it. -/
theorem legalPattern_eq (pl : Payload) (c0 : Nat) (ch : Channel) :
    legalPattern (hpAt pl c0 ch .l) (hpAt pl c0 ch .r) (cstAt pl c0 ch .l) (cstAt pl c0 ch .r) =
      legalAt pl c0 ch := by
  rw [legalAt]
  cases hpAt pl c0 ch .l <;> cases hpAt pl c0 ch .r <;> cases cstAt pl c0 ch .l <;> cases cstAt pl c0 ch .r <;> rfl

/-- The plan of a side whose header byte is present. -/
def presentPlan (cst : Bool) (b : Byte) : Plan := if cst then ⟨.flat, b, 0⟩ else splitPlan b

theorem answers_planSide_present (pl : Payload) (cst : Bool) (absent : Plan) {q : Nat} (h : q + 8 ≤ 512)
    (hb : cst = true ∨ bitsAt pl q 8 ≠ 0) :
    Answers (planSide pl true cst absent) q (presentPlan cst (bitsAt pl q 8)) (q + 8) := by
  refine answers_bind (answers_readBits pl h) ?_
  cases cst with
  | true => exact answers_pure _ _
  | false =>
    have hb : bitsAt pl q 8 ≠ 0 := by simpa using hb
    refine answers_bind (q' := q + 8) (a := lowestSetBit (bitsAt pl q 8)) ?_ (answers_pure _ _)
    rw [tzcnt8, if_neg hb]
    exact answers_pure _ _

theorem faultsAt_planSide_past (pl : Payload) (cst : Bool) (absent : Plan) {q : Nat} (h : 512 < q + 8) :
    FaultsAt (planSide pl true cst absent) q .readPastEnd q :=
  faultsAt_bind (faultsAt_readBits pl h)

theorem faultsAt_planSide_zero (pl : Payload) (absent : Plan) {q : Nat} (h : q + 8 ≤ 512)
    (hb : bitsAt pl q 8 = 0) : FaultsAt (planSide pl true false absent) q .zeroHeaderByte (q + 8) := by
  refine faultsAt_bind_of_answers (answers_readBits pl h) (faultsAt_bind ?_)
  rw [hb]
  exact faultsAt_throw _ _

/-- Where the stage-2 byte of slot k would be. -/
def headerAt (pl : Payload) (c0 k : Nat) : Nat := c0 + 16 + 8 * setBits pl c0 k

/-- The plan of one slot, and its fault, by the layout. -/
theorem planSide_slot (pl : Payload) (c0 : Nat) (ch : Channel) (x : Side) (absent : Plan) :
    let k := sideSlot ch x
    let m := planSide pl (hpAt pl c0 ch x) (cstAt pl c0 ch x) absent
    (headerByteFault pl c0 k = none →
      Answers m (headerAt pl c0 k)
        (if hpAt pl c0 ch x then presentPlan (cstAt pl c0 ch x) (headerByteAt pl c0 ch x) else absent)
        (headerAt pl c0 (k + 1))) ∧
    ∀ f, headerByteFault pl c0 k = some f → FaultsAt m (headerAt pl c0 k) f.1 f.2 := by
  have hs : slotChannel (sideSlot ch x) = ch ∧ slotSide (sideSlot ch x) = x := by cases ch <;> cases x <;> exact ⟨rfl, rfl⟩
  have hn : headerAt pl c0 (sideSlot ch x + 1) =
      headerAt pl c0 (sideSlot ch x) + if hpAt pl c0 ch x then 8 else 0 := by
    rw [headerAt, headerAt, setBits_succ, hpAt]
    split <;> omega
  have hz : nonzeroAt pl c0 ch x = (!hpAt pl c0 ch x || cstAt pl c0 ch x || headerByteAt pl c0 ch x != 0) := rfl
  dsimp only
  rw [hn, headerByteFault, hs.1, hs.2]
  have hb : headerByteAt pl c0 ch x = bitsAt pl (headerAt pl c0 (sideSlot ch x)) 8 := rfl
  have hq : c0 + 16 + 8 * setBits pl c0 (sideSlot ch x) = headerAt pl c0 (sideSlot ch x) := rfl
  rw [hb] at hz ⊢
  rw [hq, hz]
  generalize headerAt pl c0 (sideSlot ch x) = q
  cases hpAt pl c0 ch x with
  | false => exact ⟨fun _ => answers_pure _ _, fun f h => by cases h⟩
  | true =>
    simp only [Bool.true_eq_false, if_false, if_true, Bool.not_true, Bool.false_or]
    by_cases hp : 512 < q + 8
    · simp only [hp, if_true]
      refine ⟨fun h => (by cases h), fun f h => ?_⟩
      cases h
      exact faultsAt_planSide_past pl _ absent hp
    · simp only [hp, if_false]
      cases hc : cstAt pl c0 ch x with
      | true =>
        exact ⟨fun _ => answers_planSide_present pl true absent (by omega) (.inl rfl), fun f h => by cases h⟩
      | false =>
        by_cases hb : bitsAt pl q 8 = 0
        · rw [hb]
          refine ⟨fun h => (by cases h), fun f h => ?_⟩
          cases h
          exact faultsAt_planSide_zero pl absent (by omega) hb
        · have : (bitsAt pl q 8 != 0) = true := by simpa using hb
          rw [this]
          exact ⟨fun _ => answers_planSide_present pl false absent (by omega) (.inr hb), fun f h => by cases h⟩

theorem leftPlanAt_eq (pl : Payload) (c0 : Nat) (ch : Channel) :
    leftPlanAt pl c0 ch =
      if hpAt pl c0 ch .l then presentPlan (cstAt pl c0 ch .l) (headerByteAt pl c0 ch .l)
      else planAbsentLeft (cstAt pl c0 ch .l) := by
  unfold leftPlanAt
  cases hpAt pl c0 ch .l <;> cases cstAt pl c0 ch .l <;> rfl

theorem rightPlanAt_eq (pl : Payload) (c0 : Nat) (ch : Channel) :
    rightPlanAt pl c0 ch =
      if hpAt pl c0 ch .r then presentPlan (cstAt pl c0 ch .r) (headerByteAt pl c0 ch .r)
      else planAbsentRight (cstAt pl c0 ch .r) (leftPlanAt pl c0 ch) := by
  unfold rightPlanAt
  cases hpAt pl c0 ch .r <;> cases cstAt pl c0 ch .r <;> rfl

/-- The first fault of two. -/
def orElse (f g : Option (Detail × Nat)) : Option (Detail × Nat) :=
  match f with
  | some x => some x
  | none => g

/-- From q, m answers a at q' when f is none, and faults as f says when it is not. -/
def Outcome (m : Micro α) (q : Nat) (f : Option (Detail × Nat)) (a : α) (q' : Nat) : Prop :=
  (f = none → Answers m q a q') ∧ ∀ x, f = some x → FaultsAt m q x.1 x.2

theorem outcome_bind {m : Micro α} {k : α → Micro β} {q q' q'' : Nat} {f g : Option (Detail × Nat)} {a : α} {b : β}
    (hm : Outcome m q f a q') (hk : f = none → Outcome (k a) q' g b q'') :
    Outcome (m >>= k) q (orElse f g) b q'' := by
  cases f with
  | some x => exact ⟨fun h => (by cases h), fun y h => faultsAt_bind (hm.2 y h)⟩
  | none =>
    refine ⟨fun h => answers_bind (hm.1 rfl) ((hk rfl).1 h), fun y h => ?_⟩
    exact faultsAt_bind_of_answers (hm.1 rfl) ((hk rfl).2 y h)

theorem outcome_map {m : Micro α} {k : α → β} {q q' : Nat} {f : Option (Detail × Nat)} {a : α}
    (hm : Outcome m q f a q') : Outcome (m >>= fun x => pure (k x)) q f (k a) q' :=
  ⟨fun h => answers_bind (hm.1 h) (answers_pure _ _), fun y h => faultsAt_bind (hm.2 y h)⟩

/-- The two plans of a channel. -/
theorem planChannel_outcome (pl : Payload) (c0 : Nat) (ch : Channel) :
    Outcome (planChannel pl ((flagsAt pl c0).get ch) ((flagsAt pl (c0 + 8)).get ch))
      (headerAt pl c0 (sideSlot ch .l))
      (orElse (headerByteFault pl c0 (sideSlot ch .l)) (headerByteFault pl c0 (sideSlot ch .r)))
      ⟨leftPlanAt pl c0 ch, rightPlanAt pl c0 ch⟩ (headerAt pl c0 (sideSlot ch .r + 1)) := by
  unfold planChannel
  rw [show ((flagsAt pl c0).get ch).l = hpAt pl c0 ch .l from flagsAt_hp pl c0 ch .l,
    show ((flagsAt pl c0).get ch).r = hpAt pl c0 ch .r from flagsAt_hp pl c0 ch .r,
    show ((flagsAt pl (c0 + 8)).get ch).l = cstAt pl c0 ch .l from flagsAt_cst pl c0 ch .l,
    show ((flagsAt pl (c0 + 8)).get ch).r = cstAt pl c0 ch .r from flagsAt_cst pl c0 ch .r]
  have hl := planSide_slot pl c0 ch .l (planAbsentLeft (cstAt pl c0 ch .l))
  have hr := planSide_slot pl c0 ch .r (planAbsentRight (cstAt pl c0 ch .r) (leftPlanAt pl c0 ch))
  dsimp only at hl hr
  rw [← leftPlanAt_eq] at hl
  rw [← rightPlanAt_eq] at hr
  have hk : sideSlot ch .l + 1 = sideSlot ch .r := by cases ch <;> rfl
  rw [hk] at hl
  exact outcome_bind hl fun _ => outcome_map hr

theorem headerFaults_eq (pl : Payload) (c0 : Nat) :
    (List.range 8).findSome? (headerByteFault pl c0) =
      orElse (orElse (headerByteFault pl c0 0) (headerByteFault pl c0 1))
        (orElse (orElse (headerByteFault pl c0 2) (headerByteFault pl c0 3))
          (orElse (orElse (headerByteFault pl c0 4) (headerByteFault pl c0 5))
            (orElse (headerByteFault pl c0 6) (headerByteFault pl c0 7)))) := by
  rw [show List.range 8 = [0, 1, 2, 3, 4, 5, 6, 7] from rfl]
  simp only [List.findSome?_cons, List.findSome?_nil]
  generalize headerByteFault pl c0 = f
  cases f 0 <;> cases f 1 <;> cases f 2 <;> cases f 3 <;> cases f 4 <;> cases f 5 <;> cases f 6 <;> cases f 7 <;> rfl

/-- The plans of a cacheline. -/
def plansAt (pl : Payload) (c0 : Nat) : PerChannel (PerSide Plan) :=
  ⟨⟨leftPlanAt pl c0 .g, rightPlanAt pl c0 .g⟩, ⟨leftPlanAt pl c0 .cr, rightPlanAt pl c0 .cr⟩,
    ⟨leftPlanAt pl c0 .cb, rightPlanAt pl c0 .cb⟩, ⟨leftPlanAt pl c0 .a, rightPlanAt pl c0 .a⟩⟩

/-- Stage 2, all channels. -/
theorem plans_outcome (pl : Payload) (c0 : Nat) :
    Outcome (forChannels fun ch => planChannel pl ((flagsAt pl c0).get ch) ((flagsAt pl (c0 + 8)).get ch)) (c0 + 16)
      ((List.range 8).findSome? (headerByteFault pl c0)) (plansAt pl c0) (deltaStart pl c0) := by
  rw [headerFaults_eq]
  refine outcome_bind (q' := headerAt pl c0 2) (planChannel_outcome pl c0 .g) fun _ => ?_
  refine outcome_bind (q' := headerAt pl c0 4) (planChannel_outcome pl c0 .cr) fun _ => ?_
  refine outcome_bind (q' := headerAt pl c0 6) (planChannel_outcome pl c0 .cb) fun _ => ?_
  exact outcome_map (planChannel_outcome pl c0 .a)

/-! ### A cacheline -/

/-- The fault of one cacheline's delta data. -/
def deltaFault (pl : Payload) (c0 : Nat) : Option (Detail × Nat) :=
  if 512 < slotStart pl c0 8 then some (.readPastEnd, 512) else none

/-- The samples of all channels. -/
def samplesAt (inherit : Config.RightInherit) (pl : Payload) (c0 : Nat) : PerChannel (PerSide Samples) :=
  ⟨channelSamplesAt inherit pl c0 .g, channelSamplesAt inherit pl c0 .cr, channelSamplesAt inherit pl c0 .cb,
    channelSamplesAt inherit pl c0 .a⟩

theorem slotStart_succ (pl : Payload) (c0 k : Nat) :
    slotStart pl c0 (k + 1) = slotStart pl c0 k + sideBits (planAt pl c0 (slotChannel k) (slotSide k)) := by
  rw [slotStart, slotStart, sumTo_succ, Nat.add_assoc]

/-- A left side never inherits, so what P held before does not matter. -/
theorem leftSamples_any (inherit : Config.RightInherit) (pl : Payload) (c0 : Nat) (ch : Channel) (q : Nat)
    (v w : Byte) :
    sideSamplesAt inherit pl (leftPlanAt pl c0 ch) q v = sideSamplesAt inherit pl (leftPlanAt pl c0 ch) q w := by
  unfold leftPlanAt
  cases hpAt pl c0 ch .l <;> cases cstAt pl c0 ch .l <;> rfl

theorem pairSamplesAt_eq (inherit : Config.RightInherit) (pl : Payload) (c0 : Nat) (ch : Channel) (v : Byte) :
    pairSamplesAt inherit pl ⟨leftPlanAt pl c0 ch, rightPlanAt pl c0 ch⟩ (slotStart pl c0 (sideSlot ch .l)) v =
      channelSamplesAt inherit pl c0 ch := by
  have h : slotStart pl c0 (sideSlot ch .l) + sideBits (leftPlanAt pl c0 ch) = slotStart pl c0 (sideSlot ch .r) := by
    have := slotStart_succ pl c0 (sideSlot ch .l)
    cases ch <;> exact this.symm
  rw [pairSamplesAt, channelSamplesAt, h, leftSamples_any inherit pl c0 ch _ v 0]

/-- The delta data of a cacheline, whatever P held before. -/
theorem samples_outcome (inherit : Config.RightInherit) (pl : Payload) (c0 : Nat) (old : PerChannel (PerSide Samples))
    (hd : deltaStart pl c0 ≤ 512) :
    Outcome (forChannels fun ch => reconstructChannel inherit pl ((plansAt pl c0).get ch) (old.get ch).l)
      (deltaStart pl c0) (deltaFault pl c0) (samplesAt inherit pl c0) (slotStart pl c0 8) := by
  have hs : ∀ ch, slotStart pl c0 (sideSlot ch .r + 1) = slotStart pl c0 (sideSlot ch .l) +
      (sideBits ((plansAt pl c0).get ch).l + sideBits ((plansAt pl c0).get ch).r) := by
    intro ch
    have h1 := slotStart_succ pl c0 (sideSlot ch .l)
    have h2 := slotStart_succ pl c0 (sideSlot ch .r)
    cases ch <;> (rw [h2, ← Nat.add_assoc]; exact congrArg (· + _) h1)
  have hg := hs .g
  have hcr := hs .cr
  have hcb := hs .cb
  have ha := hs .a
  simp only [sideSlot, Nat.reduceAdd] at hg hcr hcb ha
  have h0 : slotStart pl c0 0 = deltaStart pl c0 := rfl
  have hch : ∀ ch, slotStart pl c0 (sideSlot ch .r + 1) ≤ 512 →
      Answers (reconstructChannel inherit pl ((plansAt pl c0).get ch) (old.get ch).l) (slotStart pl c0 (sideSlot ch .l))
        (channelSamplesAt inherit pl c0 ch) (slotStart pl c0 (sideSlot ch .r + 1)) := by
    intro ch h
    have := answers_reconstructChannel inherit pl ((plansAt pl c0).get ch) (old.get ch).l
      (q := slotStart pl c0 (sideSlot ch .l)) (by rw [← hs]; exact h)
    rw [← hs] at this
    have e := pairSamplesAt_eq inherit pl c0 ch (old.get ch).l.upper[3]
    rw [← e]
    cases ch <;> exact this
  unfold deltaFault
  split
  · refine ⟨fun h => (by cases h), fun x h => ?_⟩
    cases h
    refine bitByBit_forChannels (fun ch => bitByBit_reconstructChannel inherit pl _ _)
      (fun ch q h => ⟨_, answers_reconstructChannel inherit pl _ _ h⟩) _ hd ?_
    omega
  · refine ⟨fun _ => ?_, fun x h => by cases h⟩
    exact answers_forChannels (hch .g (by simp only [sideSlot, Nat.reduceAdd]; omega))
      (hch .cr (by simp only [sideSlot, Nat.reduceAdd]; omega))
      (hch .cb (by simp only [sideSlot, Nat.reduceAdd]; omega)) (hch .a (by simp only [sideSlot, Nat.reduceAdd]; omega))

/-- Nothing but the cursor and the vendor-A registers changed. -/
def SameButA (d d' : Datapath) : Prop :=
  d' = { d with cur := d'.cur, hp := d'.hp, cst := d'.cst, plan := d'.plan, samples := d'.samples }

theorem sameButA_trans {d₁ d₂ d₃ : Datapath} (h : SameButA d₁ d₂) (h' : SameButA d₂ d₃) : SameButA d₁ d₃ := by
  unfold SameButA at h h' ⊢
  rw [h', h]

/-- What a micro-operation of the vendor-A decode does from d: f decides, as in Outcome, and `post` holds of the
internal registers after it. -/
def Runs (m : Micro α) (d : Datapath) (f : Option (Detail × Nat)) (a : α) (q' : Nat) (post : Datapath → Prop) : Prop :=
  (f = none → ∃ d', m d = .ok a d' ∧ d'.cur.val = q' ∧ SameButA d d' ∧ post d') ∧
  ∀ x, f = some x → ∃ d', m d = .error x.1 d' ∧ d'.cur.val = x.2 ∧ SameButA d d'

theorem Outcome.runs {m : Micro α} {q q' : Nat} {f : Option (Detail × Nat)} {a : α} (h : Outcome m q f a q')
    {d : Datapath} (hd : d.cur.val = q) : Runs m d f a q' fun d' => d' = { d with cur := d'.cur } := by
  refine ⟨fun hf => ?_, fun x hf => ?_⟩
  · obtain ⟨d', h1, h2, h3⟩ := h.1 hf d hd
    refine ⟨d', h1, h2, ?_, h3⟩
    unfold SameButA
    rw [h3]
  · obtain ⟨d', h1, h2, h3⟩ := h.2 x hf d hd
    refine ⟨d', h1, h2, ?_⟩
    unfold SameButA
    rw [h3]

theorem runs_bind {m : Micro α} {k : α → Micro β} {d : Datapath} {f g : Option (Detail × Nat)} {a : α} {b : β}
    {q' q'' : Nat} {post post' : Datapath → Prop} (hm : Runs m d f a q' post)
    (hk : ∀ d', f = none → d'.cur.val = q' → post d' → Runs (k a) d' g b q'' post') :
    Runs (m >>= k) d (orElse f g) b q'' post' := by
  cases f with
  | some x =>
    refine ⟨fun h => (by cases h), fun y h => ?_⟩
    obtain ⟨d', h1, h2, h3⟩ := hm.2 x rfl
    cases h
    exact ⟨d', micro_bind_error h1, h2, h3⟩
  | none =>
    obtain ⟨d', h1, h2, h3, h4⟩ := hm.1 rfl
    obtain ⟨h5, h6⟩ := hk d' rfl h2 h4
    refine ⟨fun h => ?_, fun y h => ?_⟩
    · obtain ⟨d'', h7, h8, h9, h10⟩ := h5 h
      exact ⟨d'', by rw [micro_bind_ok h1, h7], h8, sameButA_trans h3 h9, h10⟩
    · obtain ⟨d'', h7, h8, h9⟩ := h6 y h
      exact ⟨d'', by rw [micro_bind_ok h1, h7], h8, sameButA_trans h3 h9⟩

/-- All four patterns are legal. -/
def patternsLegal (pl : Payload) (c0 : Nat) : Prop :=
  legalAt pl c0 .g ∧ legalAt pl c0 .cr ∧ legalAt pl c0 .cb ∧ legalAt pl c0 .a

theorem checkPattern_eq (pl : Payload) (c0 : Nat) (ch : Channel) {d : Datapath} (hh : d.hp = flagsAt pl c0)
    (hc : d.cst = flagsAt pl (c0 + 8)) :
    checkPattern ch d = if legalAt pl c0 ch then .ok () d else .error .headerPattern d := by
  rw [← legalPattern_eq, checkPattern, hh, hc]
  rw [show ((flagsAt pl c0).get ch).l = hpAt pl c0 ch .l from flagsAt_hp pl c0 ch .l,
    show ((flagsAt pl c0).get ch).r = hpAt pl c0 ch .r from flagsAt_hp pl c0 ch .r,
    show ((flagsAt pl (c0 + 8)).get ch).l = cstAt pl c0 ch .l from flagsAt_cst pl c0 ch .l,
    show ((flagsAt pl (c0 + 8)).get ch).r = cstAt pl c0 ch .r from flagsAt_cst pl c0 ch .r]

/-- The pattern checks answer the fault of whichever channel is illegal, at the same place. -/
theorem checkPatterns_eq (pl : Payload) (c0 : Nat) (k : Micro α) {d : Datapath} (hh : d.hp = flagsAt pl c0)
    (hc : d.cst = flagsAt pl (c0 + 8)) :
    (checkPattern .g >>= fun _ => checkPattern .cr >>= fun _ => checkPattern .cb >>= fun _ => checkPattern .a >>=
      fun _ => k) d =
      if legalAt pl c0 .g ∧ legalAt pl c0 .cr ∧ legalAt pl c0 .cb ∧ legalAt pl c0 .a then k d
      else .error .headerPattern d := by
  simp only [micro_bind, checkPattern_eq pl c0 _ hh hc]
  cases h1 : legalAt pl c0 .g
  · simp
  simp only [if_true, checkPattern_eq pl c0 _ hh hc]
  cases h2 : legalAt pl c0 .cr
  · simp
  simp only [if_true, checkPattern_eq pl c0 _ hh hc]
  cases h3 : legalAt pl c0 .cb
  · simp
  simp only [if_true, checkPattern_eq pl c0 _ hh hc]
  cases h4 : legalAt pl c0 .a <;> simp

theorem headers_end (pl : Payload) (c0 : Nat) (hc : c0 + 16 ≤ 512)
    (h : (List.range 8).findSome? (headerByteFault pl c0) = none) : deltaStart pl c0 ≤ 512 := by
  obtain ⟨d', -, h2, -⟩ := (plans_outcome pl c0).1 h { (default : Datapath) with cur := ⟨c0 + 16, by omega⟩ } rfl
  have := d'.cur.isLt
  omega

/-- Everything one logical cacheline can do, whatever the internal registers hold. -/
theorem cachelineA_runs (inherit : Config.RightInherit) (pl : Payload) (d : Datapath) :
    Runs (cachelineA inherit pl) d (cachelineFault pl d.cur.val) (cachelinePixelsAt inherit pl d.cur.val)
      (slotStart pl d.cur.val 8) fun _ => True := by
  have hcur : d.cur.val ≤ 512 := by omega
  generalize hc0 : d.cur.val = c0 at *
  have hs := bitByBit_stageRound pl
  by_cases h16 : 512 < c0 + 16
  · -- stage 1 passes bit 511
    have hf : FaultsAt (stageRound pl >>= fun hp => stageRound pl >>= fun cst =>
        (modify fun d => { d with hp := hp, cst := cst } : Micro Unit) >>= fun _ => checkPattern .g >>= fun _ =>
          checkPattern .cr >>= fun _ => checkPattern .cb >>= fun _ => checkPattern .a >>= fun _ =>
            forChannels (fun ch => planChannel pl (hp.get ch) (cst.get ch)) >>= fun plan =>
              modify fun d => { d with plan := plan }) c0 .readPastEnd 512 := by
      by_cases h8 : 512 < c0 + 8
      · exact faultsAt_bind (hs c0 hcur h8)
      · exact faultsAt_bind_of_answers (answers_stageRound pl (by omega)) (faultsAt_bind (hs _ (by omega) (by omega)))
    have hn : cachelineFault pl c0 = some (.readPastEnd, 512) := by rw [cachelineFault, if_pos h16]
    rw [hn]
    refine ⟨fun h => (by cases h), fun x h => ?_⟩
    cases h
    obtain ⟨d', h1, h2, h3⟩ := hf d hc0
    refine ⟨d', micro_bind_error h1, h2, ?_⟩
    unfold SameButA
    rw [h3]
  · -- stage 1 is read
    obtain ⟨d₁, h1, hc1, he1⟩ := answers_stageRound pl (q := c0) (by omega) d hc0
    obtain ⟨d₂, h2, hc2, he2⟩ := answers_stageRound pl (q := c0 + 8) (by omega) d₁ hc1
    let d₃ : Datapath := { d₂ with hp := flagsAt pl c0, cst := flagsAt pl (c0 + 8) }
    have hs3 : SameButA d d₃ := by
      unfold SameButA
      simp only [d₃]
      rw [he2, he1]
    have hparse : ∀ k : Micro (List Pixel), (parseHeaderA pl >>= fun _ => k) d =
        if legalAt pl c0 .g ∧ legalAt pl c0 .cr ∧ legalAt pl c0 .cb ∧ legalAt pl c0 .a then
          (forChannels (fun ch => planChannel pl ((flagsAt pl c0).get ch) ((flagsAt pl (c0 + 8)).get ch)) >>= fun plan =>
            (modify fun d => { d with plan := plan } : Micro Unit) >>= fun _ => k) d₃
        else .error .headerPattern d₃ := by
      intro k
      unfold parseHeaderA
      simp only [bind_assoc]
      rw [micro_bind_ok h1, micro_bind_ok h2, micro_bind_ok (micro_modify _ d₂)]
      exact checkPatterns_eq pl c0 _ rfl rfl
    have hrun : cachelineA inherit pl d = _ := hparse _
    unfold Runs
    rw [hrun]
    by_cases hl : legalAt pl c0 .g ∧ legalAt pl c0 .cr ∧ legalAt pl c0 .cb ∧ legalAt pl c0 .a
    · have hf : cachelineFault pl c0 =
          orElse ((List.range 8).findSome? (headerByteFault pl c0)) (deltaFault pl c0) := by
        rw [cachelineFault, if_neg h16, if_neg (not_not.2 hl)]
        rfl
      rw [if_pos hl, hf]
      have hd3 : d₃.cur.val = c0 + 16 := by
        simp only [d₃]
        omega
      have key : Runs (forChannels (fun ch => planChannel pl ((flagsAt pl c0).get ch) ((flagsAt pl (c0 + 8)).get ch)) >>=
          fun plan => (modify fun d => { d with plan := plan } : Micro Unit) >>= fun _ =>
            reconstructA inherit pl >>= fun _ => get >>= fun d => pure (assembleA d.samples)) d₃
          (orElse ((List.range 8).findSome? (headerByteFault pl c0)) (deltaFault pl c0))
          (cachelinePixelsAt inherit pl c0) (slotStart pl c0 8) fun _ => True := by
        refine runs_bind ((plans_outcome pl c0).runs hd3) fun d₄ hn hc4 _ => ?_
        have hds := headers_end pl c0 (by omega) hn
        let d₅ : Datapath := { d₄ with plan := plansAt pl c0 }
        have h5 := (samples_outcome inherit pl c0 d₅.samples hds).runs (d := d₅) hc4
        refine ⟨fun hf => ?_, fun x hf => ?_⟩
        · obtain ⟨d₆, g1, g2, g3, g4⟩ := h5.1 hf
          refine ⟨{ d₆ with samples := samplesAt inherit pl c0 }, ?_, g2, ?_, trivial⟩
          · rw [micro_bind_ok (micro_modify _ d₄)]
            unfold reconstructA
            simp only [bind_assoc]
            rw [micro_bind_ok (micro_get _), micro_bind_ok g1, micro_bind_ok (micro_modify _ d₆),
              micro_bind_ok (micro_get _)]
            rfl
          · unfold SameButA at g3 ⊢
            simp only [d₅] at g3
            rw [g3]
        · obtain ⟨d₆, g1, g2, g3⟩ := h5.2 x hf
          refine ⟨d₆, ?_, g2, ?_⟩
          · rw [micro_bind_ok (micro_modify _ d₄)]
            unfold reconstructA
            simp only [bind_assoc]
            rw [micro_bind_ok (micro_get _), micro_bind_error g1]
          · unfold SameButA at g3 ⊢
            simp only [d₅] at g3
            rw [g3]
      refine ⟨fun h => ?_, fun x h => ?_⟩
      · obtain ⟨d', g1, g2, g3, -⟩ := key.1 h
        exact ⟨d', g1, g2, sameButA_trans hs3 g3, trivial⟩
      · obtain ⟨d', g1, g2, g3⟩ := key.2 x h
        exact ⟨d', g1, g2, sameButA_trans hs3 g3⟩
    · rw [if_neg hl, cachelineFault, if_neg h16, if_pos hl]
      refine ⟨fun h => (by cases h), fun x h => ?_⟩
      cases h
      refine ⟨d₃, rfl, ?_, hs3⟩
      simp only [d₃]
      omega

end Sys2Proof.Machine
end

