-- ==== Sys2Proof/Laws/Records.lean ====
section
/-!
SUPPORT. What the vendor-B units answer, and where they fault, in the terms of the layouts of Safety.lean: the fields
of the two headers, a record, a run of records and the extension walk.
-/

namespace Sys2Proof.Machine

variable {α β : Type}

/-! ### Sequences -/

theorem outcome_pure (a : α) (q : Nat) : Outcome (pure a : Micro α) q none a q :=
  ⟨fun _ => answers_pure a q, fun x h => by cases h⟩

theorem outcome_of_answers {m : Micro α} {q q' : Nat} {a : α} (h : Answers m q a q') : Outcome m q none a q' :=
  ⟨fun _ => h, fun x h => by cases h⟩

/-- m, n times over: the first fault decides. -/
theorem outcome_repeatMicro {m : Micro α} {f : Nat → Option (Detail × Nat)} {a : Nat → α} {p : Nat → Nat} {n : Nat}
    (h : ∀ i < n, Outcome m (p i) (f i) (a i) (p (i + 1))) :
    Outcome (repeatMicro m n) (p 0) ((List.range n).findSome? f) ((List.range n).map a) (p n) := by
  induction n generalizing f a p with
  | zero => exact outcome_pure _ _
  | succ n ih =>
    have h0 := h 0 (by omega)
    have h1 := ih (f := fun i => f (i + 1)) (a := fun i => a (i + 1)) (p := fun i => p (i + 1))
      fun i hi => h (i + 1) (by omega)
    have he : (List.range (n + 1)).findSome? f = orElse (f 0) ((List.range n).findSome? fun i => f (i + 1)) := by
      rw [List.range_succ_eq_map, List.findSome?_cons, List.findSome?_map]
      cases f 0 <;> rfl
    rw [he, List.range_succ_eq_map, List.map_cons, List.map_map]
    exact outcome_bind (k := fun x => repeatMicro m n >>= fun xs => pure (x :: xs)) h0 fun _ => outcome_map h1

/-- The fault of one must-be-zero region. -/
def regionFault (pl : Payload) (q r : Nat) : Option (Detail × Nat) :=
  (zeroFault pl q r).map fun pos => (.nonzeroReserved, pos)

theorem regionsFault_eq (pl : Payload) (rs : List (Nat × Nat)) :
    regionsFault pl rs = rs.findSome? fun qr => regionFault pl qr.1 qr.2 := by
  unfold regionsFault
  induction rs with
  | nil => rfl
  | cons r rs ih =>
    rw [List.findSome?_cons, List.findSome?_cons, regionFault]
    cases h : zeroFault pl r.1 r.2 with
    | none => exact ih
    | some pos => rfl

theorem outcome_expectZeroBits (pl : Payload) {n q : Nat} (h : q + n ≤ 512) :
    Outcome (expectZeroBits pl n) q (regionFault pl q (q + n)) () (q + n) := by
  unfold regionFault
  cases hz : zeroFault pl q (q + n) with
  | none => exact ⟨fun _ => answers_expectZeroBits h hz, fun x h => by cases h⟩
  | some pos =>
    refine ⟨fun h => (by cases h), fun x hx => ?_⟩
    cases hx
    exact faultsAt_expectZeroBits h hz

/-! ### Components -/

theorem answers_forComponents {f : Component → Micro α} {q0 q1 q2 q3 q4 : Nat} {r g b a : α}
    (hr : Answers (f .r) q0 r q1) (hg : Answers (f .g) q1 g q2) (hb : Answers (f .b) q2 b q3)
    (ha : Answers (f .a) q3 a q4) : Answers (forComponents f) q0 ⟨r, g, b, a⟩ q4 :=
  answers_bind hr (answers_bind hg (answers_bind hb (answers_bind ha (answers_pure _ _))))

/-- Fields in the order O: the one at place k goes from p k to p (k + 1). -/
theorem answers_forOrder {f : Component → Micro α} (pred : Bool) {p : Nat → Nat} {v : Component → α}
    (h : ∀ c : Component, Answers (f c) (p (c.order pred)) (v c) (p (c.order pred + 1))) :
    Answers (forOrder pred f) (p 0) ⟨v .r, v .g, v .b, v .a⟩ (p 4) := by
  cases pred with
  | true => exact answers_bind (h .b) (answers_bind (h .r) (answers_bind (h .g) (answers_bind (h .a) (answers_pure _ _))))
  | false => exact answers_forComponents (h .r) (h .g) (h .b) (h .a)

/-! ### gen8 -/

theorem gen8Coded_succ (pl : Payload) (n : Nat) :
    gen8Coded pl (n + 1) = gen8Coded pl n + if payloadBit pl n then 0 else 1 := by
  have hle : setBits pl 0 n ≤ n := by
    induction n with
    | zero => simp [setBits]
    | succ n ih =>
      rw [setBits_succ]
      split <;> omega
  rw [gen8Coded, gen8Coded, setBits_succ, Nat.zero_add]
  split <;> omega

theorem gen8WidthsBefore_succ (pl : Payload) (n : Nat) :
    gen8WidthsBefore pl (n + 1) = gen8WidthsBefore pl n + gen8WidthAt pl (componentAt n) := sumTo_succ _ _

/-- SKIP, by the layout. -/
def gen8Skips (pl : Payload) : Rgba Bool := ⟨gen8SkipAt pl .r, gen8SkipAt pl .g, gen8SkipAt pl .b, gen8SkipAt pl .a⟩

/-- BASE_B, by the layout. -/
def gen8Bases (pl : Payload) : Rgba Byte := ⟨gen8BaseAt pl .r, gen8BaseAt pl .g, gen8BaseAt pl .b, gen8BaseAt pl .a⟩

theorem gen8WidthAt_lt (pl : Payload) (c : Component) : gen8WidthAt pl c < 8 := by
  unfold gen8WidthAt
  split
  · omega
  · exact bitsAt_lt pl _ 3 (by omega)

/-- WB, by the layout. -/
def gen8Widths (pl : Payload) : Rgba (Fin 8) :=
  ⟨⟨gen8WidthAt pl .r, gen8WidthAt_lt pl .r⟩, ⟨gen8WidthAt pl .g, gen8WidthAt_lt pl .g⟩,
    ⟨gen8WidthAt pl .b, gen8WidthAt_lt pl .b⟩, ⟨gen8WidthAt pl .a, gen8WidthAt_lt pl .a⟩⟩

theorem widthSum_gen8 (pl : Payload) : widthSum (gen8Widths pl) = gen8WidthsBefore pl 4 := by
  simp only [gen8WidthsBefore_succ]
  simp [widthSum, gen8Widths, gen8WidthsBefore, sumTo, componentAt]

theorem answers_gen8Skips (pl : Payload) : Answers (forComponents fun _ => readFlag pl) 0 (gen8Skips pl) 4 :=
  answers_forComponents (answers_readFlag pl (by omega)) (answers_readFlag pl (by omega))
    (answers_readFlag pl (by omega)) (answers_readFlag pl (by omega))

theorem answers_gen8Bases (pl : Payload) : Answers (forComponents fun _ => readBits pl 8) 4 (gen8Bases pl) 36 :=
  answers_forComponents (answers_readBits pl (by omega)) (answers_readBits pl (by omega))
    (answers_readBits pl (by omega)) (answers_readBits pl (by omega))

theorem answers_gen8Width (pl : Payload) (c : Component) :
    Answers (gen8Width pl ((gen8Skips pl).get c)) (36 + 3 * gen8Coded pl c.index)
      ⟨gen8WidthAt pl c, gen8WidthAt_lt pl c⟩ (36 + 3 * gen8Coded pl (c.index + 1)) := by
  have hs : (gen8Skips pl).get c = gen8SkipAt pl c := by cases c <;> rfl
  have hle : gen8Coded pl c.index ≤ 3 := by
    have h : c.index ≤ 3 := by cases c <;> decide
    unfold gen8Coded
    omega
  rw [hs, gen8Coded_succ]
  have hb : payloadBit pl c.index = gen8SkipAt pl c := rfl
  rw [hb]
  cases hk : gen8SkipAt pl c with
  | true =>
    have hw : (⟨gen8WidthAt pl c, gen8WidthAt_lt pl c⟩ : Fin 8) = 0 := Fin.ext (by simp [gen8WidthAt, hk])
    rw [hw]
    exact answers_pure _ _
  | false =>
    have hw : gen8WidthAt pl c = (bitsAt pl (36 + 3 * gen8Coded pl c.index) 3).toNat := by simp [gen8WidthAt, hk]
    simp only [hw]
    exact answers_readWidth pl (q := 36 + 3 * gen8Coded pl c.index) (by omega)

theorem answers_gen8Widths (pl : Payload) :
    Answers (forComponents fun c => gen8Width pl ((gen8Skips pl).get c)) 36 (gen8Widths pl)
      (36 + 3 * gen8Coded pl 4) := by
  have h0 : 36 + 3 * gen8Coded pl 0 = 36 := by simp [gen8Coded]
  have := answers_forComponents (f := fun c => gen8Width pl ((gen8Skips pl).get c)) (answers_gen8Width pl .r) (answers_gen8Width pl .g) (answers_gen8Width pl .b)
    (answers_gen8Width pl .a)
  simp only [Component.index, h0] at this
  exact this

theorem answers_gen8Component (pl : Payload) (i : Nat) (c : Component)
    (h : gen8RecordAt pl i + gen8WidthsBefore pl (c.index + 1) ≤ 512) :
    Answers (gen8Component pl ((gen8Skips pl).get c) ((gen8Bases pl).get c) ((gen8Widths pl).get c))
      (gen8RecordAt pl i + gen8WidthsBefore pl c.index) (gen8ByteAt pl i c)
      (gen8RecordAt pl i + gen8WidthsBefore pl (c.index + 1)) := by
  have hs : (gen8Skips pl).get c = gen8SkipAt pl c := by cases c <;> rfl
  have hb : (gen8Bases pl).get c = gen8BaseAt pl c := by cases c <;> rfl
  have hw : ((gen8Widths pl).get c).val = gen8WidthAt pl c := by cases c <;> rfl
  have hc : componentAt c.index = c := by cases c <;> rfl
  rw [gen8WidthsBefore_succ, hc] at h ⊢
  have hz : gen8SkipAt pl c = true → gen8WidthAt pl c = 0 := fun hk => by simp [gen8WidthAt, hk]
  unfold gen8Component gen8ByteAt
  rw [hs, hb, hw]
  cases hk : gen8SkipAt pl c with
  | true =>
    rw [hz hk]
    exact answers_pure _ _
  | false =>
    rw [← Nat.add_assoc]
    exact answers_bind (answers_readBits pl (by omega)) (answers_pure _ _)

/-- Pixel i of a gen8 payload. -/
def gen8PixelAt (pl : Payload) (i : Nat) : Pixel :=
  ⟨gen8ByteAt pl i .r, gen8ByteAt pl i .g, gen8ByteAt pl i .b, gen8ByteAt pl i .a⟩

/-- One gen8 record: its pixel, and the fault of its tail. -/
theorem gen8Record_outcome (pl : Payload) (i : Nat) (hw : gen8WidthsBefore pl 4 ≤ 14)
    (hr : gen8RecordAt pl (i + 1) ≤ 512) :
    Outcome (gen8Record pl (gen8Skips pl) (gen8Bases pl) (gen8Widths pl)) (gen8RecordAt pl i)
      (regionFault pl (gen8RecordAt pl i + gen8WidthsBefore pl 4) (gen8RecordAt pl (i + 1))) (gen8PixelAt pl i)
      (gen8RecordAt pl (i + 1)) := by
  have hn : gen8RecordAt pl (i + 1) = gen8RecordAt pl i + 14 := by
    unfold gen8RecordAt
    omega
  have h4 : gen8WidthsBefore pl 4 = gen8WidthsBefore pl 3 + gen8WidthAt pl .a := gen8WidthsBefore_succ pl 3
  have h3 : gen8WidthsBefore pl 3 = gen8WidthsBefore pl 2 + gen8WidthAt pl .b := gen8WidthsBefore_succ pl 2
  have h2 : gen8WidthsBefore pl 2 = gen8WidthsBefore pl 1 + gen8WidthAt pl .g := gen8WidthsBefore_succ pl 1
  have h0 : gen8RecordAt pl i + gen8WidthsBefore pl 0 = gen8RecordAt pl i := by simp [gen8WidthsBefore, sumTo]
  have hpx := answers_forComponents
    (f := fun c => gen8Component pl ((gen8Skips pl).get c) ((gen8Bases pl).get c) ((gen8Widths pl).get c))
    (answers_gen8Component pl i .r (by simp only [Component.index, Nat.reduceAdd]; omega))
    (answers_gen8Component pl i .g (by simp only [Component.index, Nat.reduceAdd]; omega))
    (answers_gen8Component pl i .b (by simp only [Component.index, Nat.reduceAdd]; omega))
    (answers_gen8Component pl i .a (by simp only [Component.index, Nat.reduceAdd]; omega))
  simp only [Component.index, h0] at hpx
  have hz := outcome_expectZeroBits pl (n := 14 - widthSum (gen8Widths pl))
    (q := gen8RecordAt pl i + gen8WidthsBefore pl 4) (by rw [widthSum_gen8]; omega)
  have he : gen8RecordAt pl i + gen8WidthsBefore pl 4 + (14 - widthSum (gen8Widths pl)) = gen8RecordAt pl (i + 1) := by
    rw [widthSum_gen8]
    omega
  rw [he] at hz
  exact outcome_bind (f := none) (outcome_of_answers hpx) fun _ => outcome_map hz

/-! ### gen11 -/

theorem gen11WidthsBefore_succ (pl : Payload) (pred : Bool) (n : Nat) :
    gen11WidthsBefore pl pred (n + 1) = gen11WidthsBefore pl pred n + gen11WidthAt pl pred (orderAt pred n) :=
  sumTo_succ _ _

/-- BASE_B, by the layout. -/
def gen11Bases (pl : Payload) (pred : Bool) : Rgba Byte :=
  ⟨gen11BaseAt pl pred .r, gen11BaseAt pl pred .g, gen11BaseAt pl pred .b, gen11BaseAt pl pred .a⟩

theorem gen11WidthAt_lt (pl : Payload) (pred : Bool) (c : Component) : gen11WidthAt pl pred c < 8 :=
  bitsAt_lt pl _ 3 (by omega)

/-- WB, by the layout. -/
def gen11Widths (pl : Payload) (pred : Bool) : Rgba (Fin 8) :=
  ⟨⟨gen11WidthAt pl pred .r, gen11WidthAt_lt pl pred .r⟩, ⟨gen11WidthAt pl pred .g, gen11WidthAt_lt pl pred .g⟩,
    ⟨gen11WidthAt pl pred .b, gen11WidthAt_lt pl pred .b⟩, ⟨gen11WidthAt pl pred .a, gen11WidthAt_lt pl pred .a⟩⟩

/-- The deltas of the record at bit q, by the layout. -/
def gen11Deltas (pl : Payload) (pred : Bool) (q : Nat) : Rgba Byte :=
  ⟨gen11DeltaAt pl pred q .r, gen11DeltaAt pl pred q .g, gen11DeltaAt pl pred q .b, gen11DeltaAt pl pred q .a⟩

theorem widthSum_gen11 (pl : Payload) (pred : Bool) :
    widthSum (gen11Widths pl pred) = gen11WidthsBefore pl pred 4 := by
  simp only [gen11WidthsBefore_succ]
  cases pred <;> (simp [widthSum, gen11Widths, gen11WidthsBefore, sumTo, orderAt]; try omega)

theorem answers_gen11Bases (pl : Payload) (pred : Bool) :
    Answers (forOrder pred fun _ => readBits pl 8) 0 (gen11Bases pl pred) 32 := by
  refine answers_forOrder (p := fun k => 8 * k) pred fun c => ?_
  have h : c.order pred ≤ 3 := by cases c <;> cases pred <;> decide
  exact answers_readBits pl (by omega)

theorem answers_gen11Widths (pl : Payload) (pred : Bool) :
    Answers (forOrder pred fun _ => readWidth pl) 32 (gen11Widths pl pred) 44 := by
  refine answers_forOrder (f := fun _ => readWidth pl) (p := fun k => 32 + 3 * k) pred
    (v := fun c => ⟨gen11WidthAt pl pred c, gen11WidthAt_lt pl pred c⟩) fun c => ?_
  have h : c.order pred ≤ 3 := by cases c <;> cases pred <;> decide
  exact answers_readWidth pl (by omega)

theorem answers_gen11Deltas (pl : Payload) (pred : Bool) {q : Nat} (h : q + gen11WidthsBefore pl pred 4 ≤ 512) :
    Answers (forOrder pred fun c => readBits pl ((gen11Widths pl pred).get c).val) q (gen11Deltas pl pred q)
      (q + gen11WidthsBefore pl pred 4) := by
  refine answers_forOrder (p := fun k => q + gen11WidthsBefore pl pred k) pred
    (v := fun c => gen11DeltaAt pl pred q c) fun c => ?_
  have ho : orderAt pred (c.order pred) = c := by cases c <;> cases pred <;> rfl
  have hw : ((gen11Widths pl pred).get c).val = gen11WidthAt pl pred c := by cases c <;> rfl
  have hmono : gen11WidthsBefore pl pred (c.order pred + 1) ≤ gen11WidthsBefore pl pred 4 := by
    simp only [gen11WidthsBefore_succ pl pred 3, gen11WidthsBefore_succ pl pred 2, gen11WidthsBefore_succ pl pred 1]
    cases c <;> cases pred <;> simp only [Component.order, if_true, if_false, Bool.false_eq_true, Nat.reduceAdd,
      gen11WidthsBefore_succ pl _ 3, gen11WidthsBefore_succ pl _ 2, gen11WidthsBefore_succ pl _ 1] <;> omega
  rw [gen11WidthsBefore_succ, ho] at hmono ⊢
  rw [hw, ← Nat.add_assoc]
  exact answers_readBits pl (by omega)

/-- The two reconstructions, in bytes and in numbers. -/
theorem gen11Pixel_eq (pl : Payload) (pred : Bool) (q : Nat) :
    gen11Pixel pred (gen11Bases pl pred) (gen11Deltas pl pred q) = gen11PixelAt pl pred q := by
  unfold gen11PixelAt
  cases pred with
  | true =>
    simp only [gen11Pixel, predictedPixel, gen11Bases, gen11Deltas, if_true, add8, avg8, Rgba.mk.injEq]
    refine ⟨?_, ?_, ?_, ?_⟩ <;> apply BitVec.eq_of_toNat_eq <;> simp
  | false =>
    simp only [gen11Pixel, independentPixel, gen11Bases, gen11Deltas, Bool.false_eq_true, if_false, add8, Rgba.mk.injEq]
    refine ⟨?_, ?_, ?_, ?_⟩ <;> apply BitVec.eq_of_toNat_eq <;> simp

/-- The fault of the tail of the record at bit q. -/
def tailFault (pl : Payload) (pred : Bool) (budget q : Nat) : Option (Detail × Nat) :=
  regionFault pl (q + gen11WidthsBefore pl pred 4) (q + budget)

/-- One gen11 record: its pixel, and the fault of its tail. -/
theorem gen11Record_outcome (pl : Payload) (mp : ModeParams) {q : Nat}
    (hw : gen11WidthsBefore pl mp.pred 4 ≤ mp.budget) (hq : q + mp.budget ≤ 512) :
    Outcome (gen11Record pl mp (gen11Bases pl mp.pred) (gen11Widths pl mp.pred)) q (tailFault pl mp.pred mp.budget q)
      (gen11PixelAt pl mp.pred q) (q + mp.budget) := by
  have hz := outcome_expectZeroBits pl (n := mp.budget - widthSum (gen11Widths pl mp.pred))
    (q := q + gen11WidthsBefore pl mp.pred 4) (by rw [widthSum_gen11]; omega)
  have he : q + gen11WidthsBefore pl mp.pred 4 + (mp.budget - widthSum (gen11Widths pl mp.pred)) = q + mp.budget := by
    rw [widthSum_gen11]
    omega
  rw [he] at hz
  rw [← gen11Pixel_eq]
  exact outcome_bind (f := none) (outcome_of_answers (answers_gen11Deltas pl mp.pred (by omega))) fun _ =>
    outcome_map hz

/-! ### The extension walk -/

/-- The records a list of sub-windows takes. -/
def recordsOf : List Bool → Nat
  | [] => 0
  | u :: us => (if u then 1 else 4) + recordsOf us

/-- The pixels of a list of sub-windows whose first record is record r. -/
def windowPixels (px : Nat → Pixel) : List Bool → Nat → List Pixel
  | [], _ => []
  | u :: us, r =>
    (if u then List.replicate 4 (px r) else [px r, px (r + 1), px (r + 2), px (r + 3)]) ++
      windowPixels px us (r + if u then 1 else 4)

theorem orElse_none (f : Option (Detail × Nat)) : orElse f none = f := by cases f <;> rfl

theorem orElse_assoc (f g h : Option (Detail × Nat)) : orElse (orElse f g) h = orElse f (orElse g h) := by
  cases f <;> rfl

/-- The first fault among n + k records is the first among n, then among the k after them. -/
theorem findSome_add (f : Nat → Option (Detail × Nat)) (n k : Nat) :
    (List.range (n + k)).findSome? f =
      orElse ((List.range n).findSome? f) ((List.range k).findSome? fun i => f (n + i)) := by
  rw [List.range_add, List.findSome?_append, List.findSome?_map]
  cases (List.range n).findSome? f <;> rfl

/-- The sub-windows from record r on: records run from p r, one after the other. -/
theorem extensionWalk_outcome {record : Micro Pixel} {f : Nat → Option (Detail × Nat)} {px : Nat → Pixel}
    {p : Nat → Nat} (us : List Bool) (r : Nat)
    (h : ∀ i < recordsOf us, Outcome record (p (r + i)) (f (r + i)) (px (r + i)) (p (r + i + 1))) :
    Outcome (extensionWalk record us) (p r) ((List.range (recordsOf us)).findSome? fun i => f (r + i))
      (windowPixels px us r) (p (r + recordsOf us)) := by
  induction us generalizing r with
  | nil => exact outcome_pure _ _
  | cons u us ih =>
    cases u with
    | true =>
      have hn : recordsOf (true :: us) = 1 + recordsOf us := rfl
      rw [hn] at h ⊢
      have h0 := h 0 (by omega)
      have hs : Outcome (subWindow record true) (p r) (f r) (List.replicate 4 (px r)) (p (r + 1)) := outcome_map h0
      have hr := ih (r + 1) fun i hi => by
        have := h (1 + i) (by omega)
        rwa [← Nat.add_assoc] at this
      rw [findSome_add]
      have h1 : (List.range 1).findSome? (fun i => f (r + i)) = f r := by
        simp [List.range_succ]
      rw [h1]
      simp only [← Nat.add_assoc]
      exact outcome_bind hs fun _ => outcome_map hr
    | false =>
      have hn : recordsOf (false :: us) = 4 + recordsOf us := rfl
      rw [hn] at h ⊢
      have hs : Outcome (subWindow record false) (p r) ((List.range 4).findSome? fun i => f (r + i))
          [px r, px (r + 1), px (r + 2), px (r + 3)] (p (r + 4)) :=
        outcome_repeatMicro (f := fun i => f (r + i)) (a := fun i => px (r + i)) (p := fun i => p (r + i)) (n := 4)
          fun i hi => h i (by omega)
      have hr := ih (r + 4) fun i hi => by
        have := h (4 + i) (by omega)
        rwa [← Nat.add_assoc] at this
      rw [findSome_add]
      simp only [← Nat.add_assoc]
      exact outcome_bind hs fun _ => outcome_map hr

end Sys2Proof.Machine
end

