-- ==== Sys2Proof/Tests/Slice0.lean ====
section
/-!
SUPPORT. Tests. Expected results are the spec's own: its worked examples and the vectors of 95_test_vectors.md, whose ids
are given (V-.., P., F.), or a calculation by hand from the rule that is named. The witnesses show that the hypotheses
of the statements can be met.
-/

namespace Sys2Proof.Tests

open Sys2Proof Sys2Proof.Machine

-- One theorem at a time: many kernel evaluations at once need more threads than the check allows.
set_option Elab.async false

/-! ### Helpers -/

/-- A payload: the bytes given, then zeros. -/
def payloadOf (bs : List Byte) : Payload := Vector.ofFn fun k => bs.getD k.val 0

/-- A machine that waits, with its parameters, a payload and a command word. -/
def waitingWith (p : Config.Parameters) (bs : List Byte) (cmd : Word) : State :=
  { payload := payloadOf bs, cmd := cmd, status := Status.atReset, outlen := 0, out := Vector.replicate 256 0,
    dp := default, parameters := p, inputs := [], readData := .nothing, draws := 0 }

/-- The same with the default parameters. -/
def waiting (bs : List Byte) (cmd : Word) : State := waitingWith .defaults bs cmd

/-- Mode codes other than the defaults: MODE_A_4CL and MODE_A_2CL exchanged, MODE_B_GEN8 0xFF. -/
def otherCodes : Config.ModeCodes :=
  { a4cl := 2, a3cl := 3, a2cl := 4, bGen8 := 0xFF, bG11S0 := 1, bG11S1 := 2, bG11S2 := 3, bG11S3 := 4,
    distinctA := by decide, distinctB := by decide }

/-- The default parameters but for the mode codes. -/
def otherParameters : Config.Parameters := { rightInherit := .chain, codes := otherCodes }

/-- A machine in which START has dispatched a command. -/
def started (bs : List Byte) (c : Command) : State := startDecode (waiting bs (encodeCommand .defaults c))

/-- The internal registers with the cursor at a place. -/
def atCur (n : Fin 513) : Datapath := { (default : Datapath) with cur := n }

/-- The STATUS word of a next state. -/
def statusAfter : Host.Outcome State Fault Refusal → Option Word
  | .next t => some t.status.word
  | .fault _ => none
  | .refused _ => none

/-- What a next state's last read returned. -/
def readAfter : Host.Outcome State Fault Refusal → Option ReadData
  | .next t => some t.readData
  | .fault _ => none
  | .refused _ => none

/-- Four bytes of OUT in a next state, from a pixel index. -/
def pixelAfter (k : Fin 64) : Host.Outcome State Fault Refusal → Option (List Byte)
  | .next t => some [t.out[4 * k.val]'(by omega), t.out[4 * k.val + 1]'(by omega), t.out[4 * k.val + 2]'(by omega),
      t.out[4 * k.val + 3]'(by omega)]
  | .fault _ => none
  | .refused _ => none

/-- Whether the outcome is the refusal of a write while BUSY. -/
def refusedBusy : Host.Outcome State Fault Refusal → Bool
  | .refused r => r == .writeWhileBusy
  | .next _ => false
  | .fault _ => false

/-- The value and the cursor of a micro-operation that ends well. -/
def valueAndCur {α : Type} : EStateM.Result Detail Datapath α → Option (α × Nat)
  | .ok a d => some (a, d.cur.val)
  | .error _ _ => none

/-- The detail and the cursor of one that faults. -/
def faultAndCur {α : Type} : EStateM.Result Detail Datapath α → Option (Detail × Nat)
  | .ok _ _ => none
  | .error e d => some (e, d.cur.val)

/-- One instruction after another. -/
def thenExec (i : Instr) : Host.Outcome State Fault Refusal → Host.Outcome State Fault Refusal
  | .next t => exec i t
  | .fault r => .fault r
  | .refused r => .refused r

/-- One more step. -/
def thenStep : Host.Outcome State Fault Refusal → Host.Outcome State Fault Refusal
  | .next t => step t
  | .fault r => .fault r
  | .refused r => .refused r

/-- A view of the registers a micro-operation leaves when it ends well. -/
def dpAfter {α β : Type} (view : Datapath → β) : EStateM.Result Detail Datapath α → Option β
  | .ok _ d => some (view d)
  | .error _ _ => none

/-- The G channel of the pixels of the cacheline at bit 0, and its end. -/
def greens (inherit : Config.RightInherit) (bs : List Byte) : Option (List Nat × Nat) :=
  match cachelineA inherit (payloadOf bs) (atCur 0) with
  | .ok px d => some (px.map fun p => p.g.toNat, d.cur.val)
  | .error _ _ => none

/-- LP and the cursor after a gen11 decode with PRED given (parameter set TP). -/
def gen11Result (c : Command) (pred : Bool) (bs : List Byte) : Option (List (List Nat) × Nat) :=
  match decodeGen11 (payloadOf bs) { c.params with pred := pred } (atCur 0) with
  | .ok _ d => some (d.lp.toList.map fun p => [p.r.toNat, p.g.toNat, p.b.toNat, p.a.toNat], d.cur.val)
  | .error _ _ => none

/-- P1's payload. -/
def p1 : List Byte := (List.replicate 4 [0x55, 0xFF, 0x0A, 0x14, 0x1E, 0xFF]).flatten

/-- P2's payload. -/
def p2 : List Byte :=
  [0x55, 0xFC, 0x50, 0x05, 0xFB, 0xFF, 0xBD, 0x8E, 0x29, 0x4D, 0x05, 0xBD, 0x8E, 0x29, 0x4D, 0x05, 0xC2, 0xFE, 0x33,
   0x80, 0x40, 0xA4, 0xD2, 0x00, 0x11, 0x69, 0x23]

/-- P4's payload. -/
def p4 : List Byte :=
  [0x40, 0x08, 0xF0, 0x80, 0xDB, 0x54, 0x05, 0x1C, 0x04, 0x06, 0x8A, 0xC3, 0x64, 0xC1, 0x79, 0x08, 0x05, 0x03, 0x01,
   0xC3] ++
  [0x50, 0x51, 0x78, 0x1C, 0xC4, 0x40, 0x21, 0xE0, 0x28, 0x5C, 0x12, 0x98, 0x86, 0x11, 0x70, 0x00, 0x20, 0x08, 0x11,
   0x84, 0x86, 0x01]

/-- The cacheline of V-A-TT-1000, 128 bits; four of them fill the payload. -/
def tt1000 : List Byte :=
  [0x55, 0xFC, 0x50, 0x00, 0x00, 0xFF, 0xBD, 0x8E, 0x29, 0x4D, 0x05, 0xBD, 0x8E, 0x29, 0x4D, 0x05]

/-- The payload of V-B11-HALF. -/
def half : List Byte := [0x10, 0x20, 0x30, 0x40, 0x92, 0x04] ++ (List.replicate 4 [0x0C, 0xC1, 0x20, 0x0C, 0xC3, 0x00]).flatten

/-! ### Well-formedness -/

theorem test_wf_start_needs_bit0 : ¬ (Instr.start 0xFFFFFFFE).WellFormed := by decide
theorem test_wf_start : (Instr.start 1).WellFormed := by decide
theorem test_wf_wrctrl0_needs_no_bit0 : ¬ (Instr.wrctrl0 1).WellFormed := by decide
theorem test_wf_wrctrl0 : (Instr.wrctrl0 0xFFFFFFFE).WellFormed := by decide

/-! ### Decoding: words written out from 30_encoding.md R70, R75, R82 and 95_test_vectors.md section 3 -/

theorem test_decode_a4 : decodeTableWord 32 0b0000000000000000000000_0_0_00000100 = some .decodeA4 := by decide
theorem test_decode_a3 : decodeTableWord 32 0b0000000000000000000000_0_0_00000011 = some .decodeA3 := by decide
theorem test_decode_a2 : decodeTableWord 32 0b0000000000000000000000_0_0_00000010 = some .decodeA2 := by decide
theorem test_decode_b8 : decodeTableWord 32 0b0000000000000000000000_0_1_00000000 = some .decodeB8 := by decide
theorem test_decode_b11s0 : decodeTableWord 32 0b0000000000000000000000_0_1_00000001 = some .decodeB11S0 := by decide
theorem test_decode_b11s1 : decodeTableWord 32 0b0000000000000000000000_0_1_00000010 = some .decodeB11S1 := by decide
theorem test_decode_b11s2 : decodeTableWord 32 0b0000000000000000000000_0_1_00000011 = some .decodeB11S2 := by decide
theorem test_decode_b11s3 : decodeTableWord 32 0b0000000000000000000000_0_1_00000100 = some .decodeB11S3 := by decide
theorem test_decode_b11s0x : decodeTableWord 32 0b0000000000000000000000_1_1_00000001 = some .decodeB11S0X := by decide
theorem test_decode_b11s3x : decodeTableWord 32 0b0000000000000000000000_1_1_00000100 = some .decodeB11S3X := by decide
theorem test_decode_rdpay : decodeTableWord 64 0b00000_0_0_000111111 = some (.rdpay 63) := by decide
theorem test_decode_wrpay : decodeTableWord 64 0x0000000000550200 = some (.wrpay 0 0x55) := by decide
theorem test_decode_wrpay_last : decodeTableWord 64 0x000000000001023F = some (.wrpay 63 0x01) := by decide
theorem test_decode_rdcmd : decodeTableWord 64 0b00000_1_0_001000000 = some .rdcmd := by decide
theorem test_decode_wrcmd : decodeTableWord 64 0x0000000001050640 = some (.wrcmd 0x105) := by decide
theorem test_decode_start : decodeTableWord 64 0x0000000000010644 = some (.start 1) := by decide
theorem test_decode_wrctrl0 : decodeTableWord 64 0x0000FFFFFFFE0644 = some (.wrctrl0 0xFFFFFFFE) := by decide
theorem test_decode_rdctrl : decodeTableWord 64 0b00000_1_0_001000100 = some .rdctrl := by decide
theorem test_decode_rdstat : decodeTableWord 64 0x0000000000000448 = some .rdstat := by decide
theorem test_decode_rdlen : decodeTableWord 64 0x000000000000044C = some .rdlen := by decide
theorem test_decode_rdout : decodeTableWord 64 0x00000000000001FF = some (.rdout 255) := by decide

/-- V-CMD, under the default mode codes. -/
theorem test_decode_bad_commands :
    [0x000, 0x001, 0x005, 0x0FF, 0x105, 0x1FF, 0x200].map (decodeCommand .defaults) =
      List.replicate 7 (.error .unknownMode) ∧
    [0x300, 0x302, 0x303, 0x204].map (decodeCommand .defaults) = List.replicate 4 (.error .extNotAllowed) ∧
    [0x400, 0x10004].map (decodeCommand .defaults) = List.replicate 2 (.error .reservedCmdBits) := by decide

/-- X1 to X4 (93_implementation_defined.md): a reserved offset, a write to STATUS and to OUT, a 32-bit access to
PAYLOAD, a byte access to CMD, a misaligned 32-bit access, and nonzero bits in 63:48 and 15:11. -/
theorem test_decode_bad_transactions :
    [0x450, 0xFF, 0x648, 0x300, 0x400, 0x040, 0x441, 0x1000000000000448, 0x848].map (decodeTableWord 64) =
      List.replicate 9 none := by decide

/-! ### The bit reader (95_test_vectors.md 2.1, 2.2) -/

/-- V-BR-1. -/
theorem test_readBits :
    valueAndCur ((do let a ← readBits (payloadOf [0xB5, 0x3C]) 3
                     let b ← readBits (payloadOf [0xB5, 0x3C]) 8
                     let c ← readBits (payloadOf [0xB5, 0x3C]) 0
                     pure [a, b, c] : Micro (List Byte)) (atCur 0)) = some ([5, 0x96, 0], 11) := by decide +kernel

/-- V-BR-3 and V-BR-4. -/
theorem test_readBits_end :
    faultAndCur (readBits (payloadOf (List.replicate 63 0 ++ [0xA5])) 5 (atCur 508)) = some (.readPastEnd, 508) ∧
    valueAndCur (readBits (payloadOf (List.replicate 63 0 ++ [0xA5])) 4 (atCur 508)) = some (10, 512) ∧
    valueAndCur (readBits (payloadOf []) 0 (atCur 512)) = some (0, 512) := by decide +kernel

/-- V-BR-5 and V-BR-6. -/
theorem test_expectZeroBits :
    faultAndCur (expectZeroBits (payloadOf [0x00, 0x02]) 12 (atCur 0)) = some (.nonzeroReserved, 12) ∧
    valueAndCur (expectZeroBits (payloadOf [0x00, 0x10]) 12 (atCur 0)) = some ((), 12) := by decide +kernel

/-- V-ACC-1 and V-ACC-2. -/
theorem test_accumulator :
    dpAfter (fun d => (d.accBits, d.accCnt.val, d.cur.val)) (accFill (payloadOf [0xB5, 0x3C]) 12 (atCur 0)) =
      some (0xCB5, 12, 12) ∧
    valueAndCur ((do accFill (payloadOf [0xB5, 0x3C]) 12
                     let a ← accTake 4
                     let b ← accTake 8
                     pure [a, b] : Micro (List Byte)) (atCur 0)) = some ([5, 0xCB], 12) := by decide +kernel

/-- V-ACC-3 and V-ACC-4. -/
theorem test_accumulator_faults :
    faultAndCur ((do accFill (payloadOf [0xB5, 0x3C]) 32
                     accFill (payloadOf [0xB5, 0x3C]) 1 : Micro Unit) (atCur 0)) = some (.accCapacity, 32) ∧
    faultAndCur ((do accFill (payloadOf [0x00, 0xF0]) 16
                     accExpectZero 12
                     accExpectZero 4 : Micro Unit) (atCur 0)) = some (.nonzeroReserved, 16) := by decide +kernel

/-! ### Arithmetic (95_test_vectors.md 2.3) -/

/-- V-AR-1. -/
theorem test_split :
    [0x01, 0x06, 0x50, 0x80, 0xFF].map splitPlan =
      [⟨.hseed, 0x00, 0⟩, ⟨.hseed, 0x04, 1⟩, ⟨.hseed, 0x40, 4⟩, ⟨.hseed, 0x00, 7⟩, ⟨.hseed, 0xFE, 0⟩] := by decide

/-- V-AR-2. -/
theorem test_tzcnt8_zero : faultAndCur (tzcnt8 0 (atCur 3)) = some (.zeroHeaderByte, 3) := by decide

/-- V-AR-3 and V-AR-4. -/
theorem test_sign_magnitude :
    [sm false 5, sm true 5, sm true 0, sm false 0, sm true 127, sm false 127] = [5, 250, 255, 0, 128, 127] ∧
    [add8 90 (sm true 9), add8 0 (sm true 0), add8 250 (sm false 10)] = [80, 255, 4] := by decide

/-- V-AR-5 and V-AR-6. -/
theorem test_seed_and_average :
    [hseed 0x40 9 true, hseed 0x00 0 true, hseed 0xFE 0 true] = [83, 1, 255] ∧
    [avg8 255 255, avg8 0 1, avg8 255 0, avg8 242 1, avg8 255 2] = [255, 0, 127, 121, 128] := by decide

/-! ### Vendor A -/

/-- V-A-TT-1000: the chain, the inherited seed, the quadrant order and the end of the cacheline. -/
theorem test_cacheline_1000 :
    greens .chain tt1000 =
      some ([83, 86, 91, 90, 80, 64, 98, 99, 80, 83, 88, 87, 77, 61, 95, 96], 128) := by decide +kernel

/-- The A_RIGHT_INHERIT table of 95_test_vectors.md 2.4: the right side of V-A-TT-1000 under the other two values, and its
pixel 8 after a DECODE.A2 of a machine built with ABSOLUTE_SM. -/
theorem test_right_inherit :
    greens .absoluteSm tt1000 =
      some ([83, 86, 91, 90, 80, 64, 98, 99, 246, 249, 254, 253, 243, 227, 5, 6], 128) ∧
    greens .baseSeed tt1000 =
      some ([83, 86, 91, 90, 80, 64, 98, 99, 83, 86, 91, 90, 80, 64, 98, 99], 128) ∧
    pixelAfter 8 (exec .decodeA2 { started (tt1000 ++ tt1000) .a2 with
        parameters := { rightInherit := .absoluteSm, codes := .defaults } }) = some [246, 246, 246, 255] := by
  decide +kernel

/-- V-A-TT-1100: both sides from their own header bytes. -/
theorem test_cacheline_1100 :
    greens .chain [0x57, 0xFC, 0x50, 0x88, 0x00, 0x00, 0xFF, 0xBD, 0x8E, 0x29, 0x4D, 0x05, 0xD2, 0xBA, 0x43, 0x86] =
      some ([83, 86, 91, 90, 80, 64, 98, 99, 138, 131, 130, 127, 139, 146, 133, 137], 128) := by decide +kernel

/-- V-A-ILL: the six illegal patterns, in Cr. -/
theorem test_illegal_patterns :
    ([[0x51, 0xF3], [0x51, 0xF7], [0x59, 0xF3], [0x59, 0xF7], [0x59, 0xFF], [0x55, 0xF7]].map fun b =>
        faultAndCur (cachelineA .chain (payloadOf (b ++ [1, 2, 3])) (atCur 0))) =
      List.replicate 6 (some (.headerPattern, 16)) := by decide +kernel

/-- V-A-ZHB. -/
theorem test_zero_header_byte :
    faultAndCur (cachelineA .chain (payloadOf [0x55, 0xFC, 0x00, 0x01, 0x02, 0x03]) (atCur 0)) =
      some (.zeroHeaderByte, 24) := by decide +kernel

/-! ### Vendor B -/

/-- V-B11-S3, predicted: the first two logical pixels. -/
theorem test_gen11_predicted :
    (gen11Result .b11s3 true [0xF0, 0x02, 0x10, 0x80, 0x0C, 0xF0, 0x01]).map (fun r => (r.1.take 2, r.2)) =
      some ([[2, 144, 255, 128], [242, 1, 240, 128]], 492) := by decide +kernel

/-- V-B11-S0, independent: logical pixels 0, 5 and 31. -/
theorem test_gen11_independent :
    (gen11Result .b11s0 false ([0x01, 0x02, 0x03, 0x04, 0x52, 0x02, 0x84, 0xC2, 0x48, 0x94, 0xC6, 0x89, 0xA4, 0xCA, 0xCA] ++
        [0xB4, 0xCE, 0x0B, 0xC5, 0xD2, 0x4C, 0xD5, 0xD6, 0x8D, 0xE5, 0xDA, 0xCE, 0xF5, 0xDE, 0x0F])).map
        (fun r => (r.1[0]!, r.1[5]!, r.1[31]!, r.2)) =
      some ([1, 2, 3, 4], [2, 3, 3, 5], [4, 5, 4, 5], 236) := by decide +kernel

/-- V-B11-HALF-1 and V-B11-HALF-2: which half is decoded. -/
theorem test_gen11_halves :
    (gen11Result .b11s1 true half).map (fun r => (r.1[1]!, r.1[16]!, r.2)) =
      some ([49, 81, 17, 67], [0, 0, 0, 0], 236) ∧
    (gen11Result .b11s2 true half).map (fun r => (r.1[15]!, r.1[17]!, r.2)) =
      some ([0, 0, 0, 0], [49, 81, 17, 67], 236) := by decide +kernel

/-- P4: a sub-window of records, a uniform one, and the last pixel. -/
theorem test_gen11_extension :
    (gen11Result .b11s3x true p4).map (fun r => (r.1[3]!, r.1[4]!, r.1[31]!, r.2)) =
      some ([72, 59, 64, 128], [73, 59, 65, 128], [77, 55, 66, 131], 332) := by decide +kernel

/-- V-B11-X-2 and V-B11-X-3, for either order. -/
theorem test_gen11_extension_faults :
    faultAndCur (decodeGen11 (payloadOf p4) { Command.b11s0x.params with pred := true } (atCur 0)) =
      some (.widthBudget, 44) ∧
    faultAndCur (decodeGen11 (payloadOf (p4.set 5 0x74)) { Command.b11s3x.params with pred := true } (atCur 0)) =
      some (.uniformCount, 52) := by decide +kernel

/-- B_SLOT reversed: logical pixel 0 goes to slot 31. -/
theorem test_slots :
    (assembleB Fin.revPerm (Vector.ofFn fun i => ⟨BitVec.ofNat 8 i.val, 0, 0, 0⟩))[31]? = some ⟨0, 0, 0, 0⟩ ∧
    (assembleB Fin.revPerm (Vector.ofFn fun i => ⟨BitVec.ofNat 8 i.val, 0, 0, 0⟩))[0]? = some ⟨31, 0, 0, 0⟩ := by
  decide

/-! ### One step of each instruction -/

/-- P1. -/
theorem test_decodeA4 : statusAfter (exec .decodeA4 (started p1 .a4)) = some 0x00C00006 ∧
    pixelAfter 63 (exec .decodeA4 (started p1 .a4)) = some [0x1E, 0x0A, 0x28, 0xFF] := by decide +kernel

/-- F2. -/
theorem test_decodeA4_past_end :
    statusAfter (exec .decodeA4 (started [0x55, 0x00, 0x80, 0x80, 0x80, 0x80] .a4)) = some 0x02000633 := by
  decide +kernel

/-- V-A-A3. -/
theorem test_decodeA3 : statusAfter (exec .decodeA3 (started p1 .a3)) = some 0x00901006 ∧
    pixelAfter 47 (exec .decodeA3 (started p1 .a3)) = some [30, 10, 40, 255] ∧
    pixelAfter 48 (exec .decodeA3 (started p1 .a3)) = some [0, 0, 0, 0] := by decide +kernel

/-- P2. -/
theorem test_decodeA2 : statusAfter (exec .decodeA2 (started p2 .a2)) = some 0x00E81006 ∧
    pixelAfter 0 (exec .decodeA2 (started p2 .a2)) = some [0x58, 0x53, 0x4E, 0xFF] ∧
    pixelAfter 17 (exec .decodeA2 (started p2 .a2)) = some [0x67, 0x67, 0x67, 0x80] := by decide +kernel

/-- F4: WARN is kept. -/
theorem test_decodeA2_fault : statusAfter (exec .decodeA2 (started [] .a2)) = some 0x00101423 := by decide +kernel

/-- V-B8-1. -/
theorem test_decodeB8 : statusAfter (exec .decodeB8 (started [0x1F, 0x20, 0x30, 0x40] .b8)) = some 0x02000006 := by
  decide +kernel

/-- V-B8-1: the logical pixels. -/
theorem test_gen8_pixels :
    dpAfter (fun d => (d.lp[0], d.lp[31])) (decodeGen8 (payloadOf [0x1F, 0x20, 0x30, 0x40]) (atCur 0)) =
      some (⟨1, 2, 3, 4⟩, ⟨1, 2, 3, 4⟩) := by decide +kernel

/-- V-ZERO, for either order: DONE at POS 236. -/
theorem test_decodeB11S0 : statusAfter (exec .decodeB11S0 (started [] .b11s0)) = some 0x00EC0006 := by
  simp only [exec, execDecodeB11S0, runDecode, Command.params, gen11Params]
  generalize Config.gen11Pred 0 = p
  cases p <;> decide +kernel

/-- V-ZERO: DONE, WARN 2. -/
theorem test_decodeB11S1 : statusAfter (exec .decodeB11S1 (started [] .b11s1)) = some 0x00EC2006 := by
  simp only [exec, execDecodeB11S1, runDecode, Command.params, gen11Params]
  generalize Config.gen11Pred 1 = p
  cases p <;> decide +kernel

/-- V-ZERO: DONE, WARN 2. -/
theorem test_decodeB11S2 : statusAfter (exec .decodeB11S2 (started [] .b11s2)) = some 0x00EC2006 := by
  simp only [exec, execDecodeB11S2, runDecode, Command.params, gen11Params]
  generalize Config.gen11Pred 2 = p
  cases p <;> decide +kernel

/-- V-ZERO: DONE at POS 492. -/
theorem test_decodeB11S3 : statusAfter (exec .decodeB11S3 (started [] .b11s3)) = some 0x01EC0006 := by
  simp only [exec, execDecodeB11S3, runDecode, Command.params, gen11Params]
  generalize Config.gen11Pred 3 = p
  cases p <;> decide +kernel

/-- V-ZERO: UNIFORM_COUNT. -/
theorem test_decodeB11S0X : statusAfter (exec .decodeB11S0X (started [] .b11s0x)) = some 0x00340843 := by
  simp only [exec, execDecodeB11S0X, runDecode, Command.params, gen11Params]
  generalize Config.gen11Pred 0 = p
  cases p <;> decide +kernel

/-- F5. -/
theorem test_decodeB11S3X : statusAfter (exec .decodeB11S3X (started [] .b11s3x)) = some 0x00340843 := by
  simp only [exec, execDecodeB11S3X, runDecode, Command.params, gen11Params]
  generalize Config.gen11Pred 3 = p
  cases p <;> decide +kernel

theorem test_rdpay : readAfter (exec (.rdpay 2) (waiting p1 0)) = some (.byte 0x0A) := by decide +kernel

/-- 41_commands.md R144: wrpay 0, 0x55 then rdpay 0. -/
theorem test_wrpay :
    readAfter (thenExec (.rdpay 0) (exec (.wrpay 0 0x55) (waiting [] 0))) = some (.byte 0x55) ∧
    readAfter (thenExec (.rdpay 1) (exec (.wrpay 0 0x55) (waiting [] 0))) = some (.byte 0) := by decide +kernel

/-- F6: a reserved bit may be written and read back. -/
theorem test_wrcmd_rdcmd :
    readAfter (thenExec .rdcmd (exec (.wrcmd 0x10004) (waiting [] 0))) = some (.word 0x10004) := by decide

/-- F1: the fault shows at once. -/
theorem test_start_unknown_mode : statusAfter (exec (.start 1) (waiting [] 0x105)) = some 0x00000113 := by decide

/-- START of a supported word: BUSY, with its warning; bits 31:1 of DATA are ignored. -/
theorem test_start_busy : statusAfter (exec (.start 0xFFFFFFFF) (waiting [] 0x002)) = some 0x00001001 := by decide

/-- START under other mode codes (PA6): 0x004 is DECODE.A2, 0x002 DECODE.A4, and gen8's default code is unknown. -/
theorem test_start_other_codes :
    [0x004, 0x002, 0x1FF, 0x100].map (fun w => statusAfter (exec (.start 1) (waitingWith otherParameters [] w))) =
      [some 0x00001001, some 0x00000001, some 0x00000001, some 0x00000113] := by decide

/-- A write with bit 0 clear does nothing, and is refused while BUSY. -/
theorem test_wrctrl0 : statusAfter (exec (.wrctrl0 0xFFFFFFFE) (waiting [] 0x004)) = some 0 ∧
    refusedBusy (exec (.wrctrl0 0) (started [] .a4)) = true := by decide

theorem test_writes_refused_while_busy :
    [exec (.wrpay 0 0) (started [] .a4), exec (.wrcmd 0) (started [] .a4), exec (.start 1) (started [] .a4)].all
      refusedBusy = true := by decide

theorem test_rdctrl : readAfter (exec .rdctrl (started [] .a4)) = some (.word 0) := by decide

/-- F1's RDSTAT. -/
theorem test_rdstat : readAfter (thenExec .rdstat (exec (.start 1) (waiting [] 0x105))) = some (.word 0x113) := by
  decide

/-- After P1: RDLEN gives 256, RDOUT 2 gives 0x28. -/
theorem test_rdlen_rdout :
    readAfter (thenExec .rdlen (exec .decodeA4 (started p1 .a4))) = some (.word 256) ∧
    readAfter (thenExec (.rdout 2) (exec .decodeA4 (started p1 .a4))) = some (.byte 0x28) := by decide +kernel

/-- Reset while BUSY, then a START with CMD 0 (10_state.md R23). -/
theorem test_reset_then_start :
    statusAfter (step { started p1 .a4 with inputs := [.reset, .transaction 0x10644] }) = some 0 ∧
    statusAfter (thenStep (step { started p1 .a4 with inputs := [.reset, .transaction 0x10644] })) = some 0x113 := by
  decide

/-! ### Witnesses: the hypotheses of each statement are met -/

/-- A machine after P1. -/
def finished : State := { waiting p1 0x004 with status := doneStatus .none 192, outlen := 256 }

/-- A machine after a vendor-B decode. -/
def finishedB : State := { waiting [] 0x100 with status := doneStatus .none 512, outlen := 128 }

/-- A gen11 EXT payload with four uniform sub-windows, all else zero. -/
def fourUniform : List Byte := [0, 0, 0, 0, 0, 0xF0]

/-- Whether a layout exists, and where it ends. -/
def endOf (l : Option (Nat × List Pixel)) : Option Nat := l.map Prod.fst

theorem witness_DecodeInvertsEncode : (Instr.start 1).WellFormed ∧ (Instr.wrctrl0 0xFFFFFFFE).WellFormed ∧
    (Instr.rdout 255).WellFormed ∧ (Instr.wrpay 63 0xFF).WellFormed := by decide

theorem witness_EncodeInvertsDecode : decodeCode .defaults (.cmd32 0x304) = .ok .decodeB11S3X ∧
    decodeCode .defaults (.ht 0xFFFFFFFF0644) = .ok (.start 0xFFFFFFFF) ∧
    decodeCode otherCodes (.cmd32 0x1FF) = .ok .decodeB8 := by decide

theorem witness_CommandWordValidation :
    validateDetail .defaults 0x400 = some .reservedCmdBits ∧
    validateDetail .defaults 0xFFFFFFFF = some .reservedCmdBits ∧
    [0x001, 0x005, 0x105, 0x200].map (validateDetail .defaults) = List.replicate 4 (some .unknownMode) ∧
    [0x204, 0x300, 0x302, 0x303].map (validateDetail .defaults) = List.replicate 4 (some .extNotAllowed) ∧
    [0x002, 0x003, 0x004, 0x100, 0x101, 0x102, 0x103, 0x104, 0x301, 0x304].map (validateDetail .defaults) =
      List.replicate 10 none ∧
    validateDetail otherCodes 0x1FF = none ∧ validateDetail otherCodes 0x100 = some .unknownMode := by decide

theorem witness_StepRunsTransaction :
    { waiting [] 0 with inputs := [.transaction 0x448] }.inputs = .transaction 0x448 :: [] ∧
    decodeHt 0x448 = .ok .rdstat := by decide

theorem witness_StepRunsLatchedCommand :
    Busy (started [] .a4) ∧ decodeCommand .defaults (started [] .a4).dp.command = .ok .a4 ∧
    (started [] .a4).inputs = [] ∧
    Busy { started [] .a4 with inputs := [.decoder, .reset] } ∧ ¬ Busy (waiting [] 0) ∧
    (waiting [] 0).inputs = [] := by decide

/-- Each clause at the ends of its range. -/
theorem witness_AccessDefined :
    (AccessDefined 0x000 true false ∧ AccessDefined 0x03F false false ∧ AccessDefined 0x040 true true ∧
      AccessDefined 0x044 false true ∧ AccessDefined 0x048 false true ∧ AccessDefined 0x04C false true ∧
      AccessDefined 0x100 false false ∧ AccessDefined 0x1FF false false) ∧
    ¬ AccessDefined 0x03F false true ∧ ¬ AccessDefined 0x040 false false ∧ ¬ AccessDefined 0x041 false true ∧
    ¬ AccessDefined 0x048 true true ∧ ¬ AccessDefined 0x050 false true ∧ ¬ AccessDefined 0x0FF false false ∧
    ¬ AccessDefined 0x100 true false ∧ ¬ AccessDefined 0x1FF false true := by
  constructorm* _ ∧ _ <;> decide

theorem witness_HostAccess : ¬ Busy (waiting [] 0) ∧ ¬ Busy finished ∧ Busy (started [] .a4) ∧
    ¬ Busy { waiting [] 0 with status := faultStatus .unknownMode .none 0 } := by decide

/-- The invariant in each of the four states. -/
theorem witness_Inv : Inv (waiting [] 0) ∧ Inv (started [] .a2) ∧ Inv finished ∧ Inv finishedB ∧
    Inv { waiting [] 0 with status := faultStatus .headerPattern .aTrailingSynth 512 } := by
  refine ⟨⟨?_, ?_, ?_, ?_, ?_, ?_, ?_, ?_⟩, ⟨?_, ?_, ?_, ?_, ?_, ?_, ?_, fun _ => ⟨.a2, ?_⟩⟩,
    ⟨?_, ?_, ?_, ?_, ?_, ?_, ?_, ?_⟩, ⟨?_, ?_, ?_, ?_, ?_, ?_, ?_, ?_⟩, ⟨?_, ?_, ?_, ?_, ?_, ?_, ?_, ?_⟩⟩ <;>
    first
    | decide
    | (intro h; exact absurd h (by decide))

/-- Both clauses of the STATUS read. -/
theorem witness_StatusReads : Inv (waiting [] 0) ∧ ¬ Busy (waiting [] 0) ∧ Inv (started [] .a2) ∧
    Busy (started [] .a2) := ⟨witness_Inv.1, by decide, witness_Inv.2.1, by decide⟩

/-- The last defined byte of a vendor-A and of a vendor-B output, and one past it. -/
theorem witness_OutAccess : finished.status.state = .done ∧ (0xFF : BitVec 8).toNat < finished.outlen.toNat ∧
    finishedB.status.state = .done ∧ (0x7F : BitVec 8).toNat < finishedB.outlen.toNat ∧
    ¬ (0x80 : BitVec 8).toNat < finishedB.outlen.toNat := by decide

theorem witness_WritesWhileBusyRefused :
    (Busy (started [] .a4) ∧ IsHostWrite (.wrpay 0 0) ∧ IsHostWrite (.wrcmd 0) ∧ IsHostWrite (.start 1) ∧
      IsHostWrite (.wrctrl0 0)) ∧ decodeHt 0x640 = .ok (.wrcmd 0) := by simp [IsHostWrite]; decide

theorem witness_StartRejectsUnsupportedWord :
    ¬ Busy (waiting [] 0x400) ∧ validateDetail .defaults (waiting [] 0x400).cmd = some .reservedCmdBits ∧
    ¬ Busy finished ∧ validateDetail .defaults { finished with cmd := 0 }.cmd = some .unknownMode ∧
    validateDetail .defaults (waiting [] 0x204).cmd = some .extNotAllowed := by decide

theorem witness_StartBeginsDecode : ¬ Busy (waiting p1 0x004) ∧ validateDetail .defaults (waiting p1 0x004).cmd = none ∧
    ¬ Busy finished ∧ validateDetail .defaults { finished with cmd := 0x304 }.cmd = none ∧
    ¬ Busy (waitingWith otherParameters [] 0x1FF) ∧
    validateDetail (waitingWith otherParameters [] 0x1FF).parameters.codes 0x1FF = none := by decide

/-- P1 under each code, and four 128-bit cachelines of pattern 1000, which end at the last bit, under each
A_RIGHT_INHERIT. -/
theorem witness_VendorADecodesItsLayout :
    (started p1 .a4).dp.cur = 0 ∧ endOf (layout .chain (started p1 .a4).payload .a4) = some 192 ∧
    endOf (layout .chain (payloadOf p1) .a3) = some 144 ∧ endOf (layout .chain (payloadOf p1) .a2) = some 96 ∧
    [Config.RightInherit.chain, .absoluteSm, .baseSeed].map (fun inherit =>
        endOf (layout inherit (payloadOf (List.replicate 4 tt1000).flatten) .a4)) =
      [some 512, some 512, some 512] := by decide +kernel

theorem witness_Gen8DecodesItsLayout :
    (started [] .b8).dp.cur = 0 ∧ endOf (layout .chain (started [] .b8).payload .b8) = some 512 := by decide +kernel

theorem witness_Gen11DecodesItsLayout :
    (started [] .b11s0).dp.cur = 0 ∧ endOf (layout .chain (payloadOf []) .b11s0) = some 236 ∧
    endOf (layout .chain (payloadOf []) .b11s1) = some 236 ∧ endOf (layout .chain (payloadOf []) .b11s2) = some 236 ∧
    endOf (layout .chain (payloadOf []) .b11s3) = some 492 := by
  simp only [layout]
  generalize Config.gen11Pred 0 = p0
  generalize Config.gen11Pred 1 = p1
  generalize Config.gen11Pred 2 = p2
  generalize Config.gen11Pred 3 = p3
  revert p0 p1 p2 p3
  have h : ∀ p : Bool, endOf (gen11Layout (payloadOf []) p 6 0 32) = some 236 ∧
      endOf (gen11Layout (payloadOf []) p 12 0 16) = some 236 ∧
      endOf (gen11Layout (payloadOf []) p 12 16 16) = some 236 ∧
      endOf (gen11Layout (payloadOf []) p 14 0 32) = some 492 := by decide +kernel
  exact fun p0 p1 p2 p3 => ⟨rfl, (h p0).1, (h p1).2.1, (h p2).2.2.1, (h p3).2.2.2⟩

theorem witness_ExtensionDecodesItsLayout :
    (started fourUniform .b11s0x).dp.cur = 0 ∧ endOf (layout .chain (payloadOf fourUniform) .b11s0x) = some 172 ∧
    endOf (layout .chain (payloadOf fourUniform) .b11s3x) = some 332 := by
  simp only [layout]
  generalize Config.gen11Pred 0 = p0
  generalize Config.gen11Pred 3 = p3
  revert p0 p3
  have h : ∀ p : Bool, endOf (extensionLayout (payloadOf fourUniform) p 6) = some 172 ∧
      endOf (extensionLayout (payloadOf fourUniform) p 14) = some 332 := by decide +kernel
  exact fun p0 p3 => ⟨rfl, (h p0).1, (h p3).2⟩

/-- Each vendor-A fault: V-ZERO, V-A-ZHB, V-A-OOB. -/
theorem witness_VendorAFirstFault :
    firstFault (payloadOf []) .a4 = some (.headerPattern, 16) ∧
    firstFault (payloadOf [0x55, 0xFC, 0x00, 0x01, 0x02, 0x03]) .a3 = some (.zeroHeaderByte, 24) ∧
    firstFault (payloadOf [0x55, 0x00, 0x80, 0x80, 0x80, 0x80]) .a2 = some (.readPastEnd, 512) := by decide +kernel

/-- Each vendor-B fault: V-B8-2 to V-B8-5 and V-ZERO. -/
theorem witness_VendorBFirstFault :
    firstFault (payloadOf ([0x1F, 0x20, 0x30, 0x40] ++ List.replicate 59 0 ++ [0x01])) .b8 =
      some (.nonzeroReserved, 512) ∧
    firstFault (payloadOf ([0x1F, 0x20, 0x30, 0x40] ++ List.replicate 58 0 ++ [0x10])) .b8 =
      some (.nonzeroReserved, 504) ∧
    firstFault (payloadOf ([0x1F, 0x20, 0x30, 0x40] ++ List.replicate 57 0 ++ [0x80])) .b8 =
      some (.nonzeroReserved, 496) ∧
    firstFault (payloadOf [0, 0, 0, 0, 0xF0, 0x07, 0]) .b8 = some (.widthBudget, 48) ∧
    (∀ p, gen11Fault (payloadOf []) p 6 52 20 true = some (.uniformCount, 52)) ∧
    Command.b8 ∉ [Command.a4, .a3, .a2] := by decide +kernel

/-- The first cacheline of an all-zero payload, and the second of V-A-WRAP. -/
theorem witness_IllegalPatternFaults :
    (0 < Command.a2.params.ncl ∧ endOf (cachelinesLayout .chain (payloadOf []) 0 0) = some 0 ∧
      legalAt (payloadOf []) 0 .g = false) ∧
    1 < Command.a4.params.ncl ∧
    endOf (cachelinesLayout .chain (payloadOf [0x55, 0xFE, 0x01, 0xF6, 0x00, 0x00, 0xFF]) 0 1) = some 56 ∧
    legalAt (payloadOf [0x55, 0xFE, 0x01, 0xF6, 0x00, 0x00, 0xFF]) 56 .a = false := by decide +kernel

/-- Sums one above each budget: 15 (V-B8-5), 7, 13 and 15, whichever the order. -/
theorem witness_WidthBudgetFaults :
    (14 < gen8WidthsBefore (payloadOf [0, 0, 0, 0, 0xF0, 0x07, 0]) 4) ∧
    (∀ p, gen11WidthsBefore (payloadOf [0, 0, 0, 0, 0x92, 0x02]) p 4 = 7) ∧
    (∀ p, gen11WidthsBefore (payloadOf [0, 0, 0, 0, 0x37, 0x00]) p 4 = 13) ∧
    (∀ p, gen11WidthsBefore (payloadOf [0, 0, 0, 0, 0x7F, 0x00]) p 4 = 15) ∧
    [Command.b11s0, .b11s1, .b11s2, .b11s3].map (fun c => c.params.budget) = [6, 12, 12, 14] := by decide +kernel

/-- Counts 3 and 5, with no widths. -/
theorem witness_UniformCountFaults :
    (∀ p, gen11WidthsBefore (payloadOf [0, 0, 0, 0, 0, 0x70]) p 4 ≤ 6) ∧
    setBits (payloadOf [0, 0, 0, 0, 0, 0x70]) 44 8 = 3 ∧ setBits (payloadOf [0, 0, 0, 0, 0, 0xF0, 0x01]) 44 8 = 5 := by
  decide +kernel

/-- A decode of each gen11 command that ends DONE. -/
theorem witness_Gen11StreamLengths :
    (started [] .b11s0).dp.cur = 0 ∧ statusAfter (exec .decodeB11S0 (started [] .b11s0)) = some 0x00EC0006 ∧
    statusAfter (exec .decodeB11S1 (started [] .b11s1)) = some 0x00EC2006 ∧
    statusAfter (exec .decodeB11S2 (started [] .b11s2)) = some 0x00EC2006 ∧
    statusAfter (exec .decodeB11S3 (started [] .b11s3)) = some 0x01EC0006 :=
  ⟨rfl, test_decodeB11S0, test_decodeB11S1, test_decodeB11S2, test_decodeB11S3⟩

/-- Two payloads that differ first at bit 236, and agree below it. -/
theorem witness_Gen11IgnoresTrailingBits :
    (∀ p < 236, payloadBit (payloadOf []) p = payloadBit (payloadOf (List.replicate 29 0 ++ [0x10])) p) ∧
    payloadBit (payloadOf []) 236 ≠ payloadBit (payloadOf (List.replicate 29 0 ++ [0x10])) 236 := by decide +kernel

/-- Vendor-A decodes that end DONE: the hypotheses of TrailingCachelinesZero and PartialCodesAgree. -/
theorem witness_VendorADone : (started p1 .a3).dp.cur = 0 ∧
    statusAfter (exec .decodeA4 (started p1 .a4)) = some 0x00C00006 ∧
    statusAfter (exec .decodeA3 (started p1 .a3)) = some 0x00901006 ∧
    statusAfter (exec .decodeA2 (started p2 .a2)) = some 0x00E81006 :=
  ⟨rfl, test_decodeA4.1, test_decodeA3.1, test_decodeA2.1⟩

theorem witness_HalfRecoveryZeros : statusAfter (exec .decodeB11S1 (started [] .b11s1)) = some 0x00EC2006 ∧
    statusAfter (exec .decodeB11S2 (started [] .b11s2)) = some 0x00EC2006 ∧ ¬ Busy (waiting [] 0x102) ∧
    ¬ Busy (waiting [] 0x103) ∧ (waiting [] 0x103).cmd = encodeCommand (waiting [] 0x103).parameters.codes .b11s2 ∧
    (waiting [] 0x102).cmd = encodeCommand (waiting [] 0x102).parameters.codes .b11s1 :=
  ⟨test_decodeB11S1, test_decodeB11S2, by decide, by decide, rfl, rfl⟩

/-- Reads that end at bit 511, at the end with no bit, and one bit too far. -/
theorem witness_ReadBitsRule : (atCur 504).cur.val + 8 ≤ 512 ∧ (atCur 512).cur.val + 0 ≤ 512 ∧
    512 < (atCur 505).cur.val + 8 := by decide

theorem witness_ReadsCompose :
    valueAndCur (readBits (payloadOf [0xB5, 0x3C]) 8 (atCur 3)) = some (0x96, 11) ∧
    faultAndCur (readBits (payloadOf []) 8 (atCur 505)) = some (.readPastEnd, 505) := by decide +kernel

/-- The clauses of ExpectZeroBits: inside the payload and past its end, with and without a set bit. -/
theorem witness_ExpectZeroBitsRule :
    (zeroFault (payloadOf []) 500 512 = none ∧ zeroFault (payloadOf [0x00, 0x02]) 0 12 = some 12 ∧
      zeroFault (payloadOf [0x00, 0x10]) 0 12 = none) ∧
    512 < (atCur 500).cur.val + 13 ∧ zeroFault (payloadOf []) 500 (500 + 8 * ((512 - 500) / 8)) = none ∧
    zeroFault (payloadOf (List.replicate 63 0 ++ [0x01])) 500 (500 + 8 * ((512 - 500) / 8)) = some 508 := by
  decide +kernel

/-- A fill to 32 bits that ends at bit 511, one bit too many, and one that passes the end. -/
theorem witness_AccFillRule : 32 ≤ 32 - (atCur 480).accCnt.val ∧ (atCur 480).cur.val + 32 ≤ 512 ∧
    32 - (atCur 0).accCnt.val < 33 ∧ 32 ≤ 32 - (atCur 481).accCnt.val ∧ 512 < (atCur 481).cur.val + 32 := by decide

theorem witness_AccDrainRules : 8 ≤ { atCur 0 with accCnt := 8 }.accCnt.val ∧
    { atCur 0 with accCnt := 7 }.accCnt.val < 8 ∧ 32 ≤ { atCur 0 with accCnt := 32 }.accCnt.val := by decide

/-- Width 7 at its largest magnitude. -/
theorem witness_SignMagnitudeStep : (127 : Byte).toNat < 2 ^ 7 ∧ sm true 127 = sm true 127 := by decide

/-- Width 7 and width 0. -/
theorem witness_SeedNeverWraps : (0x80 : Byte) ≠ 0 ∧ (127 : Byte).toNat < 2 ^ (lowestSetBit 0x80).val ∧
    (0xFF : Byte) ≠ 0 ∧ (0 : Byte).toNat < 2 ^ (lowestSetBit 0xFF).val := by decide

/-- A header byte in the last eight bits, zero and not. -/
theorem witness_HeaderByteSplit : (atCur 504).cur.val + 8 ≤ 512 ∧ bitsAt (payloadOf []) 504 8 = 0 ∧
    bitsAt (payloadOf (List.replicate 63 0 ++ [0x80])) 504 8 ≠ 0 := by decide +kernel

/-- Pattern 1100 with its two bytes at the very end. -/
theorem witness_PlansMatchTheTable :
    let b0 := bitsAt (payloadOf (List.replicate 62 0 ++ [0x50, 0x88])) 496 8
    let b1 := bitsAt (payloadOf (List.replicate 62 0 ++ [0x50, 0x88])) 504 8
    planTable true true false false b0 b1 = some (2, ⟨.hseed, 0x40, 4⟩, ⟨.hseed, 0x80, 3⟩) ∧
    (atCur 496).cur.val + 8 * 2 ≤ 512 ∧ b0 ≠ 0 ∧ b1 ≠ 0 := by decide +kernel

/-- The widest group at the end, and a side of two of them. -/
theorem witness_ReadGroupRule : (atCur 480).cur.val + (4 + 4 * (7 : Fin 8).val) ≤ 512 ∧
    (atCur 448).cur.val + 2 * (4 + 4 * (7 : Fin 8).val) ≤ 512 := by decide

/-- SidesByKind: a channel whose right side chains, under each A_RIGHT_INHERIT, and one whose right side inherits, are
reconstructed. -/
theorem witness_SidesByKind : (atCur 480).cur.val + 2 * (4 + 4 * (3 : Fin 8).val) ≤ 512 ∧
    [Config.RightInherit.chain, .absoluteSm, .baseSeed].map (fun inherit =>
        (valueAndCur (reconstructChannel inherit (payloadOf tt1000) ⟨⟨.hseed, 0x40, 4⟩, ⟨.chain, 0x40, 4⟩⟩ default
          (atCur 48))).map Prod.snd) = [some 128, some 128, some 128] ∧
    (valueAndCur (reconstructChannel .chain (payloadOf tt1000) ⟨⟨.hseed, 0x40, 4⟩, ⟨.flatInh, 0, 0⟩⟩ default
      (atCur 48))).map Prod.snd = some 88 := by decide +kernel

theorem witness_ColourAndQuadrantOrder : 1 < 2 ∧ 3 < 4 := by decide

theorem witness_ResetValues : { started p1 .a4 with inputs := [.reset] }.inputs = .reset :: [] := rfl

/-- An instruction and a step, each with a next state, of a machine with other parameters; the step is a reset. -/
theorem witness_ParametersKept : statusAfter (exec (.start 1) (waitingWith otherParameters [] 0x1FF)) = some 1 ∧
    statusAfter (step { waitingWith otherParameters [] 0 with inputs := [.reset] }) = some 0 := by decide

/-- A step of a BUSY machine that keeps the invariant. -/
theorem witness_InvariantKept : Inv (started [] .a2) ∧ statusAfter (step (started [] .a2)) = some 0x00101423 :=
  ⟨witness_Inv.2.1, by decide +kernel⟩

/-- Steps that change PAYLOAD, CMD and STATUS. -/
theorem witness_StepsThatWrite :
    statusAfter (step { waiting [] 0 with inputs := [.transaction 0x550200] }) = some 0 ∧
    statusAfter (step { waiting [] 0 with inputs := [.transaction 0x40640] }) = some 0 ∧
    ¬ Busy (waiting [] 0) ∧
    statusAfter (step { waiting [] 0 with inputs := [.transaction 0x10644] }) = some 0x113 := by decide

theorem witness_DecodeDeterministic : ¬ Busy (waiting p1 0x004) ∧ ¬ Busy finished ∧
    (waiting p1 0x004).parameters = finished.parameters ∧
    (waiting p1 0x004).payload = finished.payload ∧ (waiting p1 0x004).cmd = finished.cmd ∧
    (waiting p1 0x004) ≠ finished := by decide +kernel

theorem witness_BusyDecodeCompletes : Inv (started [] .a2) ∧ Busy (started [] .a2) ∧ (started [] .a2).inputs = [] :=
  ⟨witness_Inv.2.1, by decide, rfl⟩

/-- A step of the first instance, and an access to the first and to the last byte of its window. -/
theorem witness_InstancesIndependent : ∃ (k : Fin Config.nInstances) (p q : Platform),
    Platform.step k p = .next q ∧
    (∃ q', Platform.access k (Config.windowBase k) false false 0 p = some q') ∧
    ∃ q', Platform.access k (Config.windowBase k + 0x1FF) false false 0 p = some q' := by
  obtain ⟨w, hw⟩ : ∃ w, step w = .next w := ⟨waiting [] 0, rfl⟩
  exact ⟨⟨0, Config.nInstances.pos⟩, Vector.replicate _ w, (Vector.replicate _ w).set 0 w Config.nInstances.pos,
    by simp [Platform.step, hw], by simp [Platform.access, windowOffset],
    by simp [Platform.access, windowOffset]⟩

end Sys2Proof.Tests
end

section
/-!
PROOFS. The CTRL register (10_state.md R24, 41_commands.md R146).
-/

namespace Sys2Proof

/-! ### Which instruction an access to CTRL is -/

/-- The CTRL row of the register map, read (10_state.md R21, 20_memory.md R55). -/
theorem decodeAccess_ctrl_read : decodeAccess 0x044 false true 0 = .ok .rdctrl := rfl

/-- The CTRL row, written: bit 0 of DATA alone chooses the instruction (10_state.md R24). -/
theorem decodeAccess_ctrl_write (data : Word) :
    decodeAccess 0x044 true true data = .ok (if data.getLsbD 0 then .start data else .wrctrl0 data) :=
  (apply_ite Except.ok (data.getLsbD 0 = true) (Instr.start data) (.wrctrl0 data)).symm

end Sys2Proof

namespace Sys2Proof.Machine

/-! ### What a CTRL instruction does -/

theorem exec_rdctrl (s : State) : exec .rdctrl s = .next { s with readData := .word 0 } := rfl

/-- WRCTRL0 is a host write of the state itself. -/
theorem exec_wrctrl0 (data : Word) (s : State) : exec (.wrctrl0 data) s = hostWrite s s := rfl

/-- START is a host write of the started decode, which does not depend on DATA. -/
theorem exec_start (data : Word) (s : State) : exec (.start data) s = hostWrite s (startDecode s) := rfl

/-- The value a host read returns is held beside the machine's registers (log 3): the frame of every host read. -/
theorem sameRegisters_readData (s : State) (r : ReadData) : SameRegisters s { s with readData := r } :=
  ⟨rfl, rfl, rfl, rfl, rfl, rfl, rfl⟩

/-- Settles O13: the two encodings by the CTRL row of the register map, the effects by the meaning of each of the three
instructions and the rule of host writes. -/
theorem controlAccess : Obligations.ControlAccess := by
  refine ⟨fun data => ⟨?read, ?write⟩, fun s => ?rdctrl, fun s data hidle => ?wrctrl0, fun s data hbusy => ?refused,
    fun s data data' => ?start⟩
  case read =>
    rw [decodeHt_htWord 0x044 false true 0 (fun _ => rfl) (by simp), decodeAccess_ctrl_read]
  case write =>
    rw [decodeHt_htWord 0x044 true true data (by simp) (by simp), decodeAccess_ctrl_write]
  case rdctrl =>
    exact ⟨_, exec_rdctrl s, rfl, sameRegisters_readData s _⟩
  case wrctrl0 =>
    rw [exec_wrctrl0, hostWrite_notBusy s hidle]
  case refused =>
    rw [exec_wrctrl0, hostWrite_busy s hbusy]
  case start =>
    rw [exec_start, exec_start]

end Sys2Proof.Machine
end

section
/-!
PROOFS. Which host accesses run and which are refused (20_memory.md R55).
-/

namespace Sys2Proof

/-! ### Which accesses the register map decodes -/

/-- The PAYLOAD region is accessed by bytes. -/
theorem decodeAccess_payload_ok_iff {addr : BitVec 9} (h : addr.toNat < 0x40) (wr wide : Bool) (data : Word) :
    (∃ i, decodeAccess addr wr wide data = .ok i) ↔ wide = false := by
  cases wide <;> cases wr <;> simp [decodeAccess, h]

/-- Among the registers, CMD and CTRL are read and written, STATUS and OUTLEN are read, all by words. -/
theorem decodeAccess_register_ok_iff {addr : BitVec 9} (h₀ : 0x40 ≤ addr.toNat) (h₁ : addr.toNat < 0x50)
    (wr wide : Bool) (data : Word) :
    (∃ i, decodeAccess addr wr wide data = .ok i) ↔
      ((addr = 0x40 ∨ addr = 0x44) ∧ wide = true) ∨ ((addr = 0x48 ∨ addr = 0x4C) ∧ wide = true ∧ wr = false) := by
  have hpay : ¬ addr.toNat < 0x40 := by omega
  rw [decodeAccess, if_neg hpay, if_pos h₁]
  cases wide with
  | false => simp
  | true =>
    by_cases hcmd : addr = 0x40#9
    · cases wr <;> simp [hcmd]
    by_cases hctrl : addr = 0x44#9
    · cases wr <;> cases data.getLsbD 0 <;> simp [hctrl]
    by_cases hread : addr = 0x48#9 ∨ addr = 0x4C#9
    · rcases hread with h | h <;> cases wr <;> simp [h]
    · obtain ⟨hstat, hlen⟩ := not_or.1 hread
      simp [hcmd, hctrl, hstat, hlen]

/-- The offsets between the registers and OUT are reserved. -/
theorem decodeAccess_reserved {addr : BitVec 9} (h₀ : 0x50 ≤ addr.toNat) (h₁ : addr.toNat < 0x100) (wr wide : Bool)
    (data : Word) : decodeAccess addr wr wide data = .error .reservedOffset := by
  have hpay : ¬ addr.toNat < 0x40 := by omega
  have hreg : ¬ addr.toNat < 0x50 := by omega
  rw [decodeAccess, if_neg hpay, if_neg hreg, if_pos h₁]

/-- The OUT region is read by bytes. -/
theorem decodeAccess_out_ok_iff {addr : BitVec 9} (h : 0x100 ≤ addr.toNat) (wr wide : Bool) (data : Word) :
    (∃ i, decodeAccess addr wr wide data = .ok i) ↔ wide = false ∧ wr = false := by
  have hpay : ¬ addr.toNat < 0x40 := by omega
  have hreg : ¬ addr.toNat < 0x50 := by omega
  have hres : ¬ addr.toNat < 0x100 := by omega
  rw [decodeAccess, if_neg hpay, if_neg hreg, if_neg hres]
  cases wr <;> cases wide <;> simp

end Sys2Proof

namespace Sys2Proof.Machine

/-- The register map decodes the accesses of 20_memory.md R55 and no other, region by region. -/
theorem decodeAccess_ok_iff (addr : BitVec 9) (wr wide : Bool) (data : Word) :
    (∃ i, decodeAccess addr wr wide data = .ok i) ↔ AccessDefined addr wr wide := by
  unfold AccessDefined
  have hregs : addr = 0x40 ∨ addr = 0x44 ∨ addr = 0x48 ∨ addr = 0x4C → 0x40 ≤ addr.toNat ∧ addr.toNat < 0x50 := by
    rintro (rfl | rfl | rfl | rfl) <;> decide
  rcases Nat.lt_or_ge addr.toNat 0x40 with hpay | hpay
  · rw [decodeAccess_payload_ok_iff hpay]
    grind
  rcases Nat.lt_or_ge addr.toNat 0x50 with hreg | hreg
  · rw [decodeAccess_register_ok_iff hpay hreg]
    grind
  rcases Nat.lt_or_ge addr.toNat 0x100 with hres | hout
  · rw [decodeAccess_reserved hreg hres]
    grind
  · rw [decodeAccess_out_ok_iff hout]
    grind

/-! ### The step on a transaction word -/

/-- A transaction word that decodes to no instruction is refused at the fetch, with the decoder's reason. -/
theorem fetch_transaction_error {s : State} {w : HtWord} {rest : List Input} {e : AccessReject}
    (hs : s.inputs = .transaction w :: rest) (hw : decodeHt w = .error e) :
    fetch s = .refuse (.undefinedAccess e) := by
  simp [fetch, hs, hw]

/-- Settles O9: the word decodes as the access of its fields, and the register map decodes the defined accesses only. -/
theorem definedAccessesRunOthersAreRefused : Obligations.DefinedAccessesRunOthersAreRefused := by
  intro s addr wr wide data rest hs hread hbyte
  have hdec : decodeHt (htWord addr wr wide data) = decodeAccess addr wr wide data :=
    decodeHt_htWord addr wr wide data hread fun hwr hwide => extractLsb'_of_lt (hbyte hwr hwide)
  rw [← decodeAccess_ok_iff addr wr wide data]
  cases hacc : decodeAccess addr wr wide data with
  | ok i =>
    have hrun := step_of_fetch_run (fetch_transaction hs (hdec.trans hacc))
    exact ⟨fun _ => ⟨i, hrun⟩, fun hundef => absurd ⟨i, rfl⟩ hundef⟩
  | error e =>
    have hrefuse := step_of_fetch_refuse (fetch_transaction_error hs (hdec.trans hacc))
    exact ⟨by simp, fun _ => ⟨e, hrefuse⟩⟩

end Sys2Proof.Machine
end

section
/-!
PROOFS. How reads of the bit reader compose (20_memory.md R52, 40_bit_reader.md R101).
-/

namespace Sys2Proof.Machine

variable {α : Type}

/-! ### Fields side by side -/

/-- A field of a + b bits is its first a bits and, above them, the b bits that follow (20_memory.md R52). -/
theorem bitsAt_add_toNat (pl : Payload) (p a b : Nat) (h : a + b ≤ 8) :
    (bitsAt pl p (a + b)).toNat = (bitsAt pl p a).toNat + 2 ^ a * (bitsAt pl (p + a) b).toNat := by
  apply Nat.eq_of_testBit_eq
  intro k
  rw [Nat.add_comm (bitsAt pl p a).toNat, Nat.testBit_two_pow_mul_add _ (bitsAt_lt pl p a (by omega))]
  simp only [BitVec.testBit_toNat, bitsAt_getLsbD pl p (a + b) k h, bitsAt_getLsbD pl p a k (by omega),
    bitsAt_getLsbD pl (p + a) b (k - a) (by omega)]
  by_cases hk : k < a
  · simp [hk, show k < a + b by omega]
  · simp [hk, show k - a < b ↔ k < a + b by omega, show p + a + (k - a) = p + k by omega]

/-- A field is the sum of its bits, each in its place. -/
theorem bitsAt_toNat_eq_sum (pl : Payload) (p n : Nat) (h : n ≤ 8) :
    (bitsAt pl p n).toNat = ((List.range n).map fun k => (bitsAt pl (p + k) 1).toNat * 2 ^ k).sum := by
  induction n with
  | zero => simp [bitsAt]
  | succ n ih =>
    rw [bitsAt_add_toNat pl p n 1 h, ih (by omega), List.range_succ, List.map_append, List.sum_append]
    simp [Nat.mul_comm]

/-! ### Reads in sequence -/

/-- A read that answers stays within the payload, and answers its field with the cursor after it. -/
theorem readBits_eq_ok {pl : Payload} {n : Nat} {d d' : Datapath} {v : Byte} (h : readBits pl n d = .ok v d') :
    d.cur.val + n ≤ 512 ∧ v = bitsAt pl d.cur.val n ∧ d'.cur.val = d.cur.val + n ∧ d' = { d with cur := d'.cur } := by
  by_cases hin : d.cur.val + n ≤ 512
  · rw [readBits_ok pl n d hin] at h
    cases h
    exact ⟨hin, rfl, rfl, rfl⟩
  · rw [readBits_past pl n d hin] at h
    cases h

/-- A read that faults would pass bit 511, and leaves every register as it was. -/
theorem readBits_eq_error {pl : Payload} {n : Nat} {d d' : Datapath} {e : Detail} (h : readBits pl n d = .error e d') :
    512 < d.cur.val + n ∧ d' = d := by
  by_cases hin : d.cur.val + n ≤ 512
  · rw [readBits_ok pl n d hin] at h
    cases h
  · rw [readBits_past pl n d hin] at h
    cases h
    exact ⟨by omega, rfl⟩

/-- Two datapaths that differ from a third in the cursor alone, and agree on it, are the same. -/
theorem eq_of_cursor_frame {d d₁ d₂ : Datapath} (h₁ : d₁ = { d with cur := d₁.cur })
    (h₂ : d₂ = { d with cur := d₂.cur }) (hc : d₁.cur.val = d₂.cur.val) : d₁ = d₂ := by
  rw [h₁, h₂, Fin.ext hc]

/-- An operation known by its cursor positions ends in the datapath that has only the cursor moved. -/
theorem Answers.eq_ok {m : Micro α} {q q' : Nat} {a : α} (h : Answers m q a q') {d d' : Datapath}
    (hq : d.cur.val = q) (hq' : d'.cur.val = q') (hd' : d' = { d with cur := d'.cur }) : m d = .ok a d' := by
  obtain ⟨e, hm, hc, he⟩ := h d hq
  rw [hm, eq_of_cursor_frame he hd' (hc.trans hq'.symm)]

/-- n single-bit reads answer the bits of the n-bit field, one by one. -/
theorem answers_singleBits (pl : Payload) {n q : Nat} (h : q + n ≤ 512) :
    Answers (repeatMicro (readBits pl 1) n) q ((List.range n).map fun k => bitsAt pl (q + k) 1) (q + n) :=
  answers_repeatMicro (p := fun k => q + k) fun k hk => answers_readBits pl (q := q + k) (by omega)

/-- Single-bit reads past the end fault at the first bit that is not there, bit 512. -/
theorem bitByBit_singleBits (pl : Payload) (n : Nat) : BitByBit (repeatMicro (readBits pl 1) n) n := by
  intro q hq hpast
  refine faultsAt_repeatMicro (p := fun k => q + k) (k := 512 - q) (by omega)
    (fun k hk => answers_readBits pl (q := q + k) (by omega)) ?_
  rw [show q + (512 - q) = 512 by omega]
  exact faultsAt_readBits pl (by omega)

/-- Settles O38: a read and the single-bit reads end at the same cursor and the field is the sum of their bits; past the
end the single-bit reads get to bit 512; a field is its two parts side by side. -/
theorem readsCompose : Obligations.ReadsCompose := by
  refine ⟨fun pl n d hn => ⟨fun v d' hread => ?ok, fun d' hread => ?fault⟩, fun pl a b d d' v hab hread => ?split⟩
  case ok =>
    obtain ⟨hin, rfl, hcur, hframe⟩ := readBits_eq_ok hread
    refine ⟨_, (answers_singleBits pl hin).eq_ok rfl hcur hframe, by simp, ?_⟩
    rw [bitsAt_toNat_eq_sum pl _ n hn]
    congr 1
    refine List.map_congr_left fun k hk => ?_
    simp [List.mem_range.1 hk]
  case fault =>
    obtain ⟨hpast, rfl⟩ := readBits_eq_error hread
    obtain ⟨d'', hfault, hcur, -⟩ := bitByBit_singleBits pl n _ (by omega) hpast d' rfl
    exact ⟨rfl, d'', hfault, Fin.ext hcur⟩
  case split =>
    obtain ⟨hin, rfl, hcur, hframe⟩ := readBits_eq_ok hread
    obtain ⟨m, hlo, hmid, hm⟩ := answers_readBits pl (n := a) (q := d.cur.val) (by omega) d rfl
    have hhi := (answers_readBits pl (n := b) (q := d.cur.val + a) (by omega)).eq_ok hmid (by omega)
      (hframe.trans (by rw [hm]))
    exact ⟨_, _, m, hlo, hhi, bitsAt_add_toNat pl _ a b hab⟩

end Sys2Proof.Machine
end

section
/-!
PROOFS. Validation of a command word (30_encoding.md R74, 41_commands.md R131), and START of a word that fails it (R130).
-/

namespace Sys2Proof

/-! ### The mode table by (PATH, MODE) pairs -/

/-- The (PATH, MODE) pairs that stand in the mode table (30_encoding.md R71), one for each command without EXT. -/
def modePairs (codes : Config.ModeCodes) : List (Bool × Byte) :=
  (Command.all.filter fun c => !c.ext).map fun c => (c.path, c.mode codes)

theorem mem_modePairs {codes : Config.ModeCodes} {path : Bool} {mode : Byte} :
    (path, mode) ∈ modePairs codes ↔ ∃ c, modeTable codes path mode = some c := by
  constructor
  · intro hmem
    obtain ⟨c, hc, heq⟩ := List.mem_map.1 hmem
    obtain ⟨rfl, rfl⟩ := Prod.mk.inj heq
    exact ⟨c, modeTable_of_command codes c (by simpa using (List.mem_filter.1 hc).2)⟩
  · rintro ⟨c, hc⟩
    obtain ⟨rfl, rfl, hext⟩ := modeTable_some hc
    exact List.mem_map_of_mem (List.mem_filter.2 ⟨by cases c <;> decide, by simp [hext]⟩)

/-- The rows that have an extension are those of the two whole-block gen11 sub-modes (30_encoding.md R72). -/
theorem exists_withExtension_iff {codes : Config.ModeCodes} {path : Bool} {mode : Byte} {c : Command}
    (h : modeTable codes path mode = some c) :
    (∃ x, withExtension c = some x) ↔ path = true ∧ (mode = codes.bG11S0 ∨ mode = codes.bG11S3) := by
  constructor
  · rintro ⟨x, hx⟩
    obtain ⟨rfl, rfl, -⟩ := modeTable_some h
    cases c <;> cases hx <;> simp [Command.path, Command.mode]
  · rintro ⟨rfl, rfl | rfl⟩
    · obtain rfl := Option.some.inj (h.symm.trans (modeTable_of_command codes .b11s0 rfl))
      exact ⟨.b11s0x, rfl⟩
    · obtain rfl := Option.some.inj (h.symm.trans (modeTable_of_command codes .b11s3 rfl))
      exact ⟨.b11s3x, rfl⟩

end Sys2Proof

namespace Sys2Proof.Machine

/-! ### Validation and the decoder -/

/-- The detail a command word's decoding gives the fault, none when it selects a command. -/
def rejectDetail : Except CommandReject Command → Option Detail
  | .ok _ => none
  | .error r => some (detailOfReject r)

theorem rejectDetail_eq_some {x : Except CommandReject Command} {d : Detail} :
    rejectDetail x = some d ↔ ∃ r, x = .error r ∧ detailOfReject r = d := by
  cases x <;> simp [rejectDetail]

theorem rejectDetail_eq_none {x : Except CommandReject Command} : rejectDetail x = none ↔ ∃ c, x = .ok c := by
  cases x <;> simp [rejectDetail]

/-- The three checks of 41_commands.md R131 on the fields of a command word. -/
theorem validateDetail_fields (codes : Config.ModeCodes) (w : Word) :
    validateDetail codes w =
      if cmdRsvd w ≠ 0 then some .reservedCmdBits
      else if (cmdPath w, cmdMode w) ∉ modePairs codes then some .unknownMode
      else if cmdExt w = true ∧
          ¬ (cmdPath w = true ∧ (cmdMode w = codes.bG11S0 ∨ cmdMode w = codes.bG11S3)) then some .extNotAllowed
      else none := rfl

/-- Validation and the decoder, written apart, agree check by check. -/
theorem validateDetail_eq_rejectDetail (codes : Config.ModeCodes) (w : Word) :
    validateDetail codes w = rejectDetail (decodeCommand codes w) := by
  rw [validateDetail_fields, decodeCommand]
  by_cases hrsvd : cmdRsvd w = 0
  case neg =>
    rw [if_pos hrsvd, if_pos hrsvd]
    rfl
  rw [if_neg (not_not.2 hrsvd), if_neg (not_not.2 hrsvd)]
  cases hrow : modeTable codes (cmdPath w) (cmdMode w) with
  | none =>
    have hmem : (cmdPath w, cmdMode w) ∉ modePairs codes := by simp [mem_modePairs, hrow]
    rw [if_pos hmem]
    rfl
  | some c =>
    have hmem : (cmdPath w, cmdMode w) ∈ modePairs codes := mem_modePairs.2 ⟨c, hrow⟩
    have hpair := exists_withExtension_iff hrow
    rw [if_neg (not_not.2 hmem)]
    cases cmdExt w with
    | false => simp [rejectDetail]
    | true =>
      cases hx : withExtension c with
      | none =>
        rw [if_pos ⟨rfl, hpair.not.1 (by simp [hx])⟩]
        simp [hx, rejectDetail, detailOfReject]
      | some x =>
        rw [if_neg fun hext => hext.2 (hpair.1 ⟨x, hx⟩)]
        simp [hx, rejectDetail]

theorem validateDetail_eq_some {codes : Config.ModeCodes} {w : Word} {d : Detail} :
    validateDetail codes w = some d ↔ ∃ r, decodeCommand codes w = .error r ∧ detailOfReject r = d := by
  rw [validateDetail_eq_rejectDetail, rejectDetail_eq_some]

theorem validateDetail_eq_none {codes : Config.ModeCodes} {w : Word} :
    validateDetail codes w = none ↔ ∃ c, decodeCommand codes w = .ok c := by
  rw [validateDetail_eq_rejectDetail, rejectDetail_eq_none]

@[simp] theorem detailOfReject_kind (r : CommandReject) : (detailOfReject r).kind = .unsupportedMode := by
  cases r <;> rfl

/-- Settles O4: a failing check is the decoder's refusal, and a word that passes them all is the word of the command it
selects. -/
theorem commandWordValidation : Obligations.CommandWordValidation := by
  refine fun codes w => ⟨fun d hd => ?refused, fun hnone => ?selected⟩
  case refused =>
    obtain ⟨r, hr, rfl⟩ := validateDetail_eq_some.1 hd
    exact ⟨detailOfReject_kind r, r, hr, rfl⟩
  case selected =>
    obtain ⟨c, hc⟩ := validateDetail_eq_none.1 hnone
    exact ⟨c, ⟨hc, encodeCommand_of_decode hc⟩, fun c' h => Except.ok.inj (h.1.symm.trans hc)⟩

/-! ### START of a word that fails validation -/

/-- START of a refused word enters the fault from the latched state (41_commands.md R130). -/
theorem startDecode_of_decode_error {s : State} {r : CommandReject}
    (h : decodeCommand s.parameters.codes s.cmd = .error r) :
    startDecode s = raiseFault (detailOfReject r) (latchCommand s) := by
  simp [startDecode, h]

/-- A fault raised from the latched state is at bit 0, with no warning. -/
theorem raiseFault_latchCommand_status (d : Detail) (s : State) :
    (raiseFault d (latchCommand s)).status = faultStatus d .none 0 := rfl

/-- Settles O18: the word is refused by the decoder, so START leaves the fault raised from the latched state. -/
theorem startRejectsUnsupportedWord : Obligations.StartRejectsUnsupportedWord := by
  intro s data d hidle hd
  obtain ⟨r, hr, rfl⟩ := validateDetail_eq_some.1 hd
  have hstatus := raiseFault_latchCommand_status (detailOfReject r) s
  refine ⟨raiseFault (detailOfReject r) (latchCommand s), ?_, hstatus, ?_, raiseFault_outlen _ _, ?_⟩
  · rw [exec_start, hostWrite_notBusy _ hidle, startDecode_of_decode_error hr]
  · rw [hstatus]
    exact detailOfReject_kind r
  · exact ⟨rfl, rfl, rfl, rfl⟩

end Sys2Proof.Machine
end

section
/-!
PROOFS. The arithmetic unit in numbers, the header byte and the seed (40_bit_reader.md section 3,
42_vendor_a_header.md R157), and the gen11 reconstruction (44_vendor_b_decode.md R202, R203).
-/

namespace Sys2Proof.Machine

/-! ### The operations in numbers -/

/-- A word is a multiple of 2^m when its bits below m are clear. -/
theorem toNat_mod_two_pow_eq_zero_iff {n : Nat} (x : BitVec n) (m : Nat) :
    x.toNat % 2 ^ m = 0 ↔ ∀ k < m, x.getLsbD k = false := by
  constructor
  · intro h k hk
    have := Nat.testBit_mod_two_pow x.toNat m k
    simp only [h, hk, Nat.zero_testBit, decide_true, Bool.true_and] at this
    exact this.symm
  · intro h
    refine Nat.eq_of_testBit_eq fun k => ?_
    rw [Nat.testBit_mod_two_pow, Nat.zero_testBit]
    by_cases hk : k < m
    · rw [BitVec.testBit_toNat, h k hk, Bool.and_false]
    · simp [hk]

@[simp] theorem add8_toNat (a b : Byte) : (add8 a b).toNat = (a.toNat + b.toNat) % 256 := BitVec.toNat_add a b

theorem sm_false (d : Byte) : sm false d = d := rfl

/-- A negative step is the complement of its magnitude (40_bit_reader.md R112). -/
theorem sm_true_eq_not (d : Byte) : sm true d = ~~~d := BitVec.allOnes_sub_eq_not d

theorem sm_true_toNat (d : Byte) : (sm true d).toNat = 255 - d.toNat := by
  rw [sm_true_eq_not, BitVec.toNat_not]

/-- AVG8 keeps the carry of the 9-bit sum (40_bit_reader.md R111). -/
@[simp] theorem avg8_toNat (b r : Byte) : (avg8 b r).toNat = (b.toNat + r.toNat) / 2 := by
  rw [avg8, BitVec.toNat_ofNat, Nat.mod_eq_of_lt (by omega)]

/-- HSEED wraps like any 8-bit sum. -/
theorem hseed_toNat (base d : Byte) (s : Bool) :
    (hseed base d s).toNat = (base.toNat + 2 * d.toNat + s.toNat) % 256 := by
  cases s <;> simp [hseed, bitByte, BitVec.toNat_add, BitVec.toNat_mul]

/-! ### Sign-magnitude steps -/

/-- A magnitude of at most 7 bits leaves the signs apart: a negative step is at least 128, another one below. -/
theorem sm_injective {s s' : Bool} {d d' : Byte} (hd : d.toNat < 128) (hd' : d'.toNat < 128)
    (h : sm s d = sm s' d') : s = s' ∧ d = d' := by
  have hn := congrArg BitVec.toNat h
  cases s <;> cases s' <;> simp only [sm_false, sm_true_toNat] at hn
  case false.false => exact ⟨rfl, BitVec.eq_of_toNat_eq hn⟩
  case false.true => omega
  case true.false => omega
  case true.true => exact ⟨rfl, BitVec.eq_of_toNat_eq (by omega)⟩

/-- Settles O43: the steps by their values in numbers, the distinctness because a width of up to 7 keeps the magnitudes
below 128. -/
theorem signMagnitudeStep : Obligations.SignMagnitudeStep := by
  refine ⟨fun x d => ⟨?_, ?_, sm_true_eq_not d, sm_true_toNat d⟩, fun w s s' d d' hw hd hd' => ?_⟩
  · rw [add8_toNat, sm_true_toNat]
    omega
  · rw [add8_toNat, sm_false]
  · have hle : 2 ^ w ≤ 2 ^ 7 := Nat.pow_le_pow_right (by omega) hw
    exact sm_injective (by omega) (by omega)

/-! ### The header byte -/

/-- No set bit is below the lowest set bit: the tests of bits 0, 1, .. stop at a set bit k at the latest. -/
theorem lowestSetBit_le {b : Byte} {k : Nat} (hset : b.getLsbD k = true) : (lowestSetBit b).val ≤ k := by
  have hk : k < 8 := BitVec.lt_of_getLsbD hset
  unfold lowestSetBit
  interval_cases k <;> split_ifs <;> simp_all

theorem getLsbD_below_lowestSetBit {b : Byte} {k : Nat} (hk : k < (lowestSetBit b).val) : b.getLsbD k = false := by
  by_contra hset
  have := lowestSetBit_le (Bool.eq_true_of_not_eq_false hset)
  omega

/-- The lowest set bit of a byte that is not zero is set: bit 7, when the bits before it are clear. -/
theorem getLsbD_lowestSetBit {b : Byte} (hb : b ≠ 0) : b.getLsbD (lowestSetBit b).val = true := by
  unfold lowestSetBit
  split_ifs with h0 h1 h2 h3 h4 h5 h6
  exacts [h0, h1, h2, h3, h4, h5, h6, by
    by_contra h7
    refine hb (BitVec.eq_of_getLsbD_eq fun k hk => ?_)
    interval_cases k <;> simp_all]

/-- Clearing bit w changes that bit alone. -/
theorem clearBit_getLsbD (b : Byte) (w : Fin 8) (k : Nat) :
    (clearBit b w).getLsbD k = (b.getLsbD k && decide (k ≠ w.val)) := by
  have hmask : (1 : Byte) <<< w.val = BitVec.twoPow 8 w.val := (BitVec.twoPow_eq 8 w.val).symm
  rw [clearBit, hmask, BitVec.getLsbD_and, BitVec.getLsbD_not, BitVec.getLsbD_twoPow]
  by_cases hk : k < 8
  · simp [hk, eq_comm]
  · simp [BitVec.getLsbD_of_ge b k (by omega)]

/-- Clearing a set bit w takes 2^w away. -/
theorem clearBit_toNat {b : Byte} {w : Fin 8} (hw : b.getLsbD w.val = true) :
    (clearBit b w).toNat = b.toNat - 2 ^ w.val := by
  have hdisjoint : clearBit b w &&& BitVec.twoPow 8 w.val = 0#8 := by
    refine BitVec.eq_of_getLsbD_eq fun k _ => ?_
    rw [BitVec.getLsbD_and, clearBit_getLsbD, BitVec.getLsbD_twoPow, BitVec.getLsbD_zero]
    by_cases hk : w.val = k
    · simp [hk]
    · simp [hk]
  have hsplit : clearBit b w + BitVec.twoPow 8 w.val = b := by
    rw [BitVec.add_eq_or_of_and_eq_zero _ _ hdisjoint]
    refine BitVec.eq_of_getLsbD_eq fun k _ => ?_
    rw [BitVec.getLsbD_or, clearBit_getLsbD, BitVec.getLsbD_twoPow]
    by_cases hk : w.val = k
    · simp [← hk, hw]
    · simp [hk, Ne.symm hk]
  have hsum := BitVec.toNat_add_of_and_eq_zero hdisjoint
  rw [hsplit, BitVec.toNat_twoPow, Nat.mod_eq_of_lt (Nat.pow_lt_pow_right (by omega) w.isLt)] at hsum
  omega

theorem tzcnt8_zero (d : Datapath) : tzcnt8 0 d = .error .zeroHeaderByte d := rfl

theorem tzcnt8_of_ne_zero {b : Byte} (hb : b ≠ 0) (d : Datapath) : tzcnt8 b d = .ok (lowestSetBit b) d := by
  rw [tzcnt8, if_neg hb, micro_pure]

/-- Settles O45: TZCNT8 by the two lemmas on the lowest set bit; the plan by the laws of a side whose header byte is
present, the base by clearing the bit found. -/
theorem headerByteSplit : Obligations.HeaderByteSplit := by
  refine ⟨fun b d => ⟨?zero, fun hb => ?split⟩, fun pl d absent hin => ?plan⟩
  case zero =>
    rintro rfl
    exact tzcnt8_zero d
  case split =>
    exact ⟨_, tzcnt8_of_ne_zero hb d, getLsbD_lowestSetBit hb, fun k hk => getLsbD_below_lowestSetBit hk⟩
  case plan =>
    dsimp only
    by_cases hb : bitsAt pl d.cur.val 8 = 0
    · obtain ⟨d', hfault, hcur, -⟩ := faultsAt_planSide_zero pl absent hin hb d rfl
      exact ⟨d', hcur, fun _ => hfault, fun hne => absurd hb hne⟩
    · obtain ⟨d', hplan, hcur, -⟩ := answers_planSide_present pl false absent hin (.inr hb) d rfl
      exact ⟨d', hcur, fun hz => absurd hz hb, fun _ => ⟨_, hplan, rfl, getLsbD_lowestSetBit hb,
        fun k hk => getLsbD_below_lowestSetBit hk, clearBit_toNat (getLsbD_lowestSetBit hb)⟩⟩

/-! ### The seed -/

/-- The base of a header byte has bits w..0 clear (42_vendor_a_header.md R157). -/
theorem clearBit_lowestSetBit_low {b : Byte} {k : Nat} (hk : k < (lowestSetBit b).val + 1) :
    (clearBit b (lowestSetBit b)).getLsbD k = false := by
  rw [clearBit_getLsbD]
  rcases Nat.lt_succ_iff_lt_or_eq.1 hk with hlt | heq
  · rw [getLsbD_below_lowestSetBit hlt, Bool.false_and]
  · simp [heq]

/-- Settles O44: the base is a multiple of 2^(w + 1), 2d + s is below it, and 2^(w + 1) divides 256. -/
theorem seedNeverWraps : Obligations.SeedNeverWraps := by
  intro b d s _ hd
  generalize hbase : clearBit b (lowestSetBit b) = base
  have hlow : ∀ k < (lowestSetBit b).val + 1, base.getLsbD k = false := fun k hk =>
    hbase ▸ clearBit_lowestSetBit_low hk
  generalize hw : (lowestSetBit b).val = w at hd hlow
  obtain ⟨m, hm⟩ := Nat.dvd_of_mod_eq_zero ((toNat_mod_two_pow_eq_zero_iff base (w + 1)).2 hlow)
  have hrest : 2 * d.toNat + s.toNat < 2 ^ (w + 1) := by
    have := s.toNat_lt
    rw [Nat.pow_succ]
    omega
  have hsum : base.toNat + 2 * d.toNat + s.toNat < 256 := by
    obtain ⟨c, hc⟩ := Nat.pow_dvd_pow 2 (show w + 1 ≤ 8 by omega)
    have hmc : m < c := Nat.lt_of_mul_lt_mul_left (a := 2 ^ (w + 1)) (by omega)
    have := Nat.mul_le_mul_left (2 ^ (w + 1)) (Nat.succ_le_of_lt hmc)
    rw [Nat.mul_succ] at this
    omega
  have hseed : (hseed base d s).toNat = base.toNat + 2 * d.toNat + s.toNat := by
    rw [hseed_toNat, Nat.mod_eq_of_lt hsum]
  refine ⟨fun k hk => hlow k (by omega), hsum, hseed, ?_⟩
  rw [hseed, Nat.add_assoc, hm, Nat.two_pow_add_eq_or_of_lt hrest]

/-! ### The gen11 reconstruction -/

/-- Settles O51: every component is a sum of ADD8 and AVG8, which are known in numbers. -/
theorem gen11Reconstruction : Obligations.Gen11Reconstruction := by
  refine ⟨avg8_toNat, fun base delta => ⟨⟨?b, ?r, ?g, ?a⟩, fun c => ?independent⟩⟩
  case b => exact add8_toNat _ _
  case r => simp [gen11Pixel, predictedPixel]
  case g => simp [gen11Pixel, predictedPixel]
  case a => exact add8_toNat _ _
  case independent => cases c <;> exact add8_toNat _ _

end Sys2Proof.Machine
end

section
/-!
PROOFS. The bit reader and the bit accumulator (40_bit_reader.md sections 1 and 2).
-/

namespace Sys2Proof.Machine

/-! ### The reader -/

/-- Settles O37: the two cases of the bounds check; the value's bits are those of the field. -/
theorem readBitsRule : Obligations.ReadBitsRule := fun pl n d hn =>
  ⟨fun hpast => readBits_past pl n d (by omega), fun hin =>
    ⟨_, _, readBits_ok pl n d hin, fun k => bitsAt_getLsbD pl d.cur.val n k hn, rfl, rfl⟩⟩

/-- Settles O39: what the chunk loop does with as much fuel as bits; its chunks stop at the end of the region, or at the
chunk that would pass bit 511. -/
theorem expectZeroBitsRule : Obligations.ExpectZeroBitsRule := by
  intro pl n d
  obtain ⟨hzero, hset⟩ : ZeroRule pl (expectZeroBits pl n) d.cur.val n :=
    expectZeroLoop_spec pl n n d.cur.val (le_refl n) (by omega)
  refine ⟨fun hin => ?inside, fun hpast => ?past⟩
  case inside =>
    rw [show zeroEnd d.cur.val n = d.cur.val + n from if_pos hin] at hzero hset
    exact ⟨fun hz => (hzero hz).1 hin d rfl, fun pos hs => hset pos hs d rfl⟩
  case past =>
    rw [show zeroEnd d.cur.val n = d.cur.val + 8 * ((512 - d.cur.val) / 8) from if_neg (by omega)] at hzero hset
    exact ⟨fun hz => (hzero hz).2 hpast d rfl, fun pos hs => hset pos hs d rfl⟩

/-! ### Filling the accumulator -/

/-- d' is d with the k payload bits from CUR on appended above the buffered bits, and nothing else changed
(40_bit_reader.md R103). -/
structure Appended (pl : Payload) (k : Nat) (d d' : Datapath) : Prop where
  cur : d'.cur.val = d.cur.val + k
  cnt : d'.accCnt.val = d.accCnt.val + k
  bits : ∀ i < 32, d'.accBits.getLsbD i = (d.accBits.getLsbD i ||
    (decide (d.accCnt.val ≤ i ∧ i < d.accCnt.val + k) && payloadBit pl (d.cur.val + (i - d.accCnt.val))))
  frame : d' = { d with cur := d'.cur, accBits := d'.accBits, accCnt := d'.accCnt }

theorem appended_zero (pl : Payload) (d : Datapath) : Appended pl 0 d d where
  cur := rfl
  cnt := rfl
  bits i _ := by simp [show ¬ (d.accCnt.val ≤ i ∧ i < d.accCnt.val) by omega]
  frame := rfl

/-- Appending goes on where it stopped: the bits stay in stream order. -/
theorem Appended.trans {pl : Payload} {a b : Nat} {d m d' : Datapath} (h : Appended pl a d m)
    (h' : Appended pl b m d') : Appended pl (a + b) d d' where
  cur := by rw [h'.cur, h.cur, Nat.add_assoc]
  cnt := by rw [h'.cnt, h.cnt, Nat.add_assoc]
  bits i hi := by
    rw [h'.bits i hi, h.bits i hi, h.cur, h.cnt]
    by_cases hlow : i < d.accCnt.val + a
    · simp [hlow, show ¬ d.accCnt.val + a ≤ i by omega, show i < d.accCnt.val + (a + b) by omega]
    · have hbit : d.cur.val + a + (i - (d.accCnt.val + a)) = d.cur.val + (i - d.accCnt.val) := by omega
      simp [hlow, hbit, show d.accCnt.val + a ≤ i by omega, show d.accCnt.val ≤ i by omega, Nat.add_assoc]
  frame := by rw [h'.frame, h.frame]

/-- One chunk of a fill: k bits are read, then pushed. -/
def fillChunk (pl : Payload) (k : Nat) : Micro Unit := readBits pl k >>= fun v => accPush v k

theorem accFillLoop_succ (pl : Payload) (fuel : Nat) {r : Nat} (hr : r ≠ 0) :
    accFillLoop pl (fuel + 1) r = fillChunk pl (min 8 r) >>= fun _ => accFillLoop pl fuel (r - min 8 r) := by
  rw [accFillLoop, if_neg hr, fillChunk, bind_assoc]

theorem accFillLoop_zero (pl : Payload) (fuel : Nat) (d : Datapath) : accFillLoop pl fuel 0 d = .ok () d := by
  cases fuel <;> rfl

theorem fillChunk_past (pl : Payload) {k : Nat} {d : Datapath} (h : 512 < d.cur.val + k) :
    fillChunk pl k d = .error .readPastEnd d :=
  micro_bind_error (readBits_past pl k d (by omega))

/-- A chunk within the payload and the capacity appends its bits. -/
theorem fillChunk_appends (pl : Payload) {k : Nat} {d : Datapath} (hk : k ≤ 8) (hcur : d.cur.val + k ≤ 512)
    (hcap : d.accCnt.val + k ≤ 32) : ∃ d', fillChunk pl k d = .ok () d' ∧ Appended pl k d d' := by
  refine ⟨_, (micro_bind_ok (readBits_ok pl k d hcur)).trans (dif_pos hcap), rfl, rfl, fun i hi => ?_, rfl⟩
  rw [BitVec.getLsbD_or, BitVec.getLsbD_shiftLeft, BitVec.getLsbD_setWidth, bitsAt_getLsbD pl _ k _ hk]
  by_cases hlow : i < d.accCnt.val
  · simp [hlow]
  · simp [hi, hlow, show d.accCnt.val ≤ i by omega, show i - d.accCnt.val < 32 by omega,
      show i - d.accCnt.val < k ↔ i < d.accCnt.val + k by omega]

/-- A fill within the payload and the capacity appends all its bits. -/
theorem accFillLoop_appends (pl : Payload) (fuel r : Nat) (d : Datapath) (hr : r ≤ fuel)
    (hcur : d.cur.val + r ≤ 512) (hcap : d.accCnt.val + r ≤ 32) :
    ∃ d', accFillLoop pl fuel r d = .ok () d' ∧ Appended pl r d d' := by
  induction fuel generalizing r d with
  | zero =>
    obtain rfl : r = 0 := by omega
    exact ⟨d, accFillLoop_zero pl 0 d, appended_zero pl d⟩
  | succ fuel ih =>
    by_cases h0 : r = 0
    · subst h0
      exact ⟨d, accFillLoop_zero pl _ d, appended_zero pl d⟩
    obtain ⟨m, hchunk, hm⟩ := fillChunk_appends pl (k := min 8 r) (d := d) (by omega) (by omega) (by omega)
    obtain ⟨d', hrest, hd'⟩ := ih (r - min 8 r) m (by omega) (by rw [hm.cur]; omega) (by rw [hm.cnt]; omega)
    refine ⟨d', ?_, by simpa [show min 8 r + (r - min 8 r) = r by omega] using hm.trans hd'⟩
    rw [accFillLoop_succ pl fuel h0, micro_bind_ok hchunk, hrest]

/-- A fill that passes bit 511 faults at its first chunk that does, the whole chunks before it appended. -/
theorem accFillLoop_past (pl : Payload) (fuel r : Nat) (d : Datapath) (hr : r ≤ fuel)
    (hpast : 512 < d.cur.val + r) (hcap : d.accCnt.val + r ≤ 32) :
    ∃ d', accFillLoop pl fuel r d = .error .readPastEnd d' ∧
      Appended pl (8 * ((512 - d.cur.val) / 8)) d d' := by
  induction fuel generalizing r d with
  | zero => omega
  | succ fuel ih =>
    rw [accFillLoop_succ pl fuel (by omega)]
    by_cases hchunk : d.cur.val + min 8 r ≤ 512
    · obtain ⟨m, hfirst, hm⟩ := fillChunk_appends pl (k := min 8 r) (d := d) (by omega) hchunk (by omega)
      obtain ⟨d', hrest, hd'⟩ := ih (r - min 8 r) m (by omega) (by rw [hm.cur]; omega) (by rw [hm.cnt]; omega)
      refine ⟨d', by rw [micro_bind_ok hfirst, hrest], ?_⟩
      have hcount : min 8 r + 8 * ((512 - m.cur.val) / 8) = 8 * ((512 - d.cur.val) / 8) := by
        rw [hm.cur]
        omega
      exact hcount ▸ hm.trans hd'
    · have hcount : 8 * ((512 - d.cur.val) / 8) = 0 := by omega
      exact ⟨d, micro_bind_error (fillChunk_past pl (by omega)), hcount ▸ appended_zero pl d⟩

/-- Settles O40: the capacity check, then the chunk loop within the payload or past its end. -/
theorem accFillRule : Obligations.AccFillRule := by
  intro pl n d
  have hrun (hcap : n ≤ 32 - d.accCnt.val) : accFill pl n d = accFillLoop pl n n d := if_neg (by omega)
  refine ⟨fun hfull => if_pos hfull, fun hcap hin => ?_, fun hcap hpast => ?_⟩
  · obtain ⟨d', hd', happ⟩ := accFillLoop_appends pl n n d (le_refl n) hin (by omega)
    exact ⟨d', (hrun hcap).trans hd', happ.bits, happ.cnt, happ.cur, happ.frame⟩
  · obtain ⟨d', hd', happ⟩ := accFillLoop_past pl n n d (le_refl n) hpast (by omega)
    exact ⟨d', (hrun hcap).trans hd', happ.cur, happ.cnt, happ.cnt ▸ happ.bits, happ.frame⟩

/-! ### Draining the accumulator -/

/-- The n oldest bits are zero when none of them is set. -/
theorem accLow_eq_zero_iff (d : Datapath) (n : Nat) :
    accLow d n = 0 ↔ ¬ ∃ k < n, d.accBits.getLsbD k = true := by
  rw [accLow, toNat_mod_two_pow_eq_zero_iff]
  simp

/-- Bit k of the byte AccTake answers. -/
theorem accLow_getLsbD (d : Datapath) {n : Nat} (hn : n ≤ 8) (k : Nat) :
    (BitVec.ofNat 8 (accLow d n)).getLsbD k = (decide (k < n) && d.accBits.getLsbD k) := by
  rw [BitVec.getLsbD_ofNat, accLow, Nat.testBit_mod_two_pow, BitVec.testBit_toNat]
  by_cases hk : k < n
  · simp [hk, show k < 8 by omega]
  · simp [hk]

theorem accTake_eq_ok {n : Nat} {d : Datapath} (h8 : n ≤ 8) (hn : n ≤ d.accCnt.val) :
    accTake n d = .ok (BitVec.ofNat 8 (accLow d n)) (accDrop d n) := if_neg (by omega)

/-- AccExpectZero of buffered bits drops them, and faults when one is set. -/
theorem accExpectZero_of_buffered {n : Nat} {d : Datapath} (hn : n ≤ d.accCnt.val) :
    accExpectZero n d = if ∃ k < n, d.accBits.getLsbD k = true then .error .nonzeroReserved (accDrop d n)
      else .ok () (accDrop d n) := by
  rw [accExpectZero, if_neg (by omega)]
  simp only [accLow_eq_zero_iff, ite_not]

/-- Settles O41: the capacity checks of the two drains, the bits they look at, and the accumulator without them. -/
theorem accDrainRules : Obligations.AccDrainRules := fun n d =>
  ⟨fun hfull => if_pos (by omega),
    fun h8 hn => ⟨_, _, accTake_eq_ok h8 hn, accLow_getLsbD d h8, rfl, rfl, rfl⟩,
    fun hfull => if_pos hfull,
    fun hn => ⟨accDrop d n, rfl, rfl, rfl, accExpectZero_of_buffered hn⟩⟩

end Sys2Proof.Machine
end

section
/-!
PROOFS. No decode command touches the accumulator (40_bit_reader.md R106): one rule per way of putting micro-operations
together, then one per unit. A unit known to move the cursor alone only has to be looked at for the faults it raises,
and a vendor-A cacheline is read off its run.
-/

namespace Sys2Proof.Machine

variable {α β : Type}

/-! ### What leaves the accumulator -/

/-- The accumulator of d' is that of d. -/
def SameAccumulator (d d' : Datapath) : Prop := d'.accBits = d.accBits ∧ d'.accCnt = d.accCnt

/-- However m ends, the accumulator is as it was, and the fault is not ACC_CAPACITY. -/
structure LeavesAccumulator (m : Micro α) : Prop where
  ok : ∀ {d a d'}, m d = .ok a d' → SameAccumulator d d'
  error : ∀ {d e d'}, m d = .error e d' → SameAccumulator d d'
  raises : RaisesOnly (· ≠ .accCapacity) m

theorem sameAccumulator_of_cursor_frame {d d' : Datapath} (h : d' = { d with cur := d'.cur }) :
    SameAccumulator d d' := by
  rw [h]
  exact ⟨rfl, rfl⟩

theorem SameButA.sameAccumulator {d d' : Datapath} (h : SameButA d d') : SameAccumulator d d' := by
  rw [h]
  exact ⟨rfl, rfl⟩

theorem SameAccumulator.trans {d m d' : Datapath} (h : SameAccumulator d m) (h' : SameAccumulator m d') :
    SameAccumulator d d' := ⟨h'.1.trans h.1, h'.2.trans h.2⟩

/-- A cursor-only operation leaves the accumulator unless it raises ACC_CAPACITY. -/
theorem CursorOnly.leavesAccumulator {m : Micro α} (hm : CursorOnly m) (hr : RaisesOnly (· ≠ .accCapacity) m) :
    LeavesAccumulator m where
  ok h := sameAccumulator_of_cursor_frame (hm.frame_ok h)
  error h := sameAccumulator_of_cursor_frame (hm.frame_error h)
  raises := hr

theorem leavesAccumulator_pure (a : α) : LeavesAccumulator (pure a : Micro α) :=
  (cursorOnly_pure a).leavesAccumulator (raisesOnly_pure _ a)

theorem leavesAccumulator_get : LeavesAccumulator (get : Micro Datapath) where
  ok h := by cases h; exact ⟨rfl, rfl⟩
  error h := by cases h
  raises := raisesOnly_get _

/-- A write of other registers. -/
theorem leavesAccumulator_modify {f : Datapath → Datapath} (hf : ∀ d, SameAccumulator d (f d)) :
    LeavesAccumulator (modify f : Micro Unit) where
  ok h := by cases h; exact hf _
  error h := by cases h
  raises := raisesOnly_modify _ f

theorem leavesAccumulator_bind {m : Micro α} {f : α → Micro β} (hm : LeavesAccumulator m)
    (hf : ∀ a, LeavesAccumulator (f a)) : LeavesAccumulator (m >>= f) where
  ok h := by
    obtain ⟨a, d₁, h₁, h₂⟩ := micro_bind_eq_ok.1 h
    exact (hm.ok h₁).trans ((hf a).ok h₂)
  error h := by
    rcases micro_bind_eq_error.1 h with h₁ | ⟨a, d₁, h₁, h₂⟩
    · exact hm.error h₁
    · exact (hm.ok h₁).trans ((hf a).error h₂)
  raises := raisesOnly_bind hm.raises fun a => (hf a).raises

theorem leavesAccumulator_ite {p : Prop} [Decidable p] {m n : Micro α} (hm : LeavesAccumulator m)
    (hn : LeavesAccumulator n) : LeavesAccumulator (if p then m else n) := by
  split <;> assumption

/-- An operation and the write of its result. -/
theorem leavesAccumulator_store {m : Micro α} {f : α → Datapath → Datapath} (hm : LeavesAccumulator m)
    (hf : ∀ a d, SameAccumulator d (f a d)) : LeavesAccumulator (m >>= fun a => modify (f a)) :=
  leavesAccumulator_bind hm fun a => leavesAccumulator_modify (hf a)

theorem leavesAccumulator_repeatMicro {m : Micro α} (hm : LeavesAccumulator m) (n : Nat) :
    LeavesAccumulator (repeatMicro m n) := by
  induction n with
  | zero => exact leavesAccumulator_pure _
  | succ n ih =>
    exact leavesAccumulator_bind hm fun _ => leavesAccumulator_bind ih fun _ => leavesAccumulator_pure _

theorem leavesAccumulator_forComponents {f : Component → Micro α} (hf : ∀ c, LeavesAccumulator (f c)) :
    LeavesAccumulator (forComponents f) :=
  leavesAccumulator_bind (hf _) fun _ => leavesAccumulator_bind (hf _) fun _ => leavesAccumulator_bind (hf _) fun _ =>
    leavesAccumulator_bind (hf _) fun _ => leavesAccumulator_pure _

theorem leavesAccumulator_forOrder {f : Component → Micro α} (pred : Bool) (hf : ∀ c, LeavesAccumulator (f c)) :
    LeavesAccumulator (forOrder pred f) :=
  leavesAccumulator_ite
    (leavesAccumulator_bind (hf _) fun _ => leavesAccumulator_bind (hf _) fun _ =>
      leavesAccumulator_bind (hf _) fun _ => leavesAccumulator_bind (hf _) fun _ => leavesAccumulator_pure _)
    (leavesAccumulator_forComponents hf)

/-! ### The reader -/

theorem leavesAccumulator_readBits (pl : Payload) (n : Nat) : LeavesAccumulator (readBits pl n) :=
  (cursorOnly_readBits pl n).leavesAccumulator (raisesOnly_readBits (by decide) pl n)

theorem leavesAccumulator_readFlag (pl : Payload) : LeavesAccumulator (readFlag pl) :=
  leavesAccumulator_bind (leavesAccumulator_readBits pl 1) fun _ => leavesAccumulator_pure _

theorem leavesAccumulator_readWidth (pl : Payload) : LeavesAccumulator (readWidth pl) :=
  leavesAccumulator_bind (leavesAccumulator_readBits pl 3) fun _ => leavesAccumulator_pure _

theorem raisesOnly_expectZeroLoop {p : Detail → Prop} (hpast : p .readPastEnd) (hset : p .nonzeroReserved)
    (pl : Payload) (fuel r : Nat) : RaisesOnly p (expectZeroLoop pl fuel r) := by
  induction fuel generalizing r with
  | zero => exact raisesOnly_pure p ()
  | succ fuel ih =>
    exact raisesOnly_ite (raisesOnly_pure p ()) (raisesOnly_bind (raisesOnly_readBits hpast pl _) fun _ =>
      raisesOnly_ite (ih _) (raisesOnly_throw hset))

theorem leavesAccumulator_expectZeroBits (pl : Payload) (n : Nat) : LeavesAccumulator (expectZeroBits pl n) :=
  (cursorOnly_expectZeroBits pl n).leavesAccumulator (raisesOnly_expectZeroLoop (by decide) (by decide) pl n n)

/-! ### Vendor A -/

/-- The details a vendor-A decode can fault with (60_exceptions.md R242). -/
def vendorADetails : List Detail := [.headerPattern, .zeroHeaderByte, .readPastEnd]

theorem headerByteFault_detail {pl : Payload} {c0 k : Nat} {x : Detail × Nat} (h : headerByteFault pl c0 k = some x) :
    x.1 ∈ vendorADetails := by
  unfold headerByteFault at h
  dsimp only at h
  split_ifs at h <;> cases h <;> simp [vendorADetails]

theorem cachelineFault_detail {pl : Payload} {c0 : Nat} {x : Detail × Nat} (h : cachelineFault pl c0 = some x) :
    x.1 ∈ vendorADetails := by
  unfold cachelineFault at h
  split at h
  · cases h
    simp [vendorADetails]
  split at h
  · cases h
    simp [vendorADetails]
  split at h
  next f hheader =>
    cases h
    obtain ⟨k, -, hk⟩ := List.exists_of_findSome?_eq_some hheader
    exact headerByteFault_detail hk
  next =>
    split at h <;> cases h
    simp [vendorADetails]

/-- An operation known by its run that answers a value changed the cursor and the vendor-A registers alone. -/
theorem Runs.sameButA_of_ok {m : Micro α} {d d' : Datapath} {f : Option (Detail × Nat)} {a b : α} {q' : Nat}
    {post : Datapath → Prop} (hm : Runs m d f a q' post) (h : m d = .ok b d') : SameButA d d' := by
  cases f with
  | none =>
    obtain ⟨d₁, h₁, -, hsame, -⟩ := hm.1 rfl
    rw [h] at h₁
    cases h₁
    exact hsame
  | some x =>
    obtain ⟨d₁, h₁, -⟩ := hm.2 x rfl
    rw [h] at h₁
    cases h₁

/-- An operation known by its run that faults raised the fault the run says, and changed the cursor and the vendor-A
registers alone. -/
theorem Runs.eq_error {m : Micro α} {d d' : Datapath} {f : Option (Detail × Nat)} {a : α} {e : Detail} {q' : Nat}
    {post : Datapath → Prop} (hm : Runs m d f a q' post) (h : m d = .error e d') :
    f = some (e, d'.cur.val) ∧ SameButA d d' := by
  cases f with
  | none =>
    obtain ⟨d₁, h₁, -⟩ := hm.1 rfl
    rw [h] at h₁
    cases h₁
  | some x =>
    obtain ⟨d₁, h₁, hcur, hsame⟩ := hm.2 x rfl
    rw [h] at h₁
    cases h₁
    exact ⟨by rw [hcur], hsame⟩

theorem leavesAccumulator_cachelineA (inherit : Config.RightInherit) (pl : Payload) :
    LeavesAccumulator (cachelineA inherit pl) where
  ok h := ((cachelineA_runs inherit pl _).sameButA_of_ok h).sameAccumulator
  error h := ((cachelineA_runs inherit pl _).eq_error h).2.sameAccumulator
  raises d e d' h he := by
    have hdetail := cachelineFault_detail ((cachelineA_runs inherit pl d).eq_error h).1
    simp [he, vendorADetails] at hdetail

theorem leavesAccumulator_decodeA (inherit : Config.RightInherit) (pl : Payload) (ncl : Nat) :
    LeavesAccumulator (decodeA inherit pl ncl) :=
  leavesAccumulator_bind (leavesAccumulator_repeatMicro (leavesAccumulator_cachelineA inherit pl) ncl) fun _ =>
    leavesAccumulator_pure _

/-! ### Vendor B -/

theorem leavesAccumulator_checkWidths (wb : Rgba (Fin 8)) (budget : Nat) : LeavesAccumulator (checkWidths wb budget) :=
  (cursorOnly_checkWidths wb budget).leavesAccumulator
    (raisesOnly_ite (raisesOnly_throw (by decide)) (raisesOnly_pure _ _))

theorem leavesAccumulator_checkUniform (u : Vector Bool 8) : LeavesAccumulator (checkUniform u) :=
  (cursorOnly_checkUniform u).leavesAccumulator
    (raisesOnly_ite (raisesOnly_pure _ _) (raisesOnly_throw (by decide)))

theorem leavesAccumulator_gen8Component (pl : Payload) (skip : Bool) (base : Byte) (w : Fin 8) :
    LeavesAccumulator (gen8Component pl skip base w) :=
  leavesAccumulator_ite (leavesAccumulator_pure _)
    (leavesAccumulator_bind (leavesAccumulator_readBits pl _) fun _ => leavesAccumulator_pure _)

theorem leavesAccumulator_gen8Record (pl : Payload) (skip : Rgba Bool) (base : Rgba Byte) (wb : Rgba (Fin 8)) :
    LeavesAccumulator (gen8Record pl skip base wb) :=
  leavesAccumulator_bind (leavesAccumulator_forComponents fun _ => leavesAccumulator_gen8Component pl _ _ _) fun _ =>
    leavesAccumulator_bind (leavesAccumulator_expectZeroBits pl _) fun _ => leavesAccumulator_pure _

theorem leavesAccumulator_gen8Width (pl : Payload) (skip : Bool) : LeavesAccumulator (gen8Width pl skip) :=
  leavesAccumulator_ite (leavesAccumulator_pure _) (leavesAccumulator_readWidth pl)

theorem leavesAccumulator_gen8Header (pl : Payload) : LeavesAccumulator (gen8Header pl) :=
  leavesAccumulator_bind (leavesAccumulator_forComponents fun _ => leavesAccumulator_readFlag pl) fun _ =>
    leavesAccumulator_bind (leavesAccumulator_forComponents fun _ => leavesAccumulator_readBits pl 8) fun _ =>
      leavesAccumulator_bind (leavesAccumulator_forComponents fun _ => leavesAccumulator_gen8Width pl _) fun _ =>
        leavesAccumulator_bind (leavesAccumulator_modify fun _ => ⟨rfl, rfl⟩) fun _ =>
          leavesAccumulator_checkWidths _ _

theorem leavesAccumulator_gen8Tail (pl : Payload) : LeavesAccumulator (gen8Tail pl) :=
  leavesAccumulator_bind leavesAccumulator_get fun _ =>
    leavesAccumulator_bind (leavesAccumulator_expectZeroBits pl _) fun _ => leavesAccumulator_expectZeroBits pl _

theorem leavesAccumulator_decodeGen8 (pl : Payload) : LeavesAccumulator (decodeGen8 pl) :=
  leavesAccumulator_bind (leavesAccumulator_gen8Header pl) fun _ =>
    leavesAccumulator_bind leavesAccumulator_get fun _ =>
      leavesAccumulator_bind (leavesAccumulator_repeatMicro (leavesAccumulator_gen8Record pl _ _ _) 32) fun _ =>
        leavesAccumulator_bind (leavesAccumulator_modify fun _ => ⟨rfl, rfl⟩) fun _ => leavesAccumulator_gen8Tail pl

theorem leavesAccumulator_gen11Record (pl : Payload) (mp : ModeParams) (base : Rgba Byte) (wb : Rgba (Fin 8)) :
    LeavesAccumulator (gen11Record pl mp base wb) :=
  leavesAccumulator_bind (leavesAccumulator_forOrder _ fun _ => leavesAccumulator_readBits pl _) fun _ =>
    leavesAccumulator_bind (leavesAccumulator_expectZeroBits pl _) fun _ => leavesAccumulator_pure _

theorem leavesAccumulator_gen11Header (pl : Payload) (mp : ModeParams) : LeavesAccumulator (gen11Header pl mp) :=
  leavesAccumulator_bind (leavesAccumulator_forOrder _ fun _ => leavesAccumulator_readBits pl 8) fun _ =>
    leavesAccumulator_bind (leavesAccumulator_forOrder _ fun _ => leavesAccumulator_readWidth pl) fun _ =>
      leavesAccumulator_bind (leavesAccumulator_modify fun _ => ⟨rfl, rfl⟩) fun _ =>
        leavesAccumulator_checkWidths _ _

theorem leavesAccumulator_extensionFlags (pl : Payload) : LeavesAccumulator (extensionFlags pl) :=
  leavesAccumulator_bind (leavesAccumulator_repeatMicro (leavesAccumulator_readFlag pl) 8) fun _ =>
    leavesAccumulator_bind (leavesAccumulator_modify fun _ => ⟨rfl, rfl⟩) fun _ => leavesAccumulator_checkUniform _

section
variable {record : Micro Pixel} (hr : LeavesAccumulator record)
include hr

theorem leavesAccumulator_subWindow (uniform : Bool) : LeavesAccumulator (subWindow record uniform) :=
  leavesAccumulator_ite (leavesAccumulator_bind hr fun _ => leavesAccumulator_pure _)
    (leavesAccumulator_repeatMicro hr 4)

theorem leavesAccumulator_extensionWalk (us : List Bool) : LeavesAccumulator (extensionWalk record us) := by
  induction us with
  | nil => exact leavesAccumulator_pure _
  | cons u us ih =>
    exact leavesAccumulator_bind (leavesAccumulator_subWindow hr u) fun _ =>
      leavesAccumulator_bind ih fun _ => leavesAccumulator_pure _

theorem leavesAccumulator_gen11Extension (pl : Payload) : LeavesAccumulator (gen11Extension pl record) :=
  leavesAccumulator_bind (leavesAccumulator_extensionFlags pl) fun _ =>
    leavesAccumulator_bind leavesAccumulator_get fun _ =>
      leavesAccumulator_store (leavesAccumulator_extensionWalk hr _) fun _ _ => ⟨rfl, rfl⟩

theorem leavesAccumulator_gen11Range (lo hi : Nat) : LeavesAccumulator (gen11Range record lo hi) :=
  leavesAccumulator_store (leavesAccumulator_repeatMicro hr _) fun _ _ => ⟨rfl, rfl⟩

end

theorem leavesAccumulator_decodeGen11 (pl : Payload) (mp : ModeParams) : LeavesAccumulator (decodeGen11 pl mp) :=
  leavesAccumulator_bind (leavesAccumulator_gen11Header pl mp) fun _ =>
    leavesAccumulator_bind leavesAccumulator_get fun _ =>
      leavesAccumulator_ite (leavesAccumulator_gen11Extension (leavesAccumulator_gen11Record pl mp _ _) pl)
        (leavesAccumulator_gen11Range (leavesAccumulator_gen11Record pl mp _ _) _ _)

theorem leavesAccumulator_assembledB {fill : Micro Unit} (hf : LeavesAccumulator fill) :
    LeavesAccumulator (assembledB fill) :=
  leavesAccumulator_bind hf fun _ => leavesAccumulator_bind leavesAccumulator_get fun _ => leavesAccumulator_pure _

/-! ### The commands -/

theorem leavesAccumulator_bodyOf (inherit : Config.RightInherit) (c : Command) (pl : Payload) (mp : ModeParams) :
    LeavesAccumulator (bodyOf inherit c pl mp) := by
  cases c with
  | a4 | a3 | a2 => exact leavesAccumulator_decodeA inherit pl mp.ncl
  | b8 => exact leavesAccumulator_assembledB (leavesAccumulator_decodeGen8 pl)
  | b11s0 | b11s1 | b11s2 | b11s3 | b11s0x | b11s3x =>
    exact leavesAccumulator_assembledB (leavesAccumulator_decodeGen11 pl mp)

/-- Settles O42: every unit a decode body is made of leaves the accumulator, so the body does. -/
theorem decodesLeaveTheAccumulator : Obligations.DecodesLeaveTheAccumulator := by
  intro inherit c pl mp d
  have hbody := leavesAccumulator_bodyOf inherit c pl mp
  cases hrun : bodyOf inherit c pl mp d with
  | ok px d' => exact hbody.ok hrun
  | error e d' =>
    obtain ⟨hbits, hcnt⟩ := hbody.error hrun
    exact ⟨hbits, hcnt, hbody.raises d e d' hrun⟩

end Sys2Proof.Machine
end

section
/-!
PROOFS. The static parameters of the ten commands (41_commands.md R132).
-/

namespace Sys2Proof.Machine

/-- PRED of a gen11 command is that of its sub-mode, whatever the OPEN parameter holds. -/
theorem params_pred_of_b11 {c : Command} (h : c.params.variant = .b11) :
    c.params.pred = Config.gen11Pred c.params.sub := by
  cases c with
  | a4 | a3 | a2 | b8 => cases h
  | b11s0 | b11s1 | b11s2 | b11s3 | b11s0x | b11s3x => rfl

/-- Settles O6: the columns without an OPEN parameter by evaluation, row by row, and PRED by the rule of its
sub-mode. -/
theorem modeParamsTable : Obligations.ModeParamsTable := by
  refine ⟨?words, ?cachelines, rfl, rfl, rfl, rfl, rfl, ?gen11, fun c hc => ?pred⟩
  case words => decide
  case cachelines => rfl
  case gen11 => rfl
  case pred =>
    have hgen11 : ∀ c ∈ [Command.b11s0, .b11s1, .b11s2, .b11s3, .b11s0x, .b11s3x], c.params.variant = .b11 := by
      decide
    exact params_pred_of_b11 (hgen11 c hc)

end Sys2Proof.Machine
end

section
/-!
PROOFS. The host reads and writes of PAYLOAD, CMD, STATUS, OUTLEN and OUT (41_commands.md R144, R145, R147, R148): which
instruction an access is, what it does, and what it leaves.
-/

namespace Sys2Proof

/-! ### Which instruction an access is -/

/-- A field put into a wider one is read back from its low bits. -/
theorem extractLsb'_setWidth_self {n m : Nat} (x : BitVec n) (h : n ≤ m) : (x.setWidth m).extractLsb' 0 n = x := by
  rw [BitVec.extractLsb'_setWidth_of_le (by omega), BitVec.extractLsb'_eq_self]

/-- Byte OFF of PAYLOAD is at offset OFF of the window (10_state.md R21). -/
theorem payloadOffset_lt (off : BitVec 6) : (off.setWidth 9).toNat < 0x040 := by
  rw [BitVec.toNat_setWidth_of_le (by decide)]
  exact off.isLt

theorem decodeAccess_payload_read (off : BitVec 6) (data : Word) :
    decodeAccess (off.setWidth 9) false false data = .ok (.rdpay off) := by
  rw [decodeAccess, if_pos (payloadOffset_lt off), extractLsb'_setWidth_self off (by decide)]
  rfl

theorem decodeAccess_payload_write (off : BitVec 6) (byte : Byte) :
    decodeAccess (off.setWidth 9) true false (byte.setWidth 32) = .ok (.wrpay off byte) := by
  rw [decodeAccess, if_pos (payloadOffset_lt off), extractLsb'_setWidth_self off (by decide),
    extractLsb'_setWidth_self byte (by decide)]
  rfl

theorem decodeAccess_cmd_read : decodeAccess 0x040 false true 0 = .ok .rdcmd := rfl

theorem decodeAccess_cmd_write (word : Word) : decodeAccess 0x040 true true word = .ok (.wrcmd word) := rfl

theorem decodeAccess_status_read : decodeAccess 0x048 false true 0 = .ok .rdstat := rfl

theorem decodeAccess_outlen_read : decodeAccess 0x04C false true 0 = .ok .rdlen := rfl

/-- Byte OFF of OUT is at offset 0x100 + OFF of the window (10_state.md R21). -/
theorem outOffset_toNat (off : BitVec 8) : (0x100 ||| off.setWidth 9).toNat = 0x100 + off.toNat := by
  rw [BitVec.toNat_or, BitVec.toNat_setWidth_of_le (by decide)]
  exact (Nat.two_pow_add_eq_or_of_lt off.isLt 1).symm

theorem outOffset_extract (off : BitVec 8) : (0x100 ||| off.setWidth 9).extractLsb' 0 8 = off := by
  apply BitVec.eq_of_toNat_eq
  rw [BitVec.extractLsb'_toNat, outOffset_toNat]
  omega

theorem decodeAccess_out_read (off : BitVec 8) (data : Word) :
    decodeAccess (0x100 ||| off.setWidth 9) false false data = .ok (.rdout off) := by
  have hout := outOffset_toNat off
  rw [decodeAccess, if_neg (by omega), if_neg (by omega), if_neg (by omega), outOffset_extract]
  rfl

/-- The transaction word of a read decodes as the access it encodes: its DATA is 0. -/
theorem decodeHt_read (addr : BitVec 9) (wide : Bool) :
    decodeHt (htWord addr false wide 0) = decodeAccess addr false wide 0 :=
  decodeHt_htWord addr false wide 0 (fun _ => rfl) (by simp)

/-- The transaction word of a byte write decodes as the access it encodes: DATA holds no more than the byte. -/
theorem decodeHt_byte_write (addr : BitVec 9) (byte : Byte) :
    decodeHt (htWord addr true false (byte.setWidth 32)) = decodeAccess addr true false (byte.setWidth 32) :=
  decodeHt_htWord addr true false _ (by simp) fun _ _ => extractLsb'_of_lt (by simp; omega)

/-- The transaction word of a 32-bit write decodes as the access it encodes, whatever its DATA. -/
theorem decodeHt_word_write (addr : BitVec 9) (data : Word) :
    decodeHt (htWord addr true true data) = decodeAccess addr true true data :=
  decodeHt_htWord addr true true data (by simp) (by simp)

end Sys2Proof

namespace Sys2Proof.Machine

/-! ### What each instruction does -/

theorem exec_rdpay (off : BitVec 6) (s : State) :
    exec (.rdpay off) s = .next { s with readData := .byte (payloadByte s.payload off) } := rfl

theorem exec_wrpay (off : BitVec 6) (byte : Byte) (s : State) :
    exec (.wrpay off byte) s = hostWrite s { s with payload := s.payload.set off.toNat byte off.isLt } := rfl

theorem exec_rdcmd (s : State) : exec .rdcmd s = .next { s with readData := .word s.cmd } := rfl

theorem exec_wrcmd (word : Word) (s : State) : exec (.wrcmd word) s = hostWrite s { s with cmd := word } := rfl

/-- RDSTAT draws a free value, which is the POS it returns while BUSY. -/
theorem exec_rdstat (s : State) :
    exec .rdstat s = .next { s with readData := .word (statusRead s), draws := s.draws + 1 } := rfl

theorem exec_rdlen (s : State) : exec .rdlen s = .next { s with readData := .word (s.outlen.setWidth 32) } := rfl

/-- RDOUT draws a free value, which is the byte it returns where OUT is not defined. -/
theorem exec_rdout (off : BitVec 8) (s : State) :
    exec (.rdout off) s = .next { s with readData := .byte (outRead s off), draws := s.draws + 1 } := rfl

/-- The frame of a host read that draws a free value (log 4). -/
theorem sameRegisters_readData_draws (s : State) (r : ReadData) (n : Nat) :
    SameRegisters s { s with readData := r, draws := n } := ⟨rfl, rfl, rfl, rfl, rfl, rfl, rfl⟩

/-! ### PAYLOAD and CMD -/

@[simp] theorem payloadByte_set_self (pl : Payload) (off : BitVec 6) (byte : Byte) :
    payloadByte (pl.set off.toNat byte off.isLt) off = byte := Vector.getElem_set_self _

theorem payloadByte_set_ne (pl : Payload) {off k : BitVec 6} (byte : Byte) (h : k ≠ off) :
    payloadByte (pl.set off.toNat byte off.isLt) k = payloadByte pl k :=
  Vector.getElem_set_ne _ _ fun heq => h (BitVec.eq_of_toNat_eq heq.symm)

/-- Settles O11: the two encodings by the PAYLOAD row of the register map, RDPAY by its meaning, WRPAY by the rule of
host writes and a vector's get after set. -/
theorem payloadAccess : Obligations.PayloadAccess := by
  refine ⟨fun off byte => ⟨?encodeRead, ?encodeWrite⟩, fun s off => ?read, fun s off byte hidle => ?write,
    fun s off byte hbusy => ?refused⟩
  case encodeRead => rw [decodeHt_read, decodeAccess_payload_read]
  case encodeWrite => rw [decodeHt_byte_write, decodeAccess_payload_write]
  case read => exact ⟨_, exec_rdpay off s, rfl, sameRegisters_readData s _⟩
  case write =>
    exact ⟨_, (exec_wrpay off byte s).trans (hostWrite_notBusy _ hidle), payloadByte_set_self _ _ _,
      fun k hk => payloadByte_set_ne _ _ hk, rfl, rfl, rfl, rfl, rfl, rfl, rfl⟩
  case refused => rw [exec_wrpay, hostWrite_busy _ hbusy]

/-- Settles O12: the two encodings by the CMD row of the register map, RDCMD by its meaning, WRCMD by the rule of host
writes. -/
theorem commandAccess : Obligations.CommandAccess := by
  refine ⟨fun word => ⟨?encodeRead, ?encodeWrite⟩, fun s => ?read, fun s word hidle => ?write,
    fun s word hbusy => ?refused⟩
  case encodeRead => rw [decodeHt_read, decodeAccess_cmd_read]
  case encodeWrite => rw [decodeHt_word_write, decodeAccess_cmd_write]
  case read => exact ⟨_, exec_rdcmd s, rfl, sameRegisters_readData s _⟩
  case write =>
    exact ⟨_, (exec_wrcmd word s).trans (hostWrite_notBusy _ hidle), rfl, rfl, rfl, rfl, rfl, rfl, rfl, rfl⟩
  case refused => rw [exec_wrcmd, hostWrite_busy _ hbusy]

/-! ### STATUS and OUTLEN -/

theorem statusRead_notBusy {s : State} (h : ¬ Busy s) : statusRead s = s.status.word := if_neg h

theorem statusRead_busy {s : State} (h : Busy s) :
    statusRead s = { s.status with pos := Config.freePos s.draws }.word := if_pos h

/-- While BUSY the invariant fixes every STATUS field but POS: nothing is reported yet, and WARN is that of the latched
command (41_commands.md R130). -/
theorem Inv.status_of_busy {s : State} (hs : Inv s) (hbusy : Busy s) :
    ∃ c, decodeCommand s.parameters.codes s.dp.command = .ok c ∧
      s.status = { state := .busy, outValid := false, fault := .none, detail := .none, warn := c.params.warning,
                   pos := s.status.pos } := by
  obtain ⟨c, hc, -, hwarn, -⟩ := hs.busy hbusy
  have hvalid : s.status.outValid = false := by
    rw [← Bool.not_eq_true, hs.outValid, hbusy]
    decide
  have hdetail : s.status.detail = .none := by
    rw [← not_ne_iff, hs.faultDetail, hbusy]
    decide
  have hfault : s.status.fault = .none := by rw [hs.faultKind, hdetail]; rfl
  refine ⟨c, hc, ?_⟩
  rw [← hbusy, ← hvalid, ← hfault, ← hdetail, ← hwarn]

/-- Settles O14: the encodings by the STATUS and OUTLEN rows of the register map; a read while BUSY returns the fields
the invariant fixes, with the drawn POS. -/
theorem statusAndLengthReads : Obligations.StatusAndLengthReads := by
  refine ⟨⟨?encodeStatus, ?encodeLength⟩, fun s hs => ⟨fun hidle => ?idle, fun hbusy => ?busy, ?length,
    fun hbusy => ?lengthBusy⟩⟩
  case encodeStatus => rw [decodeHt_read, decodeAccess_status_read]
  case encodeLength => rw [decodeHt_read, decodeAccess_outlen_read]
  case idle =>
    exact ⟨_, exec_rdstat s, congrArg ReadData.word (statusRead_notBusy hidle), sameRegisters_readData_draws s _ _⟩
  case busy =>
    obtain ⟨c, hc, hstatus⟩ := hs.status_of_busy hbusy
    refine ⟨_, Config.freePos s.draws, c, hc, exec_rdstat s, sameRegisters_readData_draws s _ _, ?_⟩
    show ReadData.word (statusRead s) = _
    rw [statusRead_busy hbusy, hstatus]
  case length => exact ⟨_, exec_rdlen s, rfl, sameRegisters_readData s _⟩
  case lengthBusy =>
    refine hs.outlenNotDone ?_
    rw [hbusy]
    decide

/-! ### OUT -/

theorem outRead_defined {s : State} {off : BitVec 8} (hdone : s.status.state = .done)
    (hoff : off.toNat < s.outlen.toNat) : outRead s off = outByte s.out off := by
  simp [outRead, outDefined, hdone, hoff]

/-- Settles O16: the encoding by the OUT row of the register map; the byte is the one RDOUT returns, known where OUT is
defined. -/
theorem outAccess : Obligations.OutAccess := by
  refine ⟨fun off => ?encode, fun s off => ?read⟩
  case encode => rw [decodeHt_read, decodeAccess_out_read]
  case read =>
    exact ⟨_, outRead s off, exec_rdout off s, rfl, sameRegisters_readData_draws s _ _, outRead_defined⟩

end Sys2Proof.Machine
end

section
/-!
PROOFS. An illegal header pattern faults HEADER_PATTERN after stage 1, in whichever cacheline and channel it stands
(42_vendor_a_header.md R153, R154). What a run of cachelines faults with is `cachelinesFault`, so most of the lemmas are
about that function of the payload: legal cachelines are skipped, an illegal pattern decides.
-/

namespace Sys2Proof.Machine

/-! ### A legal cacheline has no fault -/

/-- The channel and side of a slot have that slot. -/
theorem sideSlot_slotChannel {k : Nat} (hk : k < 8) : sideSlot (slotChannel k) (slotSide k) = k := by
  interval_cases k <;> rfl

theorem setBits_mono (pl : Payload) (p : Nat) : Monotone (setBits pl p) :=
  monotone_nat_of_le_succ fun n => by
    rw [setBits_succ]
    exact Nat.le_add_right _ _

theorem deltaStart_le_slotStart (pl : Payload) (c0 k : Nat) : deltaStart pl c0 ≤ slotStart pl c0 k :=
  Nat.le_add_right _ _

/-- The stage-2 byte of a slot that has one ends before the delta data. -/
theorem headerByte_le_deltaStart {pl : Payload} {c0 k : Nat} (hk : k < 8)
    (hp : hpAt pl c0 (slotChannel k) (slotSide k) = true) :
    c0 + 16 + 8 * setBits pl c0 k + 8 ≤ deltaStart pl c0 := by
  have hsucc : setBits pl c0 (k + 1) = setBits pl c0 k + 1 := by
    rw [hpAt, sideSlot_slotChannel hk] at hp
    rw [setBits_succ, if_pos hp]
  have hle : setBits pl c0 (k + 1) ≤ setBits pl c0 8 := setBits_mono pl c0 hk
  unfold deltaStart
  omega

/-- A legal cacheline: legal patterns, nonzero header bytes, and its end inside the payload. -/
theorem cachelineLegalAt_iff {pl : Payload} {c0 : Nat} :
    cachelineLegalAt pl c0 = true ↔
      (∀ ch, legalAt pl c0 ch = true ∧ ∀ x, nonzeroAt pl c0 ch x = true) ∧ slotStart pl c0 8 ≤ 512 := by
  have hsides : ∀ ch, (∀ x, nonzeroAt pl c0 ch x = true) ↔
      nonzeroAt pl c0 ch .l = true ∧ nonzeroAt pl c0 ch .r = true := fun ch =>
    ⟨fun h => ⟨h .l, h .r⟩, fun ⟨hl, hr⟩ x => by cases x <;> assumption⟩
  have hchannels : ∀ p : Channel → Prop, (∀ ch, p ch) ↔ p .g ∧ p .cr ∧ p .cb ∧ p .a := fun p =>
    ⟨fun h => ⟨h .g, h .cr, h .cb, h .a⟩, fun ⟨hg, hcr, hcb, ha⟩ ch => by cases ch <;> assumption⟩
  rw [hchannels]
  simp [cachelineLegalAt, hsides, and_assoc]

theorem headerByteFault_eq_none {pl : Payload} {c0 k : Nat} (hk : k < 8) (hend : deltaStart pl c0 ≤ 512)
    (hnz : nonzeroAt pl c0 (slotChannel k) (slotSide k) = true) : headerByteFault pl c0 k = none := by
  unfold headerByteFault
  cases hp : hpAt pl c0 (slotChannel k) (slotSide k) with
  | false => rfl
  | true =>
    have hbyte := headerByte_le_deltaStart hk hp
    simp [hnz, show ¬ 512 < c0 + 16 + 8 * setBits pl c0 k + 8 by omega]

theorem cachelineFault_of_legal {pl : Payload} {c0 : Nat} (h : cachelineLegalAt pl c0 = true) :
    cachelineFault pl c0 = none := by
  obtain ⟨hchannels, hend⟩ := cachelineLegalAt_iff.1 h
  have hdelta : deltaStart pl c0 ≤ 512 := (deltaStart_le_slotStart pl c0 8).trans hend
  have hstage1 : c0 + 16 ≤ deltaStart pl c0 := Nat.le_add_right _ _
  have hbytes : (List.range 8).findSome? (headerByteFault pl c0) = none :=
    List.findSome?_eq_none_iff.2 fun k hk =>
      headerByteFault_eq_none (List.mem_range.1 hk) hdelta ((hchannels _).2 _)
  rw [cachelineFault, if_neg (by omega),
    if_neg (not_not.2 ⟨(hchannels _).1, (hchannels _).1, (hchannels _).1, (hchannels _).1⟩), hbytes]
  exact if_neg (by omega)

/-- Whichever channel holds the illegal pattern, the fault and its place are the same. -/
theorem cachelineFault_of_illegal_pattern {pl : Payload} {c0 : Nat} {ch : Channel} (hc : c0 + 16 ≤ 512)
    (h : legalAt pl c0 ch = false) : cachelineFault pl c0 = some (.headerPattern, c0 + 16) := by
  have hnot : ¬ (legalAt pl c0 .g ∧ legalAt pl c0 .cr ∧ legalAt pl c0 .cb ∧ legalAt pl c0 .a) := by
    cases ch <;> simp [h]
  rw [cachelineFault, if_neg (by omega), if_pos hnot]

/-! ### The fault of packed cachelines -/

theorem cachelinesFault_succ_of_none {pl : Payload} {c0 n : Nat} (h : cachelineFault pl c0 = none) :
    cachelinesFault pl c0 (n + 1) = cachelinesFault pl (slotStart pl c0 8) n := by rw [cachelinesFault, h]

theorem cachelinesFault_succ_of_some {pl : Payload} {c0 n : Nat} {f : Detail × Nat}
    (h : cachelineFault pl c0 = some f) : cachelinesFault pl c0 (n + 1) = some f := by rw [cachelinesFault, h]

theorem cachelinesLayout_succ_some {inherit : Config.RightInherit} {pl : Payload} {c0 n e : Nat} {px : List Pixel}
    (h : cachelinesLayout inherit pl c0 (n + 1) = some (e, px)) :
    cachelineLegalAt pl c0 = true ∧ ∃ px', cachelinesLayout inherit pl (slotStart pl c0 8) n = some (e, px') ∧
      px = cachelinePixelsAt inherit pl c0 ++ px' := by
  rw [cachelinesLayout] at h
  split at h
  · refine ⟨‹_›, ?_⟩
    split at h
    · cases h
      exact ⟨_, ‹_›, rfl⟩
    · cases h
  · cases h

/-- Legal cachelines are skipped: the fault of a longer run is that of the cachelines after them. -/
theorem cachelinesFault_after_layout {inherit : Config.RightInherit} {pl : Payload} {q k e : Nat} {px : List Pixel}
    (h : cachelinesLayout inherit pl q k = some (e, px)) (m : Nat) :
    cachelinesFault pl q (k + m) = cachelinesFault pl e m := by
  induction k generalizing q px with
  | zero =>
    cases h
    rw [Nat.zero_add]
  | succ k ih =>
    obtain ⟨hlegal, px', hrest, -⟩ := cachelinesLayout_succ_some h
    rw [Nat.succ_add, cachelinesFault_succ_of_none (cachelineFault_of_legal hlegal), ih hrest]

/-! ### From the layout's fault to the decode's -/

/-- Decoding n cachelines faults as the layout says, whatever the internal registers but the cursor hold. -/
theorem repeatMicro_cachelineA_error {inherit : Config.RightInherit} {pl : Payload} {n : Nat} {d : Datapath}
    {f : Detail × Nat} (h : cachelinesFault pl d.cur.val n = some f) :
    ∃ d', repeatMicro (cachelineA inherit pl) n d = .error f.1 d' ∧ d'.cur.val = f.2 := by
  induction n generalizing d with
  | zero => cases h
  | succ n ih =>
    obtain ⟨hok, herr⟩ := cachelineA_runs inherit pl d
    cases hfirst : cachelineFault pl d.cur.val with
    | some g =>
      obtain rfl : g = f := Option.some.inj ((cachelinesFault_succ_of_some hfirst).symm.trans h)
      obtain ⟨d₁, hrun, hcur, -⟩ := herr g hfirst
      exact ⟨d₁, micro_bind_error hrun, hcur⟩
    | none =>
      obtain ⟨d₁, hrun, hcur, -⟩ := hok hfirst
      rw [cachelinesFault_succ_of_none hfirst, ← hcur] at h
      obtain ⟨d₂, hrest, hcur₂⟩ := ih h
      exact ⟨d₂, (micro_bind_ok hrun).trans (micro_bind_error hrest), hcur₂⟩

theorem bodyOf_vendorA {c : Command} (hc : c ∈ [Command.a4, .a3, .a2]) (inherit : Config.RightInherit) (pl : Payload)
    (mp : ModeParams) : bodyOf inherit c pl mp = decodeA inherit pl mp.ncl := by
  simp only [List.mem_cons, List.not_mem_nil, or_false] at hc
  rcases hc with rfl | rfl | rfl <;> rfl

/-- A vendor-A body faults as the layout of its cachelines says. -/
theorem bodyOf_vendorA_error {c : Command} (hc : c ∈ [Command.a4, .a3, .a2]) (inherit : Config.RightInherit)
    {pl : Payload} {mp : ModeParams} {d : Datapath} {f : Detail × Nat}
    (h : cachelinesFault pl d.cur.val mp.ncl = some f) :
    ∃ d', bodyOf inherit c pl mp d = .error f.1 d' ∧ d'.cur.val = f.2 := by
  obtain ⟨d', hrun, hcur⟩ := repeatMicro_cachelineA_error (inherit := inherit) h
  exact ⟨d', by rw [bodyOf_vendorA hc]; exact micro_bind_error hrun, hcur⟩

/-- What a decode whose body faults leaves (60_exceptions.md R243): the fault with POS at the body's cursor. -/
theorem exec_ofCommand_of_body_error {c : Command} {s : State} {e : Detail} {d : Datapath}
    (h : bodyOf s.parameters.rightInherit c s.payload c.params { s.dp with mp := c.params } = .error e d) :
    ∃ t, exec (.ofCommand c) s = .next t ∧ t.status = faultStatus e s.status.warn d.cur.val ∧ t.outlen = 0 ∧
      SameHostSide s t := by
  have hrun : runDecode c (bodyOf s.parameters.rightInherit c) s = raiseFault e { s with dp := d } := by
    simp only [runDecode, h]
  exact ⟨raiseFault e { s with dp := d }, (exec_ofCommand c s).trans (congrArg _ hrun), rfl, rfl, rfl, rfl, rfl, rfl⟩

/-- Settles O27: the legal cachelines are skipped, the illegal pattern is the fault of the next one, and the decode
reports it. -/
theorem illegalPatternFaults : Obligations.IllegalPatternFaults := by
  intro c s k c0 px ch hc hcur hk hlayout hc0 hillegal
  obtain ⟨m, hncl⟩ : ∃ m, c.params.ncl = k + (m + 1) := Nat.exists_eq_add_of_lt hk
  have hfault : cachelinesFault s.payload s.dp.cur.val c.params.ncl = some (.headerPattern, c0 + 16) := by
    rw [hcur, hncl]
    exact (cachelinesFault_after_layout hlayout (m + 1)).trans
      (cachelinesFault_succ_of_some (cachelineFault_of_illegal_pattern hc0 hillegal))
  obtain ⟨d, hbody, hpos⟩ := bodyOf_vendorA_error hc s.parameters.rightInherit
    (d := { s.dp with mp := c.params }) hfault
  obtain ⟨t, hexec, hstatus, houtlen, hhost⟩ := exec_ofCommand_of_body_error hbody
  rw [hpos] at hstatus
  exact ⟨t, hexec, hstatus, by rw [hstatus]; rfl, houtlen, hhost⟩

end Sys2Proof.Machine
end

section
/-!
PROOFS. The delta chain of vendor A (43_vendor_a_delta_chain.md): the bits of a group, the chain of a side, and the
samples each KIND gives.
-/

namespace Sys2Proof.Machine

variable {α : Type}

/-! ### Operations that read bit by bit -/

/-- An operation that reads n bits one at a time and answers had them all in the payload. -/
theorem BitByBit.le_of_ok {m : Micro α} {n : Nat} (h : BitByBit m n) {d d' : Datapath} {a : α}
    (hrun : m d = .ok a d') : d.cur.val + n ≤ 512 := by
  by_contra hpast
  obtain ⟨d₁, hfault, -⟩ := h _ (Nat.le_of_lt_succ d.cur.isLt) (by omega) d rfl
  rw [hrun] at hfault
  cases hfault

/-- What an operation known by its cursor positions answers, read off a run of it. -/
theorem Answers.of_ok {m : Micro α} {d d' : Datapath} {q' : Nat} {a b : α} (h : Answers m d.cur.val a q')
    (hrun : m d = .ok b d') : b = a ∧ d'.cur.val = q' := by
  obtain ⟨d₁, hanswer, hcur, -⟩ := h d rfl
  rw [hrun] at hanswer
  cases hanswer
  exact ⟨rfl, hcur⟩

/-! ### The bits of a group -/

theorem groupAt_s (pl : Payload) (p w : Nat) (i : Fin 4) : (groupAt pl p w).s[i] = payloadBit pl (p + i.val) := by
  fin_cases i <;> rfl

theorem groupAt_d (pl : Payload) (p w : Nat) (i : Fin 4) : (groupAt pl p w).d[i] = magnitudeAt pl p w i.val := by
  fin_cases i <;> rfl

/-- Settles O47: ReadGroup answers the group of the layout, whose signs and magnitudes are bits in their places. -/
theorem readGroupRule : Obligations.ReadGroupRule := by
  intro pl w d hin
  obtain ⟨d', hrun, hcur, -⟩ := answers_readGroup pl w hin d rfl
  refine ⟨_, d', hrun, hcur, fun i => ⟨groupAt_s pl _ _ i, fun k => ?magnitude⟩⟩
  case magnitude =>
    rw [groupAt_d, magnitudeAt_getLsbD _ _ _ _ _ (by omega),
      show d.cur.val + 4 + 4 * k + i.val = d.cur.val + (4 + 4 * k + i.val) by omega]

/-! ### The chain of a side -/

/-- Settles O48: `chain` names each sample's predecessor as the graph does, and ADD8 is addition of bytes. -/
theorem chainGraph : Obligations.ChainGraph := fun _ _ _ => ⟨rfl, rfl, rfl, rfl, rfl, rfl, rfl, rfl⟩

@[simp] theorem chain_at_zero_zero (seed : Byte) (g0 g1 : Group) : (chain seed g0 g1).at 0 0 = seed := rfl

/-- All eight samples of a constant side are the same. -/
@[simp] theorem flatSide_at (v : Byte) (row j : Nat) : (flatSide v).at row j = v := by
  have hcolumn : ∀ k (hk : k < 4), #v[v, v, v, v][k] = v := fun k hk => by interval_cases k <;> rfl
  unfold Samples.at flatSide
  split <;> exact hcolumn _ _

/-! ### The right side of a channel, by KIND -/

section
variable (inherit : Config.RightInherit) (pl : Payload) {plan : PerSide Plan} (q : Nat) (v : Byte)

/-- A FLATINH side holds the left side's last upper-row sample, whatever the left side's KIND (R180). -/
theorem pairSamplesAt_r_of_flatInh (h : plan.r.kind = .flatInh) :
    (pairSamplesAt inherit pl plan q v).r = flatSide ((pairSamplesAt inherit pl plan q v).l.at 0 3) := by
  simp only [pairSamplesAt, sideSamplesAt, h]
  rfl

/-- A CHAIN side starts at the seed A_RIGHT_INHERIT selects, from the left side's last upper-row sample and the right
side's first group (R176). -/
theorem pairSamplesAt_r_seed_of_chain (h : plan.r.kind = .chain) :
    (pairSamplesAt inherit pl plan q v).r.at 0 0 =
      chainSeed inherit plan.r.base ((pairSamplesAt inherit pl plan q v).l.at 0 3)
        (groupAt pl (q + sideBits plan.l) plan.r.width.val) := by
  simp only [pairSamplesAt, sideSamplesAt, h, chain_at_zero_zero]
  rfl

end

/-- A channel that is reconstructed lies within the payload, and holds the samples of the layout with the cursor after
its two sides. -/
theorem reconstructChannel_eq_ok {inherit : Config.RightInherit} {pl : Payload} {plan : PerSide Plan} {old : Samples}
    {d d' : Datapath} {p : PerSide Samples} (h : reconstructChannel inherit pl plan old d = .ok p d') :
    p = pairSamplesAt inherit pl plan d.cur.val old.upper[3] ∧
      d'.cur.val = d.cur.val + (sideBits plan.l + sideBits plan.r) :=
  have hin := (bitByBit_reconstructChannel inherit pl plan old).le_of_ok h
  (answers_reconstructChannel inherit pl plan old hin).of_ok h

/-- Settles O49: a side answers the samples of its layout; on the right, FLATINH is constant and CHAIN is seeded, both
from the left side's last upper-row sample, by the two lemmas on the right side. -/
theorem sidesByKind : Obligations.SidesByKind := by
  refine ⟨fun inherit pl base v w d => ?flat, fun inherit pl base v w d hin => ⟨?hseed, ?smseed⟩,
    fun inherit pl plan old d d' p hrun => ?right⟩
  case flat => exact ⟨flatSide base, rfl, flatSide_at base⟩
  case hseed =>
    obtain ⟨d', hrun, -⟩ := answers_reconstructSide inherit pl ⟨.hseed, base, w⟩ v hin d rfl
    exact ⟨_, d', hrun, hseed_toNat base _ _⟩
  case smseed =>
    obtain ⟨d', hrun, -⟩ := answers_reconstructSide inherit pl ⟨.smseed, base, w⟩ v hin d rfl
    exact ⟨_, d', hrun, rfl⟩
  case right =>
    obtain ⟨rfl, hcur⟩ := reconstructChannel_eq_ok hrun
    refine ⟨hcur.trans (Nat.add_assoc _ _ _).symm, fun hkind row j => ?flatInh, fun hkind => ?chain⟩
    case flatInh => rw [pairSamplesAt_r_of_flatInh inherit pl _ _ hkind, flatSide_at]
    case chain =>
      have hseed := pairSamplesAt_r_seed_of_chain inherit pl d.cur.val old.upper[3] hkind
      cases inherit with
      | chain => exact hseed
      | absoluteSm => exact hseed
      | baseSeed => exact (congrArg BitVec.toNat hseed).trans (hseed_toNat _ _ _)

end Sys2Proof.Machine
end

section
/-!
PROOFS. What a whole vendor-B decode ends in (44_vendor_b_decode.md): from CUR 0 a gen8 or a gen11 decode faults as its
layout says, or fills LP with the pixels of its records and leaves the cursor at the end of its stream.
-/

namespace Sys2Proof.Machine

variable {α β : Type}

/-! ### Runs that store registers -/

/-- From d, m faults as f says; when f is none it answers a with the cursor at q', and `post` holds of the internal
registers after it. Where `Outcome` moves the cursor alone, m may store any register. -/
def Ends (m : Micro α) (d : Datapath) (f : Option (Detail × Nat)) (a : α) (q' : Nat) (post : Datapath → Prop) : Prop :=
  (f = none → ∃ d', m d = .ok a d' ∧ d'.cur.val = q' ∧ post d') ∧
  ∀ x, f = some x → ∃ d', m d = .error x.1 d' ∧ d'.cur.val = x.2

theorem ends_bind {m : Micro α} {k : α → Micro β} {d : Datapath} {f g : Option (Detail × Nat)} {a : α} {b : β}
    {q' q'' : Nat} {post post' : Datapath → Prop} (hm : Ends m d f a q' post)
    (hk : ∀ d', f = none → d'.cur.val = q' → post d' → Ends (k a) d' g b q'' post') :
    Ends (m >>= k) d (orElse f g) b q'' post' := by
  cases f with
  | some x =>
    obtain ⟨d', hrun, hcur⟩ := hm.2 x rfl
    refine ⟨fun h => (by cases h), fun y h => ?_⟩
    cases h
    exact ⟨d', micro_bind_error hrun, hcur⟩
  | none =>
    obtain ⟨d', hrun, hcur, hpost⟩ := hm.1 rfl
    have hrest := hk d' rfl hcur hpost
    unfold Ends
    rw [micro_bind_ok hrun]
    exact hrest

theorem Ends.imp {m : Micro α} {d : Datapath} {f : Option (Detail × Nat)} {a : α} {q' : Nat}
    {post post' : Datapath → Prop} (h : Ends m d f a q' post) (himp : ∀ d', post d' → post' d') :
    Ends m d f a q' post' := by
  refine ⟨fun hf => ?_, h.2⟩
  obtain ⟨d', hrun, hcur, hpost⟩ := h.1 hf
  exact ⟨d', hrun, hcur, himp d' hpost⟩

/-- The cursor moves as `Outcome` says, and no other register changes. -/
theorem Outcome.ends {m : Micro α} {q q' : Nat} {f : Option (Detail × Nat)} {a : α} (h : Outcome m q f a q')
    {d : Datapath} (hq : d.cur.val = q) : Ends m d f a q' fun d' => d' = { d with cur := d'.cur } := by
  refine ⟨fun hf => h.1 hf d hq, fun x hx => ?_⟩
  obtain ⟨d', hrun, hcur, -⟩ := h.2 x hx d hq
  exact ⟨d', hrun, hcur⟩

/-- After an operation that cannot fault, the rest decides. -/
theorem Answers.bind_ends {m : Micro α} {k : α → Micro β} {q q' q'' : Nat} {a : α} {b : β}
    {g : Option (Detail × Nat)} {post : Datapath → Prop} (hm : Answers m q a q') {d : Datapath} (hq : d.cur.val = q)
    (hk : ∀ d', d'.cur.val = q' → Ends (k a) d' g b q'' post) : Ends (m >>= k) d g b q'' post :=
  ends_bind (f := none) ((outcome_of_answers hm).ends hq) fun d' _ hcur _ => hk d' hcur

theorem ends_get_bind {k : Datapath → Micro β} {d : Datapath} {f : Option (Detail × Nat)} {b : β} {q : Nat}
    {post : Datapath → Prop} (h : Ends (k d) d f b q post) : Ends (get >>= k) d f b q post := h

theorem ends_modify_bind {g : Datapath → Datapath} {k : Unit → Micro β} {d : Datapath} {f : Option (Detail × Nat)}
    {b : β} {q : Nat} {post : Datapath → Prop} (h : Ends (k ()) (g d) f b q post) :
    Ends (modify g >>= k) d f b q post := h

/-- An operation, and the write of its result, which leaves the cursor. -/
theorem Outcome.ends_store {m : Micro α} {q q' : Nat} {f : Option (Detail × Nat)} {a : α} (h : Outcome m q f a q')
    {d : Datapath} (hq : d.cur.val = q) {store : α → Datapath → Datapath} {post : Datapath → Prop}
    (hcur : ∀ d', (store a d').cur = d'.cur) (hpost : ∀ d', post (store a d')) :
    Ends (m >>= fun x => modify (store x)) d f () q' post := by
  obtain ⟨hok, herr⟩ := h.ends hq
  refine ⟨fun hf => ?_, fun x hx => ?_⟩
  · obtain ⟨d', hrun, hq', -⟩ := hok hf
    exact ⟨store a d', micro_bind_ok hrun, (congrArg Fin.val (hcur d')).trans hq', hpost d'⟩
  · obtain ⟨d', hrun, hq'⟩ := herr x hx
    exact ⟨d', micro_bind_error hrun, hq'⟩

/-! ### The checks -/

/-- The fault of the width check at bit q (44_vendor_b_decode.md R193, R199). -/
def widthFault (sum budget q : Nat) : Option (Detail × Nat) := if budget < sum then some (.widthBudget, q) else none

theorem widthFault_eq_none {sum budget q : Nat} : widthFault sum budget q = none ↔ sum ≤ budget := by
  unfold widthFault
  split <;> simp <;> omega

theorem checkWidths_ends (wb : Rgba (Fin 8)) (budget : Nat) (d : Datapath) :
    Ends (checkWidths wb budget) d (widthFault (widthSum wb) budget d.cur.val) () d.cur.val (· = d) := by
  unfold checkWidths widthFault
  by_cases h : budget < widthSum wb
  · rw [if_pos h, if_pos h]
    refine ⟨fun hf => (by cases hf), fun x hx => ?_⟩
    cases hx
    exact ⟨d, rfl, rfl⟩
  · rw [if_neg h, if_neg h]
    exact ⟨fun _ => ⟨d, rfl, rfl, rfl⟩, fun x hx => by cases hx⟩

/-- The fault of the count of uniform flags (44_vendor_b_decode.md R200). -/
def uniformFault (pl : Payload) : Option (Detail × Nat) :=
  if setBits pl 44 8 = 4 then none else some (.uniformCount, 52)

/-- The uniform flags by position, in order. -/
def uniformFlags (pl : Payload) : List Bool := (List.range 8).map (uniformAt pl)

theorem flagsOf_toList {us : List Bool} (h : us.length = 8) : (flagsOf us).toList = us := by
  refine List.ext_getElem (by simp [h]) fun k hk _ => ?_
  simp [flagsOf, show k < us.length from by simpa [h] using hk]

theorem count_uniformFlags (pl : Payload) : (uniformFlags pl).count true = setBits pl 44 8 := by
  rw [uniformFlags, setBits, List.count, List.countP_map, List.countP_eq_length_filter]
  congr 1
  refine List.filter_congr fun k _ => ?_
  simp [uniformAt]

theorem flagsOf_uniformFlags (pl : Payload) : (flagsOf (uniformFlags pl)).toList = uniformFlags pl :=
  flagsOf_toList (by simp [uniformFlags])

theorem extensionFlags_ends (pl : Payload) {d : Datapath} (hq : d.cur.val = 44) :
    Ends (extensionFlags pl) d (uniformFault pl) () 52 fun d' => d'.u.toList = uniformFlags pl := by
  have hflags : Answers (readFlags pl 8) 44 (uniformFlags pl) 52 :=
    answers_repeatMicro (p := fun k => 44 + k) fun k hk => answers_readFlag pl (by omega)
  refine hflags.bind_ends hq fun d₁ hcur => ends_modify_bind ?_
  have hcount : popcount (flagsOf (uniformFlags pl)) = setBits pl 44 8 := by
    rw [popcount, flagsOf_uniformFlags, count_uniformFlags]
  unfold checkUniform uniformFault
  rw [hcount]
  by_cases h4 : setBits pl 44 8 = 4
  · rw [if_pos h4, if_pos h4]
    exact ⟨fun _ => ⟨_, rfl, hcur, flagsOf_uniformFlags pl⟩, fun x hx => by cases hx⟩
  · rw [if_neg h4, if_neg h4]
    refine ⟨fun hf => (by cases hf), fun x hx => ?_⟩
    cases hx
    exact ⟨_, rfl, hcur⟩

/-- A uniform sub-window saves three of its four records. -/
theorem recordsOf_add_count (us : List Bool) : recordsOf us + 3 * us.count true = 4 * us.length := by
  induction us with
  | nil => rfl
  | cons u us ih => cases u <;> simp [recordsOf] <;> omega

theorem uniformFault_eq_none {pl : Payload} : uniformFault pl = none ↔ setBits pl 44 8 = 4 := by simp [uniformFault]

/-- With four uniform sub-windows there are 20 records (44_vendor_b_decode.md R205). -/
theorem recordsOf_uniformFlags {pl : Payload} (h : uniformFault pl = none) : recordsOf (uniformFlags pl) = 20 := by
  have hsum := recordsOf_add_count (uniformFlags pl)
  have hlength : (uniformFlags pl).length = 8 := by simp [uniformFlags]
  rw [count_uniformFlags, uniformFault_eq_none.1 h, hlength] at hsum
  omega

/-! ### Must-be-zero regions in a row -/

@[simp] theorem none_orElse (g : Option (Detail × Nat)) : orElse none g = g := rfl

theorem regionsFault_cons (pl : Payload) (qr : Nat × Nat) (rs : List (Nat × Nat)) :
    regionsFault pl (qr :: rs) = orElse (regionFault pl qr.1 qr.2) (regionsFault pl rs) := by
  rw [regionsFault_eq, regionsFault_eq, List.findSome?_cons]
  cases regionFault pl qr.1 qr.2 <;> rfl

theorem regionsFault_append (pl : Payload) (rs rs' : List (Nat × Nat)) :
    regionsFault pl (rs ++ rs') = orElse (regionsFault pl rs) (regionsFault pl rs') := by
  induction rs with
  | nil => rfl
  | cons r rs ih => rw [List.cons_append, regionsFault_cons, ih, ← orElse_assoc, ← regionsFault_cons]

theorem regionsFault_map_range (pl : Payload) (q r : Nat → Nat) (n : Nat) :
    regionsFault pl ((List.range n).map fun i => (q i, r i)) =
      (List.range n).findSome? fun i => regionFault pl (q i) (r i) := by
  rw [regionsFault_eq, List.findSome?_map]
  rfl

/-! ### gen8 -/

/-- LP of a gen8 payload. -/
def gen8Logical (pl : Payload) : Vector Pixel 32 := logicalPixels 0 ((List.range 32).map (gen8PixelAt pl))

/-- At most four channels have a width field. -/
theorem gen8Coded_le (pl : Payload) : gen8Coded pl 4 ≤ 4 := Nat.sub_le _ _

theorem gen8Header_ends (pl : Payload) {d : Datapath} (hq : d.cur.val = 0) :
    Ends (gen8Header pl) d (widthFault (gen8WidthsBefore pl 4) 14 (36 + 3 * gen8Coded pl 4)) ()
      (36 + 3 * gen8Coded pl 4)
      fun d' => d'.skip = gen8Skips pl ∧ d'.baseB = gen8Bases pl ∧ d'.wb = gen8Widths pl := by
  refine (answers_gen8Skips pl).bind_ends hq fun d₁ h₁ => (answers_gen8Bases pl).bind_ends h₁ fun d₂ h₂ =>
    (answers_gen8Widths pl).bind_ends h₂ fun d₃ h₃ => ends_modify_bind ?_
  have hcheck := checkWidths_ends (gen8Widths pl) 14
    { d₃ with skip := gen8Skips pl, baseB := gen8Bases pl, wb := gen8Widths pl }
  rw [widthSum_gen8, h₃] at hcheck
  exact hcheck.imp (by rintro _ rfl; exact ⟨rfl, rfl, rfl⟩)

/-- The padding to bit 496, and the reserved tail (44_vendor_b_decode.md R195). -/
theorem gen8Tail_ends (pl : Payload) {d : Datapath} {q : Nat} (hcur : d.cur.val = q) (hq : q ≤ 496) :
    Ends (gen8Tail pl) d (orElse (regionFault pl q 496) (regionFault pl 496 512)) () 512
      fun d' => d' = { d with cur := d'.cur } := by
  subst hcur
  have hpad := outcome_expectZeroBits pl (n := 496 - d.cur.val) (q := d.cur.val) (by omega)
  rw [show d.cur.val + (496 - d.cur.val) = 496 by omega] at hpad
  exact ends_get_bind (Outcome.ends (outcome_bind hpad fun _ => outcome_expectZeroBits pl (by omega)) rfl)

/-- The checks of a gen8 decode in its order. -/
theorem gen8Fault_eq (pl : Payload) :
    gen8Fault pl = orElse (widthFault (gen8WidthsBefore pl 4) 14 (36 + 3 * gen8Coded pl 4))
      (orElse ((List.range 32).findSome? fun i =>
          regionFault pl (gen8RecordAt pl i + gen8WidthsBefore pl 4) (gen8RecordAt pl (i + 1)))
        (orElse (regionFault pl (gen8RecordAt pl 32) 496) (regionFault pl 496 512))) := by
  unfold gen8Fault widthFault
  split
  · rfl
  · rw [regionsFault_append, regionsFault_map_range, regionsFault_cons, regionsFault_cons]
    simp [orElse_none, regionsFault]

/-- The 32 records end before the padding. -/
theorem gen8RecordAt_le (pl : Payload) {i : Nat} (hi : i ≤ 32) : gen8RecordAt pl i ≤ 496 := by
  have hcoded := gen8Coded_le pl
  unfold gen8RecordAt
  omega

/-- The 32 records of a gen8 stream. -/
theorem gen8Records_outcome (pl : Payload) (hw : gen8WidthsBefore pl 4 ≤ 14) :
    Outcome (repeatMicro (gen8Record pl (gen8Skips pl) (gen8Bases pl) (gen8Widths pl)) 32)
      (36 + 3 * gen8Coded pl 4)
      ((List.range 32).findSome? fun i =>
        regionFault pl (gen8RecordAt pl i + gen8WidthsBefore pl 4) (gen8RecordAt pl (i + 1)))
      ((List.range 32).map (gen8PixelAt pl)) (gen8RecordAt pl 32) :=
  outcome_repeatMicro (p := gen8RecordAt pl) fun i hi =>
    gen8Record_outcome pl i hw ((gen8RecordAt_le pl hi).trans (by omega))

/-- A gen8 decode from CUR 0, whatever the other registers hold. -/
theorem decodeGen8_ends (pl : Payload) {d : Datapath} (hq : d.cur.val = 0) :
    Ends (decodeGen8 pl) d (gen8Fault pl) () 512 fun d' => d'.lp = gen8Logical pl := by
  rw [gen8Fault_eq]
  refine ends_bind (gen8Header_ends pl hq) fun d₁ hwidths hcur ⟨hskip, hbase, hwb⟩ => ends_get_bind ?_
  rw [hskip, hbase, hwb]
  have hrecords := gen8Records_outcome pl (widthFault_eq_none.1 hwidths)
  refine ends_bind (hrecords.ends hcur) fun d₂ _ hcur₂ _ => ends_modify_bind ?_
  refine Ends.imp (gen8Tail_ends pl hcur₂ (gen8RecordAt_le pl le_rfl)) fun d' hd' => ?_
  rw [hd']
  rfl

/-! ### gen11 -/

/-- Where the records of a gen11 stream start: after the widths, or after the uniform flags. -/
def gen11RecordsAt (mp : ModeParams) : Nat := if mp.ext then 52 else 44

/-- The number of records of a gen11 stream. -/
def gen11RecordCount (mp : ModeParams) : Nat := if mp.ext then 20 else mp.hi + 1 - mp.lo

/-- Where a gen11 stream ends (44_vendor_b_decode.md R208). -/
def gen11End (mp : ModeParams) : Nat := gen11RecordsAt mp + mp.budget * gen11RecordCount mp

/-- The pixel of record i. -/
def gen11RecordPixel (pl : Payload) (mp : ModeParams) (i : Nat) : Pixel :=
  gen11PixelAt pl mp.pred (gen11RecordsAt mp + mp.budget * i)

/-- LP of a gen11 payload. -/
def gen11Logical (pl : Payload) (mp : ModeParams) : Vector Pixel 32 :=
  if mp.ext then logicalPixels 0 (windowPixels (gen11RecordPixel pl mp) (uniformFlags pl) 0)
  else logicalPixels mp.lo ((List.range (gen11RecordCount mp)).map (gen11RecordPixel pl mp))

section
variable {mp : ModeParams}

theorem gen11RecordsAt_of_ext (h : mp.ext = true) : gen11RecordsAt mp = 52 := if_pos h

theorem gen11RecordsAt_of_not_ext (h : mp.ext = false) : gen11RecordsAt mp = 44 := if_neg (by simp [h])

theorem gen11RecordCount_of_ext (h : mp.ext = true) : gen11RecordCount mp = 20 := if_pos h

theorem gen11RecordCount_of_not_ext (h : mp.ext = false) : gen11RecordCount mp = mp.hi + 1 - mp.lo :=
  if_neg (by simp [h])

theorem gen11Logical_of_ext (h : mp.ext = true) (pl : Payload) :
    gen11Logical pl mp = logicalPixels 0 (windowPixels (gen11RecordPixel pl mp) (uniformFlags pl) 0) := if_pos h

theorem gen11Logical_of_not_ext (h : mp.ext = false) (pl : Payload) :
    gen11Logical pl mp = logicalPixels mp.lo ((List.range (gen11RecordCount mp)).map (gen11RecordPixel pl mp)) :=
  if_neg (by simp [h])

end

/-- A record ends within its stream. -/
theorem gen11Record_le_end {mp : ModeParams} {i : Nat} (hi : i < gen11RecordCount mp) :
    gen11RecordsAt mp + mp.budget * i + mp.budget ≤ gen11End mp := by
  have hlast : mp.budget * (i + 1) ≤ mp.budget * gen11RecordCount mp := Nat.mul_le_mul_left _ hi
  rw [Nat.mul_succ] at hlast
  unfold gen11End
  omega

/-- The first fault among the tails of the records. -/
def gen11TailsFault (pl : Payload) (mp : ModeParams) : Option (Detail × Nat) :=
  (List.range (gen11RecordCount mp)).findSome? fun i =>
    tailFault pl mp.pred mp.budget (gen11RecordsAt mp + mp.budget * i)

/-- The checks of a gen11 decode in its order. -/
theorem gen11Fault_eq (pl : Payload) (mp : ModeParams) :
    gen11Fault pl mp.pred mp.budget (gen11RecordsAt mp) (gen11RecordCount mp) mp.ext =
      orElse (widthFault (gen11WidthsBefore pl mp.pred 4) mp.budget 44)
        (orElse (if mp.ext then uniformFault pl else none) (gen11TailsFault pl mp)) := by
  have htails : regionsFault pl ((List.range (gen11RecordCount mp)).map fun i =>
      (gen11RecordsAt mp + mp.budget * i + gen11WidthsBefore pl mp.pred 4, gen11RecordsAt mp + mp.budget * (i + 1))) =
      gen11TailsFault pl mp := by
    simp only [regionsFault_map_range, Nat.mul_succ, ← Nat.add_assoc]
    rfl
  unfold gen11Fault widthFault uniformFault
  rw [htails]
  split
  · rfl
  · cases mp.ext
    · rfl
    · by_cases h4 : setBits pl 44 8 = 4
      · simp [h4]
      · simp only [h4, ne_eq, not_false_eq_true, and_self, if_true, if_false]
        rfl

theorem gen11Header_ends (pl : Payload) (mp : ModeParams) {d : Datapath} (hq : d.cur.val = 0) :
    Ends (gen11Header pl mp) d (widthFault (gen11WidthsBefore pl mp.pred 4) mp.budget 44) () 44
      fun d' => d'.baseB = gen11Bases pl mp.pred ∧ d'.wb = gen11Widths pl mp.pred := by
  refine (answers_gen11Bases pl mp.pred).bind_ends hq fun d₁ h₁ =>
    (answers_gen11Widths pl mp.pred).bind_ends h₁ fun d₂ h₂ => ends_modify_bind ?_
  have hcheck := checkWidths_ends (gen11Widths pl mp.pred) mp.budget
    { d₂ with baseB := gen11Bases pl mp.pred, wb := gen11Widths pl mp.pred }
  rw [widthSum_gen11, h₂] at hcheck
  exact hcheck.imp (by rintro _ rfl; exact ⟨rfl, rfl⟩)

/-- The extension walk from its first record. -/
theorem extensionWalk_outcome_first {record : Micro Pixel} {f : Nat → Option (Detail × Nat)} {px : Nat → Pixel}
    {p : Nat → Nat} (us : List Bool)
    (h : ∀ i < recordsOf us, Outcome record (p i) (f i) (px i) (p (i + 1))) :
    Outcome (extensionWalk record us) (p 0) ((List.range (recordsOf us)).findSome? f) (windowPixels px us 0)
      (p (recordsOf us)) := by
  have hwalk := extensionWalk_outcome (record := record) (f := f) (px := px) (p := p) us 0
  simp only [Nat.zero_add] at hwalk
  exact hwalk h

section
variable (pl : Payload) {mp : ModeParams} (hwidths : gen11WidthsBefore pl mp.pred 4 ≤ mp.budget)
  (hend : gen11End mp ≤ 512)
include hwidths hend

/-- Record i, among those of the stream. -/
theorem gen11Record_at {i : Nat} (hi : i < gen11RecordCount mp) :
    Outcome (gen11Record pl mp (gen11Bases pl mp.pred) (gen11Widths pl mp.pred)) (gen11RecordsAt mp + mp.budget * i)
      (tailFault pl mp.pred mp.budget (gen11RecordsAt mp + mp.budget * i)) (gen11RecordPixel pl mp i)
      (gen11RecordsAt mp + mp.budget * (i + 1)) := by
  rw [Nat.mul_succ, ← Nat.add_assoc]
  exact gen11Record_outcome pl mp hwidths ((gen11Record_le_end hi).trans hend)

/-- The records of a command without EXT. -/
theorem gen11Range_ends (hext : mp.ext = false) {d : Datapath} (hq : d.cur.val = 44) :
    Ends (gen11Range (gen11Record pl mp (gen11Bases pl mp.pred) (gen11Widths pl mp.pred)) mp.lo mp.hi) d
      (gen11TailsFault pl mp) () (gen11End mp) fun d' => d'.lp = gen11Logical pl mp := by
  have hrecords := outcome_repeatMicro (p := fun i => gen11RecordsAt mp + mp.budget * i) fun i hi =>
    gen11Record_at pl hwidths hend hi
  rw [gen11Range, ← gen11RecordCount_of_not_ext hext]
  exact Outcome.ends_store hrecords (hq.trans (gen11RecordsAt_of_not_ext hext).symm) (fun _ => rfl)
    fun _ => (gen11Logical_of_not_ext hext pl).symm

/-- The records of a command with EXT. -/
theorem gen11Extension_ends (hext : mp.ext = true) {d : Datapath} (hq : d.cur.val = 44) :
    Ends (gen11Extension pl (gen11Record pl mp (gen11Bases pl mp.pred) (gen11Widths pl mp.pred))) d
      (orElse (uniformFault pl) (gen11TailsFault pl mp)) () (gen11End mp) fun d' => d'.lp = gen11Logical pl mp := by
  refine ends_bind (extensionFlags_ends pl hq) fun d₁ hfour hcur hflags => ends_get_bind ?_
  rw [hflags]
  have hcount : recordsOf (uniformFlags pl) = gen11RecordCount mp :=
    (recordsOf_uniformFlags hfour).trans (gen11RecordCount_of_ext hext).symm
  have hrecords := extensionWalk_outcome_first (p := fun i => gen11RecordsAt mp + mp.budget * i) (uniformFlags pl)
    fun i hi => gen11Record_at pl hwidths hend (hcount ▸ hi)
  rw [hcount] at hrecords
  exact Outcome.ends_store hrecords (hcur.trans (gen11RecordsAt_of_ext hext).symm) (fun _ => rfl)
    fun _ => (gen11Logical_of_ext hext pl).symm

end

/-- A gen11 decode from CUR 0, whatever the other registers hold. -/
theorem decodeGen11_ends (pl : Payload) {mp : ModeParams} (hend : gen11End mp ≤ 512) {d : Datapath}
    (hq : d.cur.val = 0) :
    Ends (decodeGen11 pl mp) d (gen11Fault pl mp.pred mp.budget (gen11RecordsAt mp) (gen11RecordCount mp) mp.ext) ()
      (gen11End mp) fun d' => d'.lp = gen11Logical pl mp := by
  rw [gen11Fault_eq]
  refine ends_bind (gen11Header_ends pl mp hq) fun d₁ hwidths hcur ⟨hbase, hwb⟩ => ends_get_bind ?_
  rw [hbase, hwb]
  have hfit := widthFault_eq_none.1 hwidths
  cases hext : mp.ext with
  | true => exact gen11Extension_ends pl hfit hend hext hcur
  | false => exact gen11Range_ends pl hfit hend hext hcur

end Sys2Proof.Machine
end

section
/-!
PROOFS. The faults of the two vendor-B headers, and where a vendor-B decode ends (44_vendor_b_decode.md R193, R196,
R199, R200, R208).
-/

namespace Sys2Proof.Machine

/-! ### How a vendor-B decode leaves the machine -/

/-- t is what the fault x of a decode leaves of s (60_exceptions.md R243). -/
structure Faulted (s t : State) (x : Detail × Nat) : Prop where
  status : t.status = faultStatus x.1 s.status.warn x.2
  outlen : t.outlen = 0
  host : SameHostSide s t

/-- t is what a vendor-B decode leaves of s that ends at bit q with the logical pixels lp (41_commands.md R143). -/
structure DoneB (s t : State) (lp : Vector Pixel 32) (q : Nat) : Prop where
  status : t.status = doneStatus s.status.warn q
  outlen : t.outlen = 128
  out : ∃ rest, t.out = storePixels (assembleB Config.bSlot lp) rest
  host : SameHostSide s t

theorem Faulted.fault {s t : State} {x : Detail × Nat} (h : Faulted s t x) : t.status.fault = x.1.kind := by
  rw [h.status]
  rfl

/-- The assembler, once LP is filled. -/
theorem assembledB_ends {fill : Micro Unit} {d : Datapath} {f : Option (Detail × Nat)} {q : Nat} {lp : Vector Pixel 32}
    (h : Ends fill d f () q fun d' => d'.lp = lp) :
    Ends (assembledB fill) d f (assembleB Config.bSlot lp) q fun _ => True := by
  refine ⟨fun hf => ?_, fun x hx => ?_⟩
  · obtain ⟨d', hrun, hcur, rfl⟩ := h.1 hf
    exact ⟨d', micro_bind_ok hrun, hcur, trivial⟩
  · obtain ⟨d', hrun, hcur⟩ := h.2 x hx
    exact ⟨d', micro_bind_error hrun, hcur⟩

section
variable {c : Command} {s : State} {f : Option (Detail × Nat)} {lp : Vector Pixel 32} {q : Nat}

theorem Ends.exec_fault {px : List Pixel} {post : Datapath → Prop}
    (h : Ends (bodyOf s.parameters.rightInherit c s.payload c.params) { s.dp with mp := c.params } f px q post)
    {x : Detail × Nat} (hx : f = some x) : ∃ t, exec (.ofCommand c) s = .next t ∧ Faulted s t x := by
  obtain ⟨d, hbody, hcur⟩ := h.2 x hx
  obtain ⟨t, hexec, hstatus, houtlen, hhost⟩ := exec_ofCommand_of_body_error hbody
  exact ⟨t, hexec, hcur ▸ hstatus, houtlen, hhost⟩

theorem Ends.exec_done {post : Datapath → Prop}
    (h : Ends (bodyOf s.parameters.rightInherit c s.payload c.params) { s.dp with mp := c.params } f
      (assembleB Config.bSlot lp) q post) (hf : f = none) (hlen : c.params.variant.outlen = 128) :
    ∃ t, exec (.ofCommand c) s = .next t ∧ DoneB s t lp q := by
  obtain ⟨d, hbody, hcur, -⟩ := h.1 hf
  have hrun : runDecode c (bodyOf s.parameters.rightInherit c) s =
      complete c.params.variant (assembleB Config.bSlot lp) { s with dp := d } := by simp only [runDecode, hbody]
  refine ⟨_, (exec_ofCommand c s).trans (congrArg _ hrun), ?_, hlen, ⟨_, rfl⟩, rfl, rfl, rfl, rfl⟩
  rw [← hcur]
  rfl

end

/-! ### gen8 -/

section
variable {s : State} (hcur : s.dp.cur = 0)
include hcur

theorem gen8_body_ends :
    Ends (bodyOf s.parameters.rightInherit .b8 s.payload Command.b8.params) { s.dp with mp := Command.b8.params }
      (gen8Fault s.payload) (assembleB Config.bSlot (gen8Logical s.payload)) 512 fun _ => True :=
  assembledB_ends (decodeGen8_ends s.payload (congrArg Fin.val hcur))

theorem gen8_fault {x : Detail × Nat} (hx : gen8Fault s.payload = some x) :
    ∃ t, exec .decodeB8 s = .next t ∧ Faulted s t x := (gen8_body_ends hcur).exec_fault hx

theorem gen8_done (hf : gen8Fault s.payload = none) :
    ∃ t, exec .decodeB8 s = .next t ∧ DoneB s t (gen8Logical s.payload) 512 := (gen8_body_ends hcur).exec_done hf rfl

end

/-! ### gen11 -/

/-- The gen11 checks of a command, in the order of its decode. -/
theorem firstFault_gen11 {c : Command} (h : c.params.variant = .b11) (pl : Payload) :
    firstFault pl c =
      gen11Fault pl c.params.pred c.params.budget (gen11RecordsAt c.params) (gen11RecordCount c.params)
        c.params.ext := by
  cases c with
  | a4 | a3 | a2 | b8 => cases h
  | b11s0 | b11s1 | b11s2 | b11s3 | b11s0x | b11s3x => rfl

/-- Every gen11 stream ends within the payload. -/
theorem gen11End_le {c : Command} (h : c.params.variant = .b11) : gen11End c.params ≤ 512 := by
  cases c with
  | a4 | a3 | a2 | b8 => cases h
  | b11s0 | b11s1 | b11s2 | b11s3 | b11s0x | b11s3x => decide

theorem bodyOf_gen11 {c : Command} (h : c.params.variant = .b11) (inherit : Config.RightInherit) :
    bodyOf inherit c = bodyB11 := by
  cases c with
  | a4 | a3 | a2 | b8 => cases h
  | b11s0 | b11s1 | b11s2 | b11s3 | b11s0x | b11s3x => rfl

section
variable {c : Command} (hgen11 : c.params.variant = .b11) {s : State} (hcur : s.dp.cur = 0)
include hgen11 hcur

theorem gen11_body_ends :
    Ends (bodyOf s.parameters.rightInherit c s.payload c.params) { s.dp with mp := c.params } (firstFault s.payload c)
      (assembleB Config.bSlot (gen11Logical s.payload c.params)) (gen11End c.params) fun _ => True := by
  rw [bodyOf_gen11 hgen11, firstFault_gen11 hgen11]
  exact assembledB_ends (decodeGen11_ends s.payload (gen11End_le hgen11) (congrArg Fin.val hcur))

theorem gen11_fault {x : Detail × Nat} (hx : firstFault s.payload c = some x) :
    ∃ t, exec (.ofCommand c) s = .next t ∧ Faulted s t x := (gen11_body_ends hgen11 hcur).exec_fault hx

theorem gen11_done (hf : firstFault s.payload c = none) :
    ∃ t, exec (.ofCommand c) s = .next t ∧ DoneB s t (gen11Logical s.payload c.params) (gen11End c.params) :=
  (gen11_body_ends hgen11 hcur).exec_done hf (by rw [hgen11]; rfl)

end

/-! ### The faults by name -/

theorem regionsFault_detail {pl : Payload} {rs : List (Nat × Nat)} {x : Detail × Nat}
    (h : regionsFault pl rs = some x) : x.1 = .nonzeroReserved := by
  unfold regionsFault at h
  split at h <;> cases h
  rfl

theorem gen8Fault_detail {pl : Payload} {x : Detail × Nat} (h : gen8Fault pl = some x) :
    x.1 = .widthBudget ∨ x.1 = .nonzeroReserved := by
  unfold gen8Fault at h
  split at h
  · cases h
    exact .inl rfl
  · exact .inr (regionsFault_detail h)

theorem gen11Fault_detail {pl : Payload} {pred ext : Bool} {budget h n : Nat} {x : Detail × Nat}
    (hx : gen11Fault pl pred budget h n ext = some x) :
    x.1 = .widthBudget ∨ x.1 = .uniformCount ∨ x.1 = .nonzeroReserved := by
  unfold gen11Fault at hx
  split at hx
  · cases hx
    exact .inl rfl
  · split at hx
    · cases hx
      exact .inr (.inl rfl)
    · exact .inr (.inr (regionsFault_detail hx))

/-- The gen11 commands, as the statements list them. -/
theorem gen11_variant {c : Command} (hc : c ∈ [Command.b11s0, .b11s1, .b11s2, .b11s3, .b11s0x, .b11s3x]) :
    c.params.variant = .b11 := by
  revert c
  decide

/-- The gen11 commands with EXT. -/
theorem extension_params {c : Command} (hc : c ∈ [Command.b11s0x, .b11s3x]) :
    c.params.variant = .b11 ∧ c.params.ext = true := by
  revert c
  decide

/-- The table of 44_vendor_b_decode.md R208: the length of each gen11 stream is the end of its last record. -/
theorem gen11End_table {c : Command} {len : Nat}
    (h : (c, len) ∈ [(Command.b11s0, 236), (.b11s1, 236), (.b11s2, 236), (.b11s3, 492), (.b11s0x, 172),
      (.b11s3x, 332)]) : c.params.variant = .b11 ∧ gen11End c.params = len := by
  have htable : ∀ x ∈ [(Command.b11s0, 236), (.b11s1, 236), (.b11s2, 236), (.b11s3, 492), (.b11s0x, 172),
      (.b11s3x, 332)], x.1.params.variant = .b11 ∧ gen11End x.1.params = x.2 := by decide
  exact htable _ h

/-- A gen11 decode that ends DONE had no fault, and its end is known. -/
theorem gen11_done_of_state {c : Command} (hgen11 : c.params.variant = .b11) {s t : State} (hcur : s.dp.cur = 0)
    (hexec : exec (.ofCommand c) s = .next t) (hdone : t.status.state = .done) :
    DoneB s t (gen11Logical s.payload c.params) (gen11End c.params) := by
  cases hfault : firstFault s.payload c with
  | none =>
    obtain ⟨t', hexec', ht⟩ := gen11_done hgen11 hcur hfault
    cases hexec.symm.trans hexec'
    exact ht
  | some x =>
    obtain ⟨t', hexec', ht⟩ := gen11_fault hgen11 hcur hfault
    cases hexec.symm.trans hexec'
    rw [ht.status] at hdone
    cases hdone

/-- Settles O28: the width check comes first after the widths, at bit 36 + 3k under gen8 and at bit 44 under gen11. -/
theorem widthBudgetFaults : Obligations.WidthBudgetFaults := by
  refine ⟨fun s hcur hover => ?gen8, fun c s hc hcur hover => ?gen11⟩
  case gen8 =>
    obtain ⟨t, hexec, ht⟩ := gen8_fault hcur (if_pos hover)
    exact ⟨t, hexec, ht.status, ht.fault, ht.outlen, ht.host⟩
  case gen11 =>
    obtain ⟨t, hexec, ht⟩ :=
      gen11_fault (gen11_variant hc) hcur ((firstFault_gen11 (gen11_variant hc) _).trans (if_pos hover))
    exact ⟨t, hexec, ht.status, ht.fault, ht.outlen, ht.host⟩

/-- Settles O29: with the widths inside the budget, the count of uniform flags is the first check that fails. -/
theorem uniformCountFaults : Obligations.UniformCountFaults := by
  intro c s hc hcur hfit hcount
  obtain ⟨hgen11, hext⟩ := extension_params hc
  have hfault : firstFault s.payload c = some (.uniformCount, 52) := by
    rw [firstFault_gen11 hgen11, gen11Fault, if_neg (Nat.not_lt.2 hfit), if_pos ⟨hext, hcount⟩]
  obtain ⟨t, hexec, ht⟩ := gen11_fault hgen11 hcur hfault
  exact ⟨t, hexec, ht.status, ht.fault, ht.outlen, ht.host⟩

/-- Settles O30: every gen8 fault is a width or a must-be-zero check, and without one the decode ends at bit 512. -/
theorem gen8ReadsEveryBit : Obligations.Gen8ReadsEveryBit := by
  intro s hcur
  cases hfault : gen8Fault s.payload with
  | none =>
    obtain ⟨t, hexec, ht⟩ := gen8_done hcur hfault
    refine ⟨t, hexec, ?_⟩
    rw [ht.status]
    exact ⟨nofun, .inl ⟨rfl, rfl⟩⟩
  | some x =>
    obtain ⟨t, hexec, ht⟩ := gen8_fault hcur hfault
    refine ⟨t, hexec, ?_, .inr (by rw [ht.status]; rfl)⟩
    rw [ht.fault]
    rcases gen8Fault_detail hfault with h | h <;> rw [h] <;> exact nofun

/-- Settles O31: without a fault the cursor ends at the end of the stream, which the parameters of the command give. -/
theorem gen11StreamLengths : Obligations.Gen11StreamLengths := by
  intro s t c len hc hcur hexec hdone
  obtain ⟨hgen11, rfl⟩ := gen11End_table hc
  have hle := gen11End_le hgen11
  rw [(gen11_done_of_state hgen11 hcur hexec hdone).status, doneStatus, BitVec.toNat_ofNat, Nat.mod_eq_of_lt]
  omega

end Sys2Proof.Machine
end

section
/-!
PROOFS. What a gen11 decode leaves unread and unfilled (44_vendor_b_decode.md R206, R207): the bits after its last
record, and the logical pixels outside its range.
-/

namespace Sys2Proof.Machine

/-! ### The fields of a record lie within its widths -/

theorem Component.order_le (pred : Bool) (c : Component) : c.order pred ≤ 3 := by
  cases c <;> cases pred <;> decide

theorem orderAt_order (pred : Bool) (c : Component) : orderAt pred (c.order pred) = c := by
  cases c <;> cases pred <;> rfl

theorem gen11WidthsBefore_mono (pl : Payload) (pred : Bool) : Monotone (gen11WidthsBefore pl pred) :=
  monotone_nat_of_le_succ fun k => by
    rw [gen11WidthsBefore_succ]
    exact Nat.le_add_right _ _

theorem gen11Width_le (pl : Payload) (pred : Bool) (c : Component) :
    gen11WidthsBefore pl pred (c.order pred) + gen11WidthAt pl pred c ≤ gen11WidthsBefore pl pred 4 := by
  have hsucc := gen11WidthsBefore_succ pl pred (c.order pred)
  rw [orderAt_order] at hsucc
  rw [← hsucc]
  exact gen11WidthsBefore_mono pl pred (Nat.succ_le_succ (Component.order_le pred c))

/-! ### Payloads that agree on their first bits -/

section
variable {pl₁ pl₂ : Payload} {n : Nat} (hagree : ∀ p < n, payloadBit pl₁ p = payloadBit pl₂ p)
include hagree

theorem bitsAt_congr {q k : Nat} (h : q + k ≤ n) : bitsAt pl₁ q k = bitsAt pl₂ q k := by
  induction k with
  | zero => rfl
  | succ k ih => rw [bitsAt, bitsAt, ih (by omega), hagree (q + k) (by omega)]

theorem zeroFault_congr {q r : Nat} (h : r ≤ n) : zeroFault pl₁ q r = zeroFault pl₂ q r := by
  have hfirst : (List.range (r - q)).find? (fun k => payloadBit pl₁ (q + k)) =
      (List.range (r - q)).find? fun k => payloadBit pl₂ (q + k) :=
    List.find?_congr fun k hk => hagree (q + k) (by have := List.mem_range.1 hk; omega)
  rw [zeroFault, zeroFault, hfirst]

theorem uniformFlags_congr (h : 52 ≤ n) : uniformFlags pl₁ = uniformFlags pl₂ :=
  List.map_congr_left fun k hk => hagree (44 + k) (by have := List.mem_range.1 hk; omega)

theorem uniformFault_congr (h : 52 ≤ n) : uniformFault pl₁ = uniformFault pl₂ := by
  rw [uniformFault, uniformFault, ← count_uniformFlags, ← count_uniformFlags, uniformFlags_congr hagree h]

section
variable (h : 44 ≤ n) (pred : Bool)
include h

theorem gen11BaseAt_congr (c : Component) : gen11BaseAt pl₁ pred c = gen11BaseAt pl₂ pred c :=
  bitsAt_congr hagree (by have := Component.order_le pred c; omega)

theorem gen11WidthAt_congr (c : Component) : gen11WidthAt pl₁ pred c = gen11WidthAt pl₂ pred c :=
  congrArg BitVec.toNat (bitsAt_congr hagree (by have := Component.order_le pred c; omega))

theorem gen11WidthsBefore_congr (k : Nat) : gen11WidthsBefore pl₁ pred k = gen11WidthsBefore pl₂ pred k := by
  unfold gen11WidthsBefore
  simp only [gen11WidthAt_congr hagree h]

variable {q : Nat}

theorem gen11DeltaAt_congr (hq : q + gen11WidthsBefore pl₁ pred 4 ≤ n) (c : Component) :
    gen11DeltaAt pl₁ pred q c = gen11DeltaAt pl₂ pred q c := by
  have hend := gen11Width_le pl₁ pred c
  rw [gen11DeltaAt, gen11DeltaAt, ← gen11WidthsBefore_congr hagree h, ← gen11WidthAt_congr hagree h]
  exact bitsAt_congr hagree (by omega)

theorem gen11PixelAt_congr (hq : q + gen11WidthsBefore pl₁ pred 4 ≤ n) :
    gen11PixelAt pl₁ pred q = gen11PixelAt pl₂ pred q := by
  simp only [gen11PixelAt, gen11BaseAt_congr hagree h, gen11DeltaAt_congr hagree h pred hq]

theorem tailFault_congr {budget : Nat} (hq : q + budget ≤ n) :
    tailFault pl₁ pred budget q = tailFault pl₂ pred budget q := by
  rw [tailFault, tailFault, regionFault, regionFault, gen11WidthsBefore_congr hagree h, zeroFault_congr hagree hq]

end

end

theorem findSome_congr {α β : Type} {f g : α → Option β} {l : List α} (h : ∀ x ∈ l, f x = g x) :
    l.findSome? f = l.findSome? g := by
  induction l with
  | nil => rfl
  | cons x l ih =>
    obtain ⟨hx, hl⟩ := List.forall_mem_cons.1 h
    rw [List.findSome?_cons, List.findSome?_cons, hx, ih hl]

/-- Sub-windows whose records hold the same pixels. -/
theorem windowPixels_congr {px px' : Nat → Pixel} (us : List Bool) (r : Nat)
    (h : ∀ i < r + recordsOf us, px i = px' i) : windowPixels px us r = windowPixels px' us r := by
  induction us generalizing r with
  | nil => rfl
  | cons u us ih =>
    cases u with
    | true =>
      simp only [recordsOf, if_true] at h
      simp only [windowPixels, if_true]
      rw [h r (by omega), ih (r + 1) fun i hi => h i (by omega)]
    | false =>
      simp only [recordsOf, Bool.false_eq_true, if_false] at h
      simp only [windowPixels, Bool.false_eq_true, if_false]
      rw [h r (by omega), h (r + 1) (by omega), h (r + 2) (by omega), h (r + 3) (by omega),
        ih (r + 4) fun i hi => h i (by omega)]

/-! ### The stream of a gen11 command -/

theorem gen11Header_le_end (mp : ModeParams) : 44 ≤ gen11End mp ∧ (mp.ext = true → 52 ≤ gen11End mp) := by
  unfold gen11End
  cases hext : mp.ext with
  | true =>
    rw [gen11RecordsAt_of_ext hext]
    omega
  | false =>
    rw [gen11RecordsAt_of_not_ext hext]
    exact ⟨Nat.le_add_right _ _, nofun⟩

theorem orElse_eq_none {f g : Option (Detail × Nat)} : orElse f g = none ↔ f = none ∧ g = none := by
  cases f <;> simp [orElse]

section
variable {pl₁ pl₂ : Payload} {mp : ModeParams} (hagree : ∀ p < gen11End mp, payloadBit pl₁ p = payloadBit pl₂ p)
include hagree

/-- No check looks past the end of the stream. -/
theorem gen11Fault_congr :
    gen11Fault pl₁ mp.pred mp.budget (gen11RecordsAt mp) (gen11RecordCount mp) mp.ext =
      gen11Fault pl₂ mp.pred mp.budget (gen11RecordsAt mp) (gen11RecordCount mp) mp.ext := by
  obtain ⟨hheader, hflags⟩ := gen11Header_le_end mp
  have huniform : (if mp.ext then uniformFault pl₁ else none) = if mp.ext then uniformFault pl₂ else none := by
    split
    · exact uniformFault_congr hagree (hflags ‹_›)
    · rfl
  have htails : gen11TailsFault pl₁ mp = gen11TailsFault pl₂ mp :=
    findSome_congr fun i hi => tailFault_congr hagree hheader _ (gen11Record_le_end (List.mem_range.1 hi))
  rw [gen11Fault_eq, gen11Fault_eq, gen11WidthsBefore_congr hagree hheader, huniform, htails]

/-- No pixel depends on a bit past the end of the stream. -/
theorem gen11Logical_congr
    (hnone : gen11Fault pl₁ mp.pred mp.budget (gen11RecordsAt mp) (gen11RecordCount mp) mp.ext = none) :
    gen11Logical pl₁ mp = gen11Logical pl₂ mp := by
  obtain ⟨hheader, hflags⟩ := gen11Header_le_end mp
  rw [gen11Fault_eq, orElse_eq_none, orElse_eq_none, widthFault_eq_none] at hnone
  obtain ⟨hfit, huniform, -⟩ := hnone
  have hpixel : ∀ i < gen11RecordCount mp, gen11RecordPixel pl₁ mp i = gen11RecordPixel pl₂ mp i := fun i hi =>
    gen11PixelAt_congr hagree hheader _ (by have := gen11Record_le_end hi; omega)
  cases hext : mp.ext with
  | true =>
    rw [hext, if_pos rfl] at huniform
    have hcount : 0 + recordsOf (uniformFlags pl₁) = gen11RecordCount mp := by
      rw [Nat.zero_add, recordsOf_uniformFlags huniform, gen11RecordCount_of_ext hext]
    rw [gen11Logical_of_ext hext, gen11Logical_of_ext hext, ← uniformFlags_congr hagree (hflags hext),
      windowPixels_congr _ _ fun i hi => hpixel i (hcount ▸ hi)]
  | false =>
    rw [gen11Logical_of_not_ext hext, gen11Logical_of_not_ext hext,
      List.map_congr_left fun i hi => hpixel i (List.mem_range.1 hi)]

end

/-- A logical pixel outside the range of a command without EXT is zero (44_vendor_b_decode.md R206). -/
theorem gen11Logical_outside (pl : Payload) {mp : ModeParams} (hext : mp.ext = false) {i : Nat} (hi : i < 32)
    (hout : i < mp.lo ∨ mp.hi < i) : (gen11Logical pl mp)[i] = Pixel.zero := by
  simp only [gen11Logical_of_not_ext hext, logicalPixels_get _ _ i hi]
  split
  · rfl
  · exact List.getD_eq_default _ _ (by simp [gen11RecordCount_of_not_ext hext]; omega)

/-! ### OUT after a vendor-B decode -/

/-- The four bytes of a slot are those of its pixel. -/
theorem pixel_byte_slot (px : Pixel) (slot j : Nat) : px.byte (4 * slot + j) = px.byte j := by
  unfold Pixel.byte
  rw [Nat.mul_add_mod]

/-- Slot B_SLOT(i) of OUT holds logical pixel i (45_assembler.md R223). -/
theorem DoneB.out_slot {s t : State} {lp : Vector Pixel 32} {q : Nat} (h : DoneB s t lp q) (i : Fin 32) (j : Fin 4) :
    t.out[4 * (Config.bSlot i).val + j.val]'(by omega) = lp[i].byte j.val := by
  obtain ⟨rest, hout⟩ := h.out
  have hslot : (4 * (Config.bSlot i).val + j.val) / 4 = (Config.bSlot i).val := by omega
  have hpixel := assembleB_slot Config.bSlot lp i
  obtain ⟨hlt, hpixel⟩ := List.getElem?_eq_some_iff.1 hpixel
  simp only [hout]
  rw [storePixels_stored _ _ _ _ (by rw [hslot]; exact hlt)]
  simp only [hslot, hpixel, pixel_byte_slot]

/-- The slot of a logical pixel outside the range is zero (45_assembler.md R224). -/
theorem DoneB.out_slot_outside {s t : State} {pl : Payload} {mp : ModeParams} {q : Nat}
    (h : DoneB s t (gen11Logical pl mp) q) (hext : mp.ext = false) {i : Fin 32} (hout : i.val < mp.lo ∨ mp.hi < i.val)
    (j : Fin 4) : t.out[4 * (Config.bSlot i).val + j.val]'(by omega) = 0 := by
  rw [h.out_slot, Fin.getElem_fin, gen11Logical_outside pl hext i.isLt hout, pixel_zero_byte]

/-- Two decodes with the same logical pixels agree on the bytes of OUT that are defined. -/
theorem DoneB.out_congr {s₁ t₁ s₂ t₂ : State} {lp : Vector Pixel 32} {q₁ q₂ : Nat} (h₁ : DoneB s₁ t₁ lp q₁)
    (h₂ : DoneB s₂ t₂ lp q₂) {k : Nat} (hk : k < 128) : t₁.out[k] = t₂.out[k] := by
  obtain ⟨rest₁, hout₁⟩ := h₁.out
  obtain ⟨rest₂, hout₂⟩ := h₂.out
  have hstored : k / 4 < (assembleB Config.bSlot lp).length := by
    rw [assembleB_length]
    omega
  simp only [hout₁, hout₂]
  rw [storePixels_stored _ _ _ _ hstored, storePixels_stored _ _ _ _ hstored]

/-- Settles O32: payloads that agree up to the end of the stream have the same first fault, and without one the same
logical pixels. -/
theorem gen11IgnoresTrailingBits : Obligations.Gen11IgnoresTrailingBits := by
  intro s₁ s₂ c len hc hcur₁ hcur₂ hwarn hagree
  obtain ⟨hgen11, rfl⟩ := gen11End_table hc
  have hfault : firstFault s₁.payload c = firstFault s₂.payload c := by
    rw [firstFault_gen11 hgen11, firstFault_gen11 hgen11, gen11Fault_congr hagree]
  cases hfirst : firstFault s₁.payload c with
  | some x =>
    obtain ⟨t₁, hexec₁, ht₁⟩ := gen11_fault hgen11 hcur₁ hfirst
    obtain ⟨t₂, hexec₂, ht₂⟩ := gen11_fault hgen11 hcur₂ (hfault.symm.trans hfirst)
    refine ⟨t₁, t₂, hexec₁, hexec₂, by rw [ht₁.status, ht₂.status, hwarn], ?_, ht₁.outlen.trans ht₂.outlen.symm, ?_⟩
    · rw [firstFault_gen11 hgen11] at hfirst
      rw [ht₁.fault]
      rcases gen11Fault_detail hfirst with h | h | h <;> rw [h] <;> exact nofun
    · rw [ht₁.outlen]
      exact fun k hk => absurd hk (Nat.not_lt_zero _)
  | none =>
    obtain ⟨t₁, hexec₁, ht₁⟩ := gen11_done hgen11 hcur₁ hfirst
    obtain ⟨t₂, hexec₂, ht₂⟩ := gen11_done hgen11 hcur₂ (hfault.symm.trans hfirst)
    rw [firstFault_gen11 hgen11] at hfirst
    rw [← gen11Logical_congr hagree hfirst] at ht₂
    refine ⟨t₁, t₂, hexec₁, hexec₂, by rw [ht₁.status, ht₂.status, hwarn], ?_, ht₁.outlen.trans ht₂.outlen.symm, ?_⟩
    · rw [ht₁.status]
      exact nofun
    · rw [ht₁.outlen]
      exact fun k hk => ht₁.out_congr ht₂ hk

/-- START of a command's word dispatches that command, with its warning. -/
theorem start_of_command {s : State} {c : Command} (hidle : ¬ Busy s)
    (hcmd : s.cmd = encodeCommand s.parameters.codes c) (data : Word) :
    exec (.start data) s = .next (latchMode c.params (latchCommand s)) := by
  rw [exec_start, hostWrite_notBusy _ hidle]
  rcases startDecode_cases s with ⟨c', hdecode, hstart⟩ | ⟨e, hdecode, -⟩
  · rw [hcmd, decodeCommand_encodeCommand] at hdecode
    cases hdecode
    rw [hstart]
  · rw [hcmd, decodeCommand_encodeCommand] at hdecode
    cases hdecode

/-- Settles O35: the logical pixels outside the half are zero and reach their slots; START sets the warning of the
sub-mode. -/
theorem halfRecoveryZeros : Obligations.HalfRecoveryZeros := by
  refine ⟨fun s t hcur hexec hdone i j hi => ?s1, fun s t hcur hexec hdone i j hi => ?s2,
    fun s data hidle hcmd => ?start⟩
  case s1 => exact (gen11_done_of_state (c := .b11s1) rfl hcur hexec hdone).out_slot_outside rfl (.inr hi) j
  case s2 => exact (gen11_done_of_state (c := .b11s2) rfl hcur hexec hdone).out_slot_outside rfl (.inl hi) j
  case start =>
    rcases hcmd with hcmd | hcmd <;> exact ⟨_, start_of_command hidle hcmd data, rfl⟩

end Sys2Proof.Machine
end

section
/-!
PROOFS. The vendor-A assembler (45_assembler.md R220 to R222): the pixel a sample position gives, its place in its
cacheline, and the zero cachelines after the decoded ones.
-/

namespace Sys2Proof.Machine

variable {α : Type}

/-! ### Colour conversion and quadrant order -/

/-- Settles O50: the pixel at that place is `colour` of its samples (`assembleA_get`), and ADD8 wraps. -/
theorem colourAndQuadrantOrder : Obligations.ColourAndQuadrantOrder := by
  intro p x row j hrow hj
  have hplace := assembleA_get p x row j hrow hj
  refine ⟨colour p x row j, ?place, add8_toNat _ _, rfl, add8_toNat _ _, rfl⟩
  case place => cases x <;> exact hplace

/-! ### The pixels of a vendor-A decode -/

/-- What every answer of an operation satisfies, all answers of its repetition satisfy. -/
theorem forall_mem_of_repeatMicro {m : Micro α} {p : α → Prop} (hm : ∀ {d a d'}, m d = .ok a d' → p a) {n : Nat}
    {d d' : Datapath} {xs : List α} (h : repeatMicro m n d = .ok xs d') : ∀ x ∈ xs, p x := by
  induction n generalizing d d' xs with
  | zero =>
    cases h
    exact List.forall_mem_nil p
  | succ n ih =>
    obtain ⟨x, d₁, hx, h⟩ := micro_bind_eq_ok.1 h
    obtain ⟨ys, d₂, hys, h⟩ := micro_bind_eq_ok.1 h
    cases h
    exact List.forall_mem_cons.2 ⟨hm hx, ih hys⟩

theorem cachelineA_length {inherit : Config.RightInherit} {pl : Payload} {d d' : Datapath} {px : List Pixel}
    (h : cachelineA inherit pl d = .ok px d') : px.length = 16 := by
  obtain ⟨-, d₁, -, h⟩ := micro_bind_eq_ok.1 h
  obtain ⟨-, d₂, -, h⟩ := micro_bind_eq_ok.1 h
  cases h
  exact assembleA_length _

/-- DecodeA answers the 16 pixels of each of its cachelines, then the zero fill. -/
theorem decodeA_eq_ok {inherit : Config.RightInherit} {pl : Payload} {n : Nat} {d d' : Datapath} {px : List Pixel}
    (h : decodeA inherit pl n d = .ok px d') : ∃ cls : List Pixel, cls.length = 16 * n ∧ px = cls ++ zeroFillA n := by
  obtain ⟨cls, d₁, hcls, h⟩ := micro_bind_eq_ok.1 h
  cases h
  refine ⟨cls.flatten, ?_, rfl⟩
  have hlengths : cls.map List.length = List.replicate n 16 := by
    rw [← repeatMicro_length hcls]
    exact List.map_eq_replicate_iff.2 (forall_mem_of_repeatMicro cachelineA_length hcls)
  rw [List.length_flatten, hlengths, List.sum_replicate_nat, Nat.mul_comm]

/-! ### OUT after a vendor-A decode -/

/-- A vendor-A decode that ends DONE has stored its cachelines and the zero fill (41_commands.md R143). -/
theorem vendorA_out_of_done {c : Command} (hc : c ∈ [Command.a4, .a3, .a2]) {s t : State}
    (hexec : exec (.ofCommand c) s = .next t) (hdone : t.status.state = .done) :
    ∃ cls rest, cls.length = 16 * c.params.ncl ∧ t.out = storePixels (cls ++ zeroFillA c.params.ncl) rest := by
  rw [exec_ofCommand] at hexec
  cases hexec
  rcases runDecode_cases c (bodyOf s.parameters.rightInherit c) s with ⟨px, d, hbody, hrun⟩ | ⟨e, d, -, hrun⟩
  · rw [bodyOf_vendorA hc] at hbody
    obtain ⟨cls, hlength, rfl⟩ := decodeA_eq_ok hbody
    exact ⟨cls, Config.freeOut s.draws, hlength, by rw [hrun, complete_out]⟩
  · rw [hrun] at hdone
    cases hdone

/-- The bytes of a zero fill are 0: the n cachelines before it take 64 n bytes, and it reaches to the end of OUT. -/
theorem storePixels_zeroFillA {cls : List Pixel} {n k : Nat} (hcls : cls.length = 16 * n) (hn : n ≤ 4)
    (rest : Vector Byte 256) (hk : k < 256) (hfill : 64 * n ≤ k) : (storePixels (cls ++ zeroFillA n) rest)[k] = 0 := by
  have hstored : k / 4 < (cls ++ zeroFillA n).length := by
    rw [List.length_append, zeroFillA_length]
    omega
  have hzero : (cls ++ zeroFillA n)[k / 4] = Pixel.zero := by
    rw [List.getElem_append_right (by omega)]
    exact List.getElem_replicate _
  rw [storePixels_stored _ _ _ _ hstored, hzero, pixel_zero_byte]

/-- The cachelines after NCL are zero, whichever vendor-A command ends DONE and from whatever cursor. -/
theorem vendorA_out_zero_of_done {c : Command} (hc : c ∈ [Command.a4, .a3, .a2]) {s t : State}
    (hexec : exec (.ofCommand c) s = .next t) (hdone : t.status.state = .done) {k : Fin 256}
    (hk : 64 * c.params.ncl ≤ k.val) : t.out[k] = 0 := by
  obtain ⟨cls, rest, hcls, hout⟩ := vendorA_out_of_done hc hexec hdone
  have hncl : ∀ c ∈ [Command.a4, .a3, .a2], c.params.ncl ≤ 4 := by decide
  rw [hout]
  exact storePixels_zeroFillA hcls (hncl c hc) rest k.isLt hk

/-- Settles O33: NCL is 3 under A3 and 2 under A2, so the zero fill starts at byte 0xC0 and at byte 0x80. -/
theorem trailingCachelinesZero : Obligations.TrailingCachelinesZero :=
  ⟨fun _ _ _ hexec hdone _ hk => vendorA_out_zero_of_done (c := .a3) (by decide) hexec hdone hk,
    fun _ _ _ hexec hdone _ hk => vendorA_out_zero_of_done (c := .a2) (by decide) hexec hdone hk⟩

end Sys2Proof.Machine
end

section
/-!
PROOFS. The faults each command and START can raise, and the warning of a decode (60_exceptions.md R242, R246).
-/

namespace Sys2Proof.Machine

/-! ### The faults a decode can end in -/

/-- The decode of c from s ends DONE, or in a fault whose detail is one of ds. -/
def DoneOrFaultIn (c : Command) (s : State) (ds : List Detail) : Prop :=
  ∃ t, exec (.ofCommand c) s = .next t ∧
    (t.status.state = .done ∨ t.status.state = .fault ∧ t.status.detail ∈ ds)

/-- A decode faults with a detail its body raised, or ends DONE. -/
theorem doneOrFaultIn_of_body {c : Command} {s : State} {ds : List Detail}
    (h : ∀ e d, bodyOf s.parameters.rightInherit c s.payload c.params { s.dp with mp := c.params } = .error e d →
      e ∈ ds) : DoneOrFaultIn c s ds := by
  refine ⟨_, exec_ofCommand c s, ?_⟩
  rcases runDecode_cases c (bodyOf s.parameters.rightInherit c) s with ⟨px, d, -, hrun⟩ | ⟨e, d, hbody, hrun⟩
  · exact .inl (by rw [hrun, complete_status])
  · rw [hrun, raiseFault_status]
    exact .inr ⟨rfl, h e d hbody⟩

theorem raisesOnly_cachelineA (inherit : Config.RightInherit) (pl : Payload) :
    RaisesOnly (· ∈ vendorADetails) (cachelineA inherit pl) := fun d _ _ h =>
  cachelineFault_detail ((cachelineA_runs inherit pl d).eq_error h).1

theorem raisesOnly_decodeA (inherit : Config.RightInherit) (pl : Payload) (n : Nat) :
    RaisesOnly (· ∈ vendorADetails) (decodeA inherit pl n) :=
  raisesOnly_bind (raisesOnly_repeatMicro (raisesOnly_cachelineA inherit pl) n) fun _ => raisesOnly_pure _ _

/-- The vendor-A row of R242, from whatever cursor. -/
theorem vendorA_doneOrFaultIn {c : Command} (hc : c ∈ [Command.a4, .a3, .a2]) (s : State) :
    DoneOrFaultIn c s vendorADetails :=
  doneOrFaultIn_of_body fun e d h => raisesOnly_decodeA _ s.payload c.params.ncl _ e d (bodyOf_vendorA hc _ _ _ ▸ h)

/-- An operation known by where it ends that faults raised the fault it is known by. -/
theorem Ends.eq_error {α : Type} {m : Micro α} {d d' : Datapath} {f : Option (Detail × Nat)} {a : α} {e : Detail}
    {q : Nat} {post : Datapath → Prop} (hm : Ends m d f a q post) (h : m d = .error e d') :
    f = some (e, d'.cur.val) := by
  cases f with
  | none =>
    obtain ⟨d₁, hrun, -⟩ := hm.1 rfl
    cases h.symm.trans hrun
  | some x =>
    obtain ⟨d₁, hrun, hcur⟩ := hm.2 x rfl
    cases h.symm.trans hrun
    rw [hcur]

/-- The DECODE.B8 row of R242. -/
theorem gen8_doneOrFaultIn {s : State} (hcur : s.dp.cur = 0) :
    DoneOrFaultIn .b8 s [.widthBudget, .nonzeroReserved] :=
  doneOrFaultIn_of_body fun _ _ h => by
    simpa using gen8Fault_detail ((gen8_body_ends hcur).eq_error h)

/-- Without EXT there is no uniform check. -/
theorem gen11Fault_ne_uniformCount {pl : Payload} {pred : Bool} {budget h n : Nat} {x : Detail × Nat}
    (hx : gen11Fault pl pred budget h n false = some x) : x.1 ≠ .uniformCount := by
  rw [gen11Fault, if_neg (fun hext : false = true ∧ _ => Bool.false_ne_true hext.1)] at hx
  split at hx
  · cases hx
    exact nofun
  · rw [regionsFault_detail hx]
    exact nofun

section
variable {c : Command} (hgen11 : c.params.variant = .b11) {s : State} (hcur : s.dp.cur = 0)
include hgen11 hcur

/-- The rows of R242 for the gen11 commands with EXT. -/
theorem gen11_doneOrFaultIn : DoneOrFaultIn c s [.widthBudget, .uniformCount, .nonzeroReserved] :=
  doneOrFaultIn_of_body fun e d h => by
    have hfault := (gen11_body_ends hgen11 hcur).eq_error h
    rw [firstFault_gen11 hgen11] at hfault
    simpa using gen11Fault_detail hfault

/-- The rows of R242 for the gen11 commands without EXT. -/
theorem gen11_doneOrFaultIn_of_not_ext (hext : c.params.ext = false) :
    DoneOrFaultIn c s [.widthBudget, .nonzeroReserved] :=
  doneOrFaultIn_of_body fun e d h => by
    have hfault := (gen11_body_ends hgen11 hcur).eq_error h
    rw [firstFault_gen11 hgen11, hext] at hfault
    simpa [gen11Fault_ne_uniformCount hfault] using gen11Fault_detail hfault

end

/-! ### START -/

theorem detailOfReject_mem (r : CommandReject) :
    detailOfReject r ∈ [Detail.unknownMode, .reservedCmdBits, .extNotAllowed] := by cases r <;> decide

/-- START leaves the decode in progress, or an UnsupportedMode fault. -/
theorem startDecode_busy_or_unsupported (s : State) :
    (startDecode s).status.state = .busy ∨ (startDecode s).status.state = .fault ∧
      (startDecode s).status.detail ∈ [Detail.unknownMode, .reservedCmdBits, .extNotAllowed] := by
  rcases startDecode_cases s with ⟨c, -, hstart⟩ | ⟨r, -, hstart⟩
  · exact .inl (by rw [hstart, latchMode_status, latchCommand_status])
  · rw [hstart, raiseFault_latchCommand_status]
    exact .inr ⟨rfl, detailOfReject_mem r⟩

/-- START while no decode is in progress runs to the end of the dispatch. -/
theorem exec_start_notBusy {s : State} (hidle : ¬ Busy s) (data : Word) :
    exec (.start data) s = .next (startDecode s) := by rw [exec_start, hostWrite_notBusy _ hidle]

/-- Settles O26: each decode ends as the first fault of its layout says, which is one of its row's, and START refuses a
word with one of the decoder's three reasons. -/
theorem possibleFaults : Obligations.PossibleFaults := by
  refine ⟨fun c s hcur => ?decode,
    fun s data hidle => ⟨_, exec_start_notBusy hidle data, startDecode_busy_or_unsupported s⟩⟩
  cases c with
  | a4 | a3 | a2 => exact vendorA_doneOrFaultIn (by decide) s
  | b8 => exact gen8_doneOrFaultIn hcur
  | b11s0 | b11s1 | b11s2 | b11s3 => exact gen11_doneOrFaultIn_of_not_ext rfl hcur rfl
  | b11s0x | b11s3x => exact gen11_doneOrFaultIn rfl hcur

/-! ### Warnings -/

/-- Two commands have two words. -/
theorem encodeCommand_inj {codes : Config.ModeCodes} {c c' : Command} :
    encodeCommand codes c = encodeCommand codes c' ↔ c = c' := by
  refine ⟨fun h => ?_, congrArg _⟩
  have hdecode := congrArg (decodeCommand codes) h
  rw [decodeCommand_encodeCommand, decodeCommand_encodeCommand] at hdecode
  exact Except.ok.inj hdecode

/-- A word the decoder refuses is no command's word. -/
theorem ne_encodeCommand_of_decode_error {codes : Config.ModeCodes} {w : Word} {r : CommandReject}
    (h : decodeCommand codes w = .error r) (c : Command) : w ≠ encodeCommand codes c := by
  rintro rfl
  rw [decodeCommand_encodeCommand] at h
  cases h

/-- The warning of each command, as the table of R246 names them. -/
theorem params_warning (c : Command) :
    c.params.warning =
      if c = .a3 ∨ c = .a2 then .aTrailingSynth else if c = .b11s1 ∨ c = .b11s2 then .bHalfSynth else .none := by
  cases c <;> decide

/-- START of a word warns as the command of that word does, and not at all when there is none. -/
theorem startDecode_warn (s : State) :
    (startDecode s).status.warn =
      let word := encodeCommand s.parameters.codes
      if s.cmd = word .a3 ∨ s.cmd = word .a2 then .aTrailingSynth
      else if s.cmd = word .b11s1 ∨ s.cmd = word .b11s2 then .bHalfSynth
      else .none := by
  rcases startDecode_cases s with ⟨c, hdecode, hstart⟩ | ⟨r, hdecode, hstart⟩
  · simp only [← encodeCommand_of_decode hdecode, encodeCommand_inj]
    rw [hstart, latchMode_status]
    exact params_warning c
  · simp only [ne_encodeCommand_of_decode_error hdecode, or_self, if_false]
    rw [hstart, raiseFault_latchCommand_status]
    rfl

/-- A decode command keeps WARN, whatever its body. -/
theorem runDecode_warn (c : Command) (body : Payload → ModeParams → Micro (List Pixel)) (s : State) :
    (runDecode c body s).status.warn = s.status.warn := by
  rcases runDecode_cases c body s with ⟨px, d, -, hrun⟩ | ⟨e, d, -, hrun⟩
  · rw [hrun, complete_status]
  · rw [hrun, raiseFault_status]

/-- Settles O36: START takes WARN from the parameters of the command whose word it is, and both ends of a decode keep
it. -/
theorem warningSetAtStartAndKept : Obligations.WarningSetAtStartAndKept :=
  ⟨fun s data hidle => ⟨_, exec_start_notBusy hidle data, startDecode_warn s⟩,
    fun c s => ⟨_, exec_ofCommand c s, runDecode_warn c _ s⟩⟩

end Sys2Proof.Machine
end

section
/-!
PROOFS. Which instructions are refused while a decode is in progress (70_reset_and_hazards.md R273).
-/

namespace Sys2Proof.Machine

/-! ### Two kinds of instruction -/

/-- Each of the four host writes is a host write of some state. -/
theorem exec_of_isHostWrite {i : Instr} (h : IsHostWrite i) (s : State) : ∃ t, exec i s = hostWrite s t := by
  cases i with
  | wrpay off byte => exact ⟨_, exec_wrpay off byte s⟩
  | wrcmd word => exact ⟨_, exec_wrcmd word s⟩
  | start data => exact ⟨_, exec_start data s⟩
  | wrctrl0 data => exact ⟨_, exec_wrctrl0 data s⟩
  | _ => exact h.elim

/-- Every other instruction, a host read or a decode command, answers a next state whether BUSY or not. -/
theorem exec_of_not_isHostWrite {i : Instr} (h : ¬ IsHostWrite i) (s : State) : ∃ t, exec i s = .next t := by
  cases i with
  | wrpay | wrcmd | start | wrctrl0 => exact absurd trivial h
  | rdpay off => exact ⟨_, exec_rdpay off s⟩
  | rdcmd => exact ⟨_, exec_rdcmd s⟩
  | rdctrl => exact ⟨_, exec_rdctrl s⟩
  | rdstat => exact ⟨_, exec_rdstat s⟩
  | rdlen => exact ⟨_, exec_rdlen s⟩
  | rdout off => exact ⟨_, exec_rdout off s⟩
  | decodeA4 => exact ⟨_, exec_ofCommand .a4 s⟩
  | decodeA3 => exact ⟨_, exec_ofCommand .a3 s⟩
  | decodeA2 => exact ⟨_, exec_ofCommand .a2 s⟩
  | decodeB8 => exact ⟨_, exec_ofCommand .b8 s⟩
  | decodeB11S0 => exact ⟨_, exec_ofCommand .b11s0 s⟩
  | decodeB11S1 => exact ⟨_, exec_ofCommand .b11s1 s⟩
  | decodeB11S2 => exact ⟨_, exec_ofCommand .b11s2 s⟩
  | decodeB11S3 => exact ⟨_, exec_ofCommand .b11s3 s⟩
  | decodeB11S0X => exact ⟨_, exec_ofCommand .b11s0x s⟩
  | decodeB11S3X => exact ⟨_, exec_ofCommand .b11s3x s⟩

/-! ### Refusals -/

/-- A host write while BUSY is refused. -/
theorem exec_hostWrite_busy {i : Instr} {s : State} (hbusy : Busy s) (hwrite : IsHostWrite i) :
    exec i s = .refused .writeWhileBusy := by
  obtain ⟨t, hexec⟩ := exec_of_isHostWrite hwrite s
  rw [hexec, hostWrite_busy t hbusy]

/-- Everything but a host write while BUSY answers a next state. -/
theorem exec_next_of_not_busy_write {i : Instr} {s : State} (h : ¬ (Busy s ∧ IsHostWrite i)) :
    ∃ t, exec i s = .next t := by
  by_cases hwrite : IsHostWrite i
  · obtain ⟨t, hexec⟩ := exec_of_isHostWrite hwrite s
    exact ⟨t, hexec.trans (hostWrite_notBusy t fun hbusy => h ⟨hbusy, hwrite⟩)⟩
  · exact exec_of_not_isHostWrite hwrite s

/-- exec refuses exactly the host writes while BUSY. -/
theorem exec_refused_iff (i : Instr) (s : State) : (∃ r, exec i s = .refused r) ↔ Busy s ∧ IsHostWrite i := by
  refine ⟨fun ⟨r, hrefused⟩ => ?_, fun ⟨hbusy, hwrite⟩ => ⟨_, exec_hostWrite_busy hbusy hwrite⟩⟩
  by_contra hnot
  obtain ⟨t, hnext⟩ := exec_next_of_not_busy_write hnot
  rw [hnext] at hrefused
  cases hrefused

/-- Settles O17: every instruction is a host write or answers a next state, and the step of a transaction is the exec of
its instruction, in a state that is BUSY when the step's is. -/
theorem writesWhileBusyRefused : Obligations.WritesWhileBusyRefused :=
  ⟨fun i s => (exec_refused_iff i s).symm, fun _ _ _ _ hbusy hwrite hinputs hdecode =>
    (step_of_fetch_run (fetch_transaction hinputs hdecode)).trans (exec_hostWrite_busy hbusy hwrite)⟩

end Sys2Proof.Machine
end

section
/-!
PROOFS. Decoding and encoding are inverse (30_encoding.md sections 1 and 2), and the words that decode are those of the
opcode table's HT rows.
-/

namespace Sys2Proof.Machine

/-! ### Instructions by their format -/

/-- An instruction is a decode command, a host read or a host write. -/
theorem command_or_read_or_write (i : Instr) : (∃ c, i = .ofCommand c) ∨ IsHostRead i ∨ IsHostWrite i := by
  cases i with
  | rdpay | rdcmd | rdctrl | rdstat | rdlen | rdout => exact .inr (.inl trivial)
  | wrpay | wrcmd | start | wrctrl0 => exact .inr (.inr trivial)
  | decodeA4 => exact .inl ⟨.a4, rfl⟩
  | decodeA3 => exact .inl ⟨.a3, rfl⟩
  | decodeA2 => exact .inl ⟨.a2, rfl⟩
  | decodeB8 => exact .inl ⟨.b8, rfl⟩
  | decodeB11S0 => exact .inl ⟨.b11s0, rfl⟩
  | decodeB11S1 => exact .inl ⟨.b11s1, rfl⟩
  | decodeB11S2 => exact .inl ⟨.b11s2, rfl⟩
  | decodeB11S3 => exact .inl ⟨.b11s3, rfl⟩
  | decodeB11S0X => exact .inl ⟨.b11s0x, rfl⟩
  | decodeB11S3X => exact .inl ⟨.b11s3x, rfl⟩

@[simp] theorem encode_ofCommand (codes : Config.ModeCodes) (c : Command) :
    encode codes (.ofCommand c) = .cmd32 (encodeCommand codes c) := by cases c <;> rfl

theorem ofCommand_wellFormed (c : Command) : (Instr.ofCommand c).WellFormed := by cases c <;> rfl

section
variable {codes : Config.ModeCodes} {i : Instr}

theorem decodeCode_cmd32_eq_ok {w : Word} :
    decodeCode codes (.cmd32 w) = .ok i ↔ ∃ c, decodeCommand codes w = .ok c ∧ i = .ofCommand c := by
  rw [decodeCode]
  cases decodeCommand codes w <;> simp [eq_comm]

theorem decodeCode_ht_eq_ok {w : HtWord} : decodeCode codes (.ht w) = .ok i ↔ decodeHt w = .ok i := by
  rw [decodeCode]
  cases decodeHt w <;> simp

end

/-! ### Decoding what was encoded -/

theorem decodeCode_encode_of_read (codes : Config.ModeCodes) {i : Instr} (h : IsHostRead i) :
    decodeCode codes (encode codes i) = .ok i := by
  cases i with
  | rdpay off => exact decodeCode_ht_eq_ok.2 ((decodeHt_read _ _).trans (decodeAccess_payload_read off 0))
  | rdcmd => exact decodeCode_ht_eq_ok.2 ((decodeHt_read _ _).trans decodeAccess_cmd_read)
  | rdctrl => exact decodeCode_ht_eq_ok.2 ((decodeHt_read _ _).trans decodeAccess_ctrl_read)
  | rdstat => exact decodeCode_ht_eq_ok.2 ((decodeHt_read _ _).trans decodeAccess_status_read)
  | rdlen => exact decodeCode_ht_eq_ok.2 ((decodeHt_read _ _).trans decodeAccess_outlen_read)
  | rdout off => exact decodeCode_ht_eq_ok.2 ((decodeHt_read _ _).trans (decodeAccess_out_read off 0))
  | _ => exact h.elim

theorem decodeCode_encode_of_write (codes : Config.ModeCodes) {i : Instr} (h : IsHostWrite i) (hwf : i.WellFormed) :
    decodeCode codes (encode codes i) = .ok i := by
  cases i with
  | wrpay off byte =>
    exact decodeCode_ht_eq_ok.2 ((decodeHt_byte_write _ _).trans (decodeAccess_payload_write off byte))
  | wrcmd word => exact decodeCode_ht_eq_ok.2 ((decodeHt_word_write _ _).trans (decodeAccess_cmd_write word))
  | start data =>
    have hbit : data.getLsbD 0 = true := hwf
    refine decodeCode_ht_eq_ok.2 ((decodeHt_word_write _ _).trans ((decodeAccess_ctrl_write data).trans ?_))
    rw [if_pos hbit]
  | wrctrl0 data =>
    have hbit : ¬ data.getLsbD 0 = true := by simpa [Instr.WellFormed, Instr.wellFormed] using hwf
    refine decodeCode_ht_eq_ok.2 ((decodeHt_word_write _ _).trans ((decodeAccess_ctrl_write data).trans ?_))
    rw [if_neg hbit]
  | _ => exact h.elim

theorem decodeCode_encode (codes : Config.ModeCodes) {i : Instr} (hwf : i.WellFormed) :
    decodeCode codes (encode codes i) = .ok i := by
  rcases command_or_read_or_write i with ⟨c, rfl⟩ | hread | hwrite
  · rw [encode_ofCommand]
    exact decodeCode_cmd32_eq_ok.2 ⟨c, decodeCommand_encodeCommand codes c, rfl⟩
  · exact decodeCode_encode_of_read codes hread
  · exact decodeCode_encode_of_write codes hwrite hwf

/-- Settles O1: each instruction's code decodes back, by its row of the mode table or of the register map, and a code is
what its bytes hold. -/
theorem decodeInvertsEncode : Obligations.DecodeInvertsEncode := fun codes _ hwf =>
  ⟨decodeCode_encode codes hwf, (decodeBytes_bytes codes _).trans (decodeCode_encode codes hwf)⟩

/-! ### Encoding what was decoded -/

/-- A word with nothing above its low n bits is those bits, widened. -/
theorem setWidth_extractLsb'_self {m : Nat} (n : Nat) {x : BitVec m} (h : x.toNat < 2 ^ n) :
    (x.extractLsb' 0 n).setWidth m = x := by
  apply BitVec.eq_of_toNat_eq
  simp [Nat.mod_eq_of_lt h]

/-- An offset in the upper half of the window is 0x100 and its low eight bits (10_state.md R21). -/
theorem or_extractLsb'_of_out {addr : BitVec 9} (h : 0x100 ≤ addr.toNat) :
    0x100 ||| (addr.extractLsb' 0 8).setWidth 9 = addr := by
  apply BitVec.eq_of_toNat_eq
  rw [outOffset_toNat, BitVec.extractLsb'_toNat]
  omega

/-- DATA of a byte write is its low byte: its upper bits are zero (30_encoding.md R75). -/
theorem lt_of_extractLsb'_eq_zero {data : Word} (h : data.extractLsb' 8 24 = 0) : data.toNat < 2 ^ 8 := by
  have hupper := congrArg BitVec.toNat h
  rw [BitVec.extractLsb'_toNat, Nat.shiftRight_eq_div_pow, show (0 : BitVec 24).toNat = 0 from rfl] at hupper
  omega

/-- A decoded access is that of a well-formed instruction, region by region of the register map. -/
theorem encode_of_decodeAccess (codes : Config.ModeCodes) {addr : BitVec 9} {wr wide : Bool} {data : Word} {i : Instr}
    (h : decodeAccess addr wr wide data = .ok i) (hread : wr = false → data = 0)
    (hbyte : wr = true → wide = false → data.extractLsb' 8 24 = 0) :
    i.WellFormed ∧ encode codes i = .ht (htWord addr wr wide data) := by
  rcases Nat.lt_or_ge addr.toNat 0x40 with hpay | hpay
  · obtain rfl := (decodeAccess_payload_ok_iff hpay wr wide data).1 ⟨i, h⟩
    have haddr := setWidth_extractLsb'_self 6 hpay
    rw [decodeAccess, if_pos hpay] at h
    cases wr with
    | false =>
      cases h
      exact ⟨rfl, by rw [encode, haddr, hread rfl]⟩
    | true =>
      cases h
      have hdata := setWidth_extractLsb'_self 8 (lt_of_extractLsb'_eq_zero (hbyte rfl rfl))
      exact ⟨rfl, by rw [encode, haddr, hdata]⟩
  rcases Nat.lt_or_ge addr.toNat 0x50 with hreg | hreg
  · rcases (decodeAccess_register_ok_iff hpay hreg wr wide data).1 ⟨i, h⟩ with
      ⟨rfl | rfl, rfl⟩ | ⟨rfl | rfl, rfl, rfl⟩
    · cases wr <;> cases h
      · exact ⟨rfl, by rw [encode, hread rfl]⟩
      · exact ⟨rfl, rfl⟩
    · cases wr with
      | false =>
        cases h
        exact ⟨rfl, by rw [encode, hread rfl]⟩
      | true =>
        rw [decodeAccess_ctrl_write] at h
        cases h
        cases hbit : data.getLsbD 0 with
        | true => exact ⟨hbit, rfl⟩
        | false => exact ⟨by simpa [Instr.WellFormed, Instr.wellFormed] using hbit, rfl⟩
    · cases h
      exact ⟨rfl, by rw [encode, hread rfl]⟩
    · cases h
      exact ⟨rfl, by rw [encode, hread rfl]⟩
  rcases Nat.lt_or_ge addr.toNat 0x100 with hres | hout
  · rw [decodeAccess_reserved hreg hres] at h
    cases h
  · obtain ⟨rfl, rfl⟩ := (decodeAccess_out_ok_iff hout wr wide data).1 ⟨i, h⟩
    rw [decodeAccess, if_neg (by omega), if_neg (by omega), if_neg (by omega)] at h
    cases h
    exact ⟨rfl, by rw [encode, or_extractLsb'_of_out hout, hread rfl]⟩

/-- A transaction word that decodes is the word of a well-formed host operation. -/
theorem encode_of_decodeHt (codes : Config.ModeCodes) {w : HtWord} {i : Instr} (h : decodeHt w = .ok i) :
    i.WellFormed ∧ encode codes i = .ht w := by
  obtain ⟨hshape, haccess⟩ := decodeHt_eq_ok h
  have hfields : htWord (htAddr w) (htWr w) (htWide w) (htData w) = w := by
    simp only [htShape, Bool.and_eq_true, beq_iff_eq] at hshape
    obtain ⟨⟨⟨hhigh, hlow⟩, -⟩, -⟩ := hshape
    exact htWord_fields hlow hhigh
  rw [← hfields] at hshape
  obtain ⟨hread, hbyte⟩ := (htShape_htWord _ _ _ _).1 hshape
  have hcode := encode_of_decodeAccess codes haccess hread hbyte
  rwa [hfields] at hcode

/-- Settles O2: a command word that decodes is that of its command, a transaction word that of the access it decodes
as. -/
theorem encodeInvertsDecode : Obligations.EncodeInvertsDecode := by
  intro codes c i h
  cases c with
  | cmd32 w =>
    obtain ⟨cmd, hcmd, rfl⟩ := decodeCode_cmd32_eq_ok.1 h
    rw [encode_ofCommand, encodeCommand_of_decode hcmd]
    exact ⟨ofCommand_wellFormed cmd, rfl⟩
  | ht w => exact encode_of_decodeHt codes (decodeCode_ht_eq_ok.1 h)

/-- No transaction word stands for a decode command: the formats are apart. -/
theorem decodeHt_ne_ofCommand {w : HtWord} {c : Command} : decodeHt w ≠ .ok (.ofCommand c) := fun h => by
  have hcode := (encode_of_decodeHt .defaults h).2
  rw [encode_ofCommand] at hcode
  cases hcode

/-! ### The HT rows of the opcode table -/

/-- The per-instruction law of the encoder puts a word that decodes in a row. -/
theorem mem_htRows_of_decodeHt {w : HtWord} {i : Instr} (h : decodeHt w = .ok i) :
    ∃ row ∈ htRows, w &&& row.1 = row.2 := by
  obtain ⟨hwf, hcode⟩ := encode_of_decodeHt .defaults h
  have hrow : ∀ {mask mtch : Nat}, Laws.EncodingMatchesTable.inRow (encode .defaults i) 64 mask mtch →
      (BitVec.ofNat 64 mask, BitVec.ofNat 64 mtch) ∈ htRows → ∃ row ∈ htRows, w &&& row.1 = row.2 := by
    intro mask mtch hin hmem
    rw [hcode] at hin
    exact ⟨_, hmem, hin.2⟩
  cases i with
  | rdpay off => exact hrow (Laws.EncodingMatchesTable.rdpay off hwf) (by decide)
  | wrpay off byte => exact hrow (Laws.EncodingMatchesTable.wrpay off byte hwf) (by decide)
  | rdcmd => exact hrow (Laws.EncodingMatchesTable.rdcmd hwf) (by decide)
  | wrcmd word => exact hrow (Laws.EncodingMatchesTable.wrcmd word hwf) (by decide)
  | start data => exact hrow (Laws.EncodingMatchesTable.start data hwf) (by decide)
  | wrctrl0 data => exact hrow (Laws.EncodingMatchesTable.wrctrl0 data hwf) (by decide)
  | rdctrl => exact hrow (Laws.EncodingMatchesTable.rdctrl hwf) (by decide)
  | rdstat => exact hrow (Laws.EncodingMatchesTable.rdstat hwf) (by decide)
  | rdlen => exact hrow (Laws.EncodingMatchesTable.rdlen hwf) (by decide)
  | rdout off => exact hrow (Laws.EncodingMatchesTable.rdout off hwf) (by decide)
  | _ => cases hcode

/-- Two words of one row that agree where the mask is clear are equal. -/
theorem eq_of_mask {n : Nat} {v w mask mtch : BitVec n} (hv : v &&& mask = mtch) (hw : w &&& mask = mtch)
    (h : ∀ k : Fin n, mask.getLsbD k = false → v.getLsbD k = w.getLsbD k) : v = w := by
  apply BitVec.eq_of_getLsbD_eq
  intro k hk
  cases hbit : mask.getLsbD k with
  | false => exact h ⟨k, hk⟩ hbit
  | true =>
    have hagree := congrArg (fun x => x.getLsbD k) (hv.trans hw.symm)
    simpa [hbit] using hagree

theorem htWord_getLsbD_addr (addr : BitVec 9) (wr wide : Bool) (data : Word) {k : Nat} (hk : k < 9) :
    (htWord addr wr wide data).getLsbD k = addr.getLsbD k := by rw [htWord_getLsbD, if_pos hk]

theorem htWord_getLsbD_data (addr : BitVec 9) (wr wide : Bool) (data : Word) {k : Nat} (h₀ : 16 ≤ k) (h₁ : k < 48) :
    (htWord addr wr wide data).getLsbD k = data.getLsbD (k - 16) := by
  rw [htWord_getLsbD, if_neg (by omega), if_neg (by omega), if_neg (by omega), if_neg (by omega), if_pos h₁]

/-- A word decodes when it agrees with the code of a well-formed instruction under the mask of its row, and where the
mask is clear. -/
theorem decodeHt_of_row {i : Instr} {v w mask mtch : HtWord} (hwf : i.WellFormed) (hcode : encode .defaults i = .ht v)
    (hv : v &&& mask = mtch) (hw : w &&& mask = mtch)
    (h : ∀ k : Fin 64, mask.getLsbD k = false → v.getLsbD k = w.getLsbD k) : ∃ i, decodeHt w = .ok i := by
  have hdecode := decodeCode_encode .defaults hwf
  rw [hcode, eq_of_mask hv hw h] at hdecode
  exact ⟨i, decodeCode_ht_eq_ok.1 hdecode⟩

/-- A row whose mask is full holds one word. -/
theorem eq_of_full_mask {w mtch : HtWord} (h : w &&& 0xFFFFFFFFFFFFFFFF = mtch) : w = mtch :=
  (BitVec.and_allOnes (x := w)).symm.trans h

/-- An offset taken from the low bits of a word stands there in the word built from it. -/
theorem htWord_offset_getLsbD (w : HtWord) (wr wide : Bool) (data : Word) {n k : Nat} (hk : k < n) (hn : n ≤ 9) :
    (htWord ((w.extractLsb' 0 n).setWidth 9) wr wide data).getLsbD k = w.getLsbD k := by
  rw [htWord_getLsbD_addr _ _ _ _ (by omega), BitVec.getLsbD_setWidth, BitVec.getLsbD_extractLsb', Nat.zero_add]
  simp [hk, show k < 9 by omega]

/-- DATA taken from the DATA bits of a word stands there in the word built from it. -/
theorem htWord_operand_getLsbD (w : HtWord) (addr : BitVec 9) (wr wide : Bool) {n k : Nat} (h₀ : 16 ≤ k)
    (h₁ : k < 16 + n) (hn : n ≤ 32) :
    (htWord addr wr wide ((w.extractLsb' 16 n).setWidth 32)).getLsbD k = w.getLsbD k := by
  rw [htWord_getLsbD_data _ _ _ _ h₀ (by omega), BitVec.getLsbD_setWidth, BitVec.getLsbD_extractLsb',
    Nat.add_sub_cancel' h₀]
  simp [show k - 16 < n by omega, show k - 16 < 32 by omega]

/-- Each word of a row decodes, as the instruction of the row with the operands it holds where the mask is clear. -/
theorem decodeHt_of_mem_htRows {w : HtWord} {row : HtWord × HtWord} (hrow : row ∈ htRows) (h : w &&& row.1 = row.2) :
    ∃ i, decodeHt w = .ok i := by
  simp only [htRows, List.mem_cons, List.not_mem_nil, or_false] at hrow
  have hdata : ∀ (addr : BitVec 9) (k : Fin 64), 16 ≤ k.val → k.val < 48 →
      (htWord addr true true (w.extractLsb' 16 32)).getLsbD k = w.getLsbD k := fun addr k h₀ h₁ => by
    rw [← htWord_operand_getLsbD w addr true true h₀ h₁ le_rfl, BitVec.setWidth_eq]
  have hctrl : ∀ k : Fin 64, (0xFFFF00000001FFFF : HtWord).getLsbD k = false → 16 ≤ k.val ∧ k.val < 48 := by decide
  have hbit : (w.extractLsb' 16 32).getLsbD 0 = w.getLsbD 16 := by simp
  rcases hrow with rfl | rfl | rfl | rfl | rfl | rfl | rfl | rfl | rfl | rfl
  · -- RDPAY
    have hplace : ∀ k : Fin 64, (0xFFFFFFFFFFFFFFC0 : HtWord).getLsbD k = false → k.val < 6 := by decide
    exact decodeHt_of_row (i := .rdpay (w.extractLsb' 0 6)) rfl rfl (Laws.EncodingMatchesTable.rdpay _ rfl).2 h
      fun k hk => htWord_offset_getLsbD w _ _ _ (hplace k hk) (by decide)
  · -- WRPAY
    have hplace : ∀ k : Fin 64, (0xFFFFFFFFFF00FFC0 : HtWord).getLsbD k = false →
        k.val < 6 ∨ 16 ≤ k.val ∧ k.val < 24 := by decide
    exact decodeHt_of_row (i := .wrpay (w.extractLsb' 0 6) (w.extractLsb' 16 8)) rfl rfl
      (Laws.EncodingMatchesTable.wrpay _ _ rfl).2 h fun k hk => (hplace k hk).elim
        (fun hlow => htWord_offset_getLsbD w _ _ _ hlow (by decide))
        fun hhigh => htWord_operand_getLsbD w _ _ _ hhigh.1 hhigh.2 (by decide)
  · -- RDCMD
    obtain rfl := eq_of_full_mask h
    exact ⟨.rdcmd, by decide⟩
  · -- WRCMD
    have hplace : ∀ k : Fin 64, (0xFFFF00000000FFFF : HtWord).getLsbD k = false → 16 ≤ k.val ∧ k.val < 48 := by decide
    exact decodeHt_of_row (i := .wrcmd (w.extractLsb' 16 32)) rfl rfl (Laws.EncodingMatchesTable.wrcmd _ rfl).2 h
      fun k hk => hdata _ k (hplace k hk).1 (hplace k hk).2
  · -- START
    have hwf : (Instr.start (w.extractLsb' 16 32)).WellFormed := by
      have h16 := congrArg (fun x => x.getLsbD 16) h
      exact hbit.trans (by simpa using h16)
    exact decodeHt_of_row hwf rfl (Laws.EncodingMatchesTable.start _ hwf).2 h
      fun k hk => hdata _ k (hctrl k hk).1 (hctrl k hk).2
  · -- WRCTRL0
    have hwf : (Instr.wrctrl0 (w.extractLsb' 16 32)).WellFormed := by
      have h16 := congrArg (fun x => x.getLsbD 16) h
      exact congrArg not (hbit.trans (by simpa using h16))
    exact decodeHt_of_row hwf rfl (Laws.EncodingMatchesTable.wrctrl0 _ hwf).2 h
      fun k hk => hdata _ k (hctrl k hk).1 (hctrl k hk).2
  · -- RDCTRL
    obtain rfl := eq_of_full_mask h
    exact ⟨.rdctrl, by decide⟩
  · -- RDSTAT
    obtain rfl := eq_of_full_mask h
    exact ⟨.rdstat, by decide⟩
  · -- RDLEN
    obtain rfl := eq_of_full_mask h
    exact ⟨.rdlen, by decide⟩
  · -- RDOUT
    have hplace : ∀ k : Fin 64, (0xFFFFFFFFFFFFFF00 : HtWord).getLsbD k = false →
        k.val < 8 ∧ (0x100 : BitVec 9).getLsbD k = false := by decide
    refine decodeHt_of_row (i := .rdout (w.extractLsb' 0 8)) rfl rfl (Laws.EncodingMatchesTable.rdout _ rfl).2 h
      fun k hk => ?_
    obtain ⟨hlow, hregion⟩ := hplace k hk
    rw [htWord_getLsbD_addr _ _ _ _ (by omega), BitVec.getLsbD_or, hregion, Bool.false_or,
      ← htWord_offset_getLsbD w false false 0 hlow (by decide), htWord_getLsbD_addr _ _ _ _ (by omega)]

/-- Settles O5: a word that decodes is the code of its instruction, whose row is known; a word of a row is the code of
that row's instruction. -/
theorem transactionsMatchTheTable : Obligations.TransactionsMatchTheTable := fun _ =>
  ⟨fun ⟨_, h⟩ => mem_htRows_of_decodeHt h, fun ⟨_, hrow, h⟩ => decodeHt_of_mem_htRows hrow h⟩

/-- Settles O3: the decoder evaluates each word. -/
theorem specWordsDecode : Obligations.SpecWordsDecode := by
  unfold Obligations.SpecWordsDecode
  decide

end Sys2Proof.Machine
end

section
/-!
PROOFS. What a step does: which steps stop, what each leaves unchanged, START and reset, and the invariant of STATUS,
OUTLEN and the decode in progress (10_state.md section 2, 41_commands.md section 1, 70_reset_and_hazards.md).
-/

namespace Sys2Proof.Machine

/-! ### What an instruction leaves -/

/-- What a host write that is not refused leaves of s. -/
inductive Written (s : State) : Instr → State → Prop
  | wrpay (off : BitVec 6) (byte : Byte) :
      Written s (.wrpay off byte) { s with payload := s.payload.set off.toNat byte off.isLt }
  | wrcmd (word : Word) : Written s (.wrcmd word) { s with cmd := word }
  | start (data : Word) : Written s (.start data) (startDecode s)
  | wrctrl0 (data : Word) : Written s (.wrctrl0 data) s

theorem exec_eq_hostWrite {i : Instr} (h : IsHostWrite i) (s : State) :
    ∃ t, Written s i t ∧ exec i s = hostWrite s t := by
  cases i with
  | wrpay off byte => exact ⟨_, .wrpay off byte, exec_wrpay off byte s⟩
  | wrcmd word => exact ⟨_, .wrcmd word, exec_wrcmd word s⟩
  | start data => exact ⟨_, .start data, exec_start data s⟩
  | wrctrl0 data => exact ⟨_, .wrctrl0 data, exec_wrctrl0 data s⟩
  | _ => exact h.elim

/-- A host read changes what was read, and the count of free values drawn (logs 3 and 4). -/
theorem exec_of_isHostRead {i : Instr} (h : IsHostRead i) (s : State) :
    ∃ r n, exec i s = .next { s with readData := r, draws := n } := by
  cases i with
  | rdpay off => exact ⟨_, s.draws, exec_rdpay off s⟩
  | rdcmd => exact ⟨_, s.draws, exec_rdcmd s⟩
  | rdctrl => exact ⟨_, s.draws, exec_rdctrl s⟩
  | rdstat => exact ⟨_, _, exec_rdstat s⟩
  | rdlen => exact ⟨_, s.draws, exec_rdlen s⟩
  | rdout off => exact ⟨_, _, exec_rdout off s⟩
  | _ => exact h.elim

/-- Everything an instruction that answers a next state can leave: what a decode command leaves, or a host read, or a
host write while no decode is in progress. -/
theorem exec_next_cases {i : Instr} {s t : State} (h : exec i s = .next t) :
    (∃ c, i = .ofCommand c ∧ t = runDecode c (bodyOf s.parameters.rightInherit c) s) ∨
      (∃ r n, t = { s with readData := r, draws := n }) ∨ ¬ Busy s ∧ Written s i t := by
  rcases command_or_read_or_write i with ⟨c, rfl⟩ | hread | hwrite
  · rw [exec_ofCommand] at h
    cases h
    exact .inl ⟨c, rfl, rfl⟩
  · obtain ⟨r, n, hexec⟩ := exec_of_isHostRead hread s
    cases h.symm.trans hexec
    exact .inr (.inl ⟨r, n, rfl⟩)
  · obtain ⟨u, hwritten, hexec⟩ := exec_eq_hostWrite hwrite s
    obtain ⟨hidle, rfl⟩ := hostWrite_eq_next.1 (hexec.symm.trans h)
    exact .inr (.inr ⟨hidle, hwritten⟩)

/-- A host access is a read or a write: no transaction word is a decode command. -/
theorem access_next_cases {w : HtWord} {i : Instr} {s t : State} (hdecode : decodeHt w = .ok i)
    (h : exec i s = .next t) : (∃ r n, t = { s with readData := r, draws := n }) ∨ ¬ Busy s ∧ Written s i t := by
  rcases exec_next_cases h with ⟨c, rfl, -⟩ | haccess
  · exact absurd hdecode decodeHt_ne_ofCommand
  · exact haccess

/-! ### The step -/

/-- Settles O7: the fetch takes the transaction from the inputs, and the step runs it. -/
theorem stepRunsTransaction : Obligations.StepRunsTransaction := fun _ _ _ _ hinputs hdecode =>
  step_of_fetch_run (fetch_transaction hinputs hdecode)

theorem fetch_decoder {s : State} {rest : List Input} (h : s.inputs = .decoder :: rest) :
    fetch s = decoderMove { s with inputs := rest } := by simp [fetch, h]

/-- Settles O8: with no host access first the fetch is the decoder's move, which runs the latched command while BUSY and
does nothing otherwise. -/
theorem stepRunsLatchedCommand : Obligations.StepRunsLatchedCommand := by
  refine ⟨fun s c hbusy hc => ⟨fun hinputs => ?_, fun rest hinputs => ?_⟩,
    fun s hidle => ⟨fun hinputs => ?_, fun rest hinputs => ?_⟩⟩
  · exact step_of_fetch_run ((fetch_idle hinputs).trans (decoderMove_busy hbusy hc))
  · exact step_of_fetch_run ((fetch_decoder hinputs).trans (decoderMove_busy (s := { s with inputs := rest }) hbusy hc))
  · exact step_of_fetch_move ((fetch_idle hinputs).trans (decoderMove_notBusy hidle))
  · exact step_of_fetch_move
      ((fetch_decoder hinputs).trans (decoderMove_notBusy (s := { s with inputs := rest }) hidle))

/-- Settles O10: of what the fetch can be, only a word that decodes to nothing is refused there, and of the instructions
only a host write while BUSY by exec. -/
theorem onlyUndefinedAccessesAndBusyWritesStop : Obligations.OnlyUndefinedAccessesAndBusyWritesStop := by
  intro s
  rcases fetch_cases s with ⟨w, rest, i, hinputs, hdecode, hfetch⟩ | ⟨w, rest, e, hinputs, hdecode, hfetch⟩ |
    ⟨rest, -, hfetch⟩ | ⟨rest, -, hfetch⟩
  · by_cases hwrite : Busy s ∧ IsHostWrite i
    · exact .inr (.inr ⟨w, rest, i, hinputs, hdecode, hwrite.1, hwrite.2,
        (step_of_fetch_run hfetch).trans (exec_hostWrite_busy hwrite.1 hwrite.2)⟩)
    · obtain ⟨t, hexec⟩ := exec_next_of_not_busy_write (s := { s with inputs := rest }) hwrite
      exact .inl ⟨t, (step_of_fetch_run hfetch).trans hexec⟩
  · exact .inr (.inl ⟨w, rest, e, hinputs, hdecode, step_of_fetch_refuse hfetch⟩)
  · exact .inl ⟨_, step_of_fetch_move hfetch⟩
  · rcases decoderMove_cases { s with inputs := rest } with ⟨-, c, -, hmove⟩ | ⟨-, e, -, hmove⟩ | ⟨-, hmove⟩
    · exact .inl ⟨_, (step_of_fetch_run (hfetch.trans hmove)).trans (exec_ofCommand c _)⟩
    · exact .inl ⟨_, step_of_fetch_move (hfetch.trans hmove)⟩
    · exact .inl ⟨_, step_of_fetch_move (hfetch.trans hmove)⟩

/-! ### The invariant -/

/-- The invariant speaks of STATUS, OUTLEN, the internal registers and the parameters alone. -/
theorem Inv.of_same {s t : State} (h : Inv s) (hstatus : t.status = s.status) (houtlen : t.outlen = s.outlen)
    (hdp : t.dp = s.dp) (hparameters : t.parameters = s.parameters) : Inv t := by
  obtain ⟨h1, h2, h3, h4, h5, h6, h7, h8⟩ := h
  constructor <;> simpa only [hstatus, houtlen, hdp, hparameters]

theorem posOf_toNat_le (cur : Fin 513) : (posOf cur).toNat ≤ 512 := by
  rw [posOf, BitVec.toNat_ofNat]
  omega

theorem inv_atReset (p : Config.Parameters) (n : Nat) (inputs : List Input) (r : ReadData) :
    Inv (State.atReset p n inputs r) := by
  constructor <;> simp [Status.atReset, Detail.kind]

/-- A fault is an end the invariant allows, when it has a detail. -/
theorem inv_raiseFault {e : Detail} (he : e ≠ .none) (s : State) : Inv (raiseFault e s) := by
  constructor <;> simp [he, posOf_toNat_le]

/-- Completion is an end the invariant allows. -/
theorem inv_complete (v : Variant) (px : List Pixel) (s : State) : Inv (complete v px s) := by
  have hlen : v.outlen = 256#9 ∨ v.outlen = 128#9 := by cases v <;> decide
  constructor <;> simp [hlen, posOf_toNat_le, Detail.kind]

theorem detailOfReject_ne_none (r : CommandReject) : detailOfReject r ≠ .none := by cases r <;> decide

/-- START leaves the decode it dispatched, or a fault. -/
theorem inv_startDecode (s : State) : Inv (startDecode s) := by
  rcases startDecode_cases s with ⟨c, hc, hstart⟩ | ⟨r, -, hstart⟩
  · rw [hstart]
    constructor <;> simp [hc, Detail.kind]
  · rw [hstart]
    exact inv_raiseFault (detailOfReject_ne_none r) _

/-- A decode from CUR 0 completes, or faults with a detail of its row of R242. -/
theorem inv_runDecode {c : Command} {s : State} (hcur : s.dp.cur = 0) :
    Inv (runDecode c (bodyOf s.parameters.rightInherit c) s) := by
  obtain ⟨t, hexec, hend⟩ := possibleFaults.1 c s hcur
  rw [exec_ofCommand] at hexec
  cases hexec
  rcases runDecode_cases c (bodyOf s.parameters.rightInherit c) s with ⟨px, d, -, hrun⟩ | ⟨e, d, -, hrun⟩
  · rw [hrun]
    exact inv_complete _ _ _
  · rw [hrun] at hend ⊢
    refine inv_raiseFault (fun he => ?_) _
    subst he
    cases c <;> simp at hend

theorem Written.inv {s t : State} {i : Instr} (h : Written s i t) (hs : Inv s) : Inv t := by
  cases h with
  | wrpay | wrcmd => exact hs.of_same rfl rfl rfl rfl
  | start => exact inv_startDecode s
  | wrctrl0 => exact hs

/-- Settles O53: a host access other than START keeps what the invariant speaks of; START, reset and the decoder's move,
which begins at CUR 0, end in states that meet it. -/
theorem invariantKept : Obligations.InvariantKept := by
  intro s t hs hstep
  rcases step_cases hstep with ⟨w, rest, i, -, hdecode, hexec⟩ | ⟨rest, -, rfl⟩ | ⟨rest, c, -, hbusy, -, rfl⟩ |
    ⟨rest, r, -, -, -, rfl⟩ | ⟨rest, -, -, rfl⟩
  · have hrest : Inv { s with inputs := rest } := hs.of_same rfl rfl rfl rfl
    rcases access_next_cases hdecode hexec with ⟨r, n, rfl⟩ | ⟨-, hwritten⟩
    · exact hrest.of_same rfl rfl rfl rfl
    · exact hwritten.inv hrest
  · exact inv_atReset _ _ _ _
  · obtain ⟨-, -, -, -, hcur, -⟩ := hs.busy hbusy
    exact inv_runDecode (s := { s with inputs := rest }) hcur
  · exact inv_raiseFault (detailOfReject_ne_none r) _
  · exact hs.of_same rfl rfl rfl rfl

/-- Settles O54: reset leaves STATUS and OUTLEN 0. -/
theorem invariantAtReset : Obligations.InvariantAtReset := ⟨inv_atReset _ _ _ _, inv_atReset⟩

/-! ### What a step leaves unchanged -/

/-- Settles O55: PAYLOAD is written by WRPAY alone and CMD by WRCMD alone; reads, START and decodes keep both. -/
theorem payloadAndCommandKept : Obligations.PayloadAndCommandKept := by
  intro s t hstep
  rcases step_cases hstep with ⟨w, rest, i, hinputs, hdecode, hexec⟩ | ⟨rest, hinputs, -⟩ | ⟨rest, c, -, -, -, rfl⟩ |
    ⟨rest, r, -, -, -, rfl⟩ | ⟨rest, -, -, rfl⟩
  · rcases access_next_cases hdecode hexec with ⟨r, n, rfl⟩ | ⟨-, hwritten⟩
    · exact ⟨.inl rfl, .inl rfl⟩
    · cases hwritten with
      | wrpay off byte => exact ⟨.inr ⟨rest, .inr ⟨w, off, byte, hinputs, hdecode⟩⟩, .inl rfl⟩
      | wrcmd word => exact ⟨.inl rfl, .inr ⟨rest, .inr ⟨w, word, hinputs, hdecode⟩⟩⟩
      | start data =>
        obtain ⟨hpayload, hcmd, -⟩ := startDecode_host { s with inputs := rest }
        exact ⟨.inl hpayload, .inl hcmd⟩
      | wrctrl0 data => exact ⟨.inl rfl, .inl rfl⟩
  · exact ⟨.inr ⟨rest, .inl hinputs⟩, .inr ⟨rest, .inl hinputs⟩⟩
  · obtain ⟨hpayload, hcmd, -⟩ := runDecode_host c (bodyOf s.parameters.rightInherit c) { s with inputs := rest }
    exact ⟨.inl hpayload, .inl hcmd⟩
  · exact ⟨.inl rfl, .inl rfl⟩
  · exact ⟨.inl rfl, .inl rfl⟩

theorem startDecode_fault_kind {s : State} (h : (startDecode s).status.state = .fault) :
    (startDecode s).status.fault = .unsupportedMode := by
  rcases startDecode_cases s with ⟨c, -, hstart⟩ | ⟨r, -, hstart⟩
  · rw [hstart] at h
    cases h
  · rw [hstart]
    exact detailOfReject_kind r

/-- Settles O56: of the host accesses only START touches STATUS, and with no decode in progress the decoder does not
move. -/
theorem statusStaysUntilStartOrReset : Obligations.StatusStaysUntilStartOrReset := by
  intro s t hidle hstep
  rcases step_cases hstep with ⟨w, rest, i, hinputs, hdecode, hexec⟩ | ⟨rest, hinputs, -⟩ | ⟨rest, c, -, hbusy, -⟩ |
    ⟨rest, r, -, hbusy, -⟩ | ⟨rest, -, -, rfl⟩
  · rcases access_next_cases hdecode hexec with ⟨r, n, rfl⟩ | ⟨-, hwritten⟩
    · exact .inl rfl
    · cases hwritten with
      | wrpay | wrcmd | wrctrl0 => exact .inl rfl
      | start data => exact .inr (.inr ⟨rest, w, data, hinputs, hdecode, startDecode_fault_kind⟩)
  · exact .inr (.inl ⟨rest, hinputs⟩)
  · exact absurd hbusy hidle
  · exact absurd hbusy hidle
  · exact .inl rfl

theorem exec_parameters {i : Instr} {s t : State} (h : exec i s = .next t) : t.parameters = s.parameters := by
  rcases exec_next_cases h with ⟨c, -, rfl⟩ | ⟨r, n, rfl⟩ | ⟨-, hwritten⟩
  · exact runDecode_parameters _ _ _
  · rfl
  · cases hwritten with
    | wrpay | wrcmd | wrctrl0 => rfl
    | start data => exact startDecode_parameters s

/-- Settles O60: no instruction, no reset and no move of the decoder writes the parameters. -/
theorem parametersKept : Obligations.ParametersKept := by
  refine ⟨⟨rfl, by decide⟩, fun i s t hexec => exec_parameters hexec, fun s t hstep => ?_⟩
  rcases step_cases hstep with ⟨w, rest, i, -, -, hexec⟩ | ⟨rest, -, rfl⟩ | ⟨rest, c, -, -, -, rfl⟩ |
    ⟨rest, r, -, -, -, rfl⟩ | ⟨rest, -, -, rfl⟩
  · exact exec_parameters (s := { s with inputs := rest }) hexec
  · rfl
  · exact runDecode_parameters _ _ _
  · rfl
  · rfl

/-! ### START, the decode in progress and reset -/

/-- Settles O19: a word that passes validation is the word of the command it selects, which START dispatches. -/
theorem startBeginsDecode : Obligations.StartBeginsDecode := by
  intro s data hidle hvalid
  obtain ⟨c, hc⟩ := validateDetail_eq_none.1 hvalid
  have hcmd := encodeCommand_of_decode hc
  exact ⟨c, _, hcmd, start_of_command hidle hcmd.symm data, rfl, rfl, rfl, rfl, rfl, rfl, rfl, rfl, rfl, rfl, rfl⟩

/-- A decode command leaves DONE or FAULT, whatever its body. -/
theorem runDecode_ended (c : Command) (body : Payload → ModeParams → Micro (List Pixel)) (s : State) :
    (runDecode c body s).status.state = .done ∨ (runDecode c body s).status.state = .fault := by
  rcases runDecode_cases c body s with ⟨px, d, -, hrun⟩ | ⟨e, d, -, hrun⟩
  · exact .inl (by rw [hrun, complete_status])
  · exact .inr (by rw [hrun, raiseFault_status])

/-- Settles O58: the step runs the command the invariant says is latched, and a decode command ends DONE or FAULT. -/
theorem busyDecodeCompletes : Obligations.BusyDecodeCompletes := by
  intro s hs hbusy hinputs
  obtain ⟨c, hc, -⟩ := hs.busy hbusy
  have hstep := (stepRunsLatchedCommand.1 s c hbusy hc).1 hinputs
  exact ⟨_, hstep.trans (exec_ofCommand c s), runDecode_ended c _ s, runDecode_host c _ s⟩

theorem step_reset {s : State} {rest : List Input} (h : s.inputs = .reset :: rest) :
    step s = .next (State.atReset s.parameters s.draws rest s.readData) :=
  step_of_fetch_move (by simp [fetch, h, resetMachine_eq])

/-- CMD 0 under the default mode codes: no row of the mode table has PATH 0 and MODE 0 (30_encoding.md R71). -/
theorem decodeCommand_zero : decodeCommand .defaults 0 = .error .unknownMode := by decide

/-- START straight after reset (41_commands.md R131). -/
theorem startDecode_reset_status : (startDecode State.reset).status = faultStatus .unknownMode .none 0 := by
  rw [startDecode_of_decode_error (s := State.reset) decodeCommand_zero]
  exact raiseFault_latchCommand_status _ _

/-- Settles O52: the reset values are those of `State.atReset`; CMD is 0, so START faults UNKNOWN_MODE, and RDSTAT
returns the word of that STATUS. -/
theorem resetValues : Obligations.ResetValues := by
  have hword : Status.atReset.word = 0 := by decide
  have hidle : ¬ Busy State.reset := nofun
  refine ⟨⟨rfl, hword, rfl, hidle⟩, fun s rest hinputs => ⟨_, step_reset hinputs, rfl, hword, rfl, nofun, rfl⟩,
    fun data => ⟨_, _, exec_start_notBusy hidle data, startDecode_reset_status, exec_rdstat _, ?_⟩⟩
  have hended : ¬ Busy (startDecode State.reset) := by
    rw [Busy, startDecode_reset_status]
    exact nofun
  show ReadData.word (statusRead (startDecode State.reset)) = _
  rw [statusRead_notBusy hended, startDecode_reset_status]
  decide

end Sys2Proof.Machine
end

section
/-!
PROOFS. The fields of the STATUS word (10_state.md R25, 60_exceptions.md R240, R241, R246), and the independence of the
instances of a platform (60_exceptions.md R251).
-/

namespace Sys2Proof.Machine

/-! ### The fields of the STATUS word: each is what is left after the fields below it -/

section
variable (st : Status)

theorem statusWord_state : st.word.extractLsb' 0 2 = st.state.code := BitVec.extractLsb'_append_eq_right

theorem statusWord_outValid : st.word.getLsbD 2 = st.outValid := by
  simp only [Status.word, BitVec.getLsbD_append]
  simp

theorem statusWord_bit3 : st.word.getLsbD 3 = false := by
  simp only [Status.word, BitVec.getLsbD_append]
  simp

theorem statusWord_bit7 : st.word.getLsbD 7 = false := by
  simp only [Status.word, BitVec.getLsbD_append]
  simp

/-- The fields of more than one bit: those below a field are dropped, then it is the lowest. -/
theorem statusWord_extract :
    st.word.extractLsb' 4 3 = st.fault.code ∧ st.word.extractLsb' 8 4 = st.detail.code ∧
      st.word.extractLsb' 12 2 = st.warn.code ∧ st.word.extractLsb' 14 2 = 0 ∧ st.word.extractLsb' 16 10 = st.pos ∧
      st.word.extractLsb' 26 6 = 0 := by
  simp (disch := decide) only [Status.word, BitVec.extractLsb'_append_eq_of_le, Nat.reduceSub,
    BitVec.extractLsb'_append_eq_right, BitVec.extractLsb'_eq_self, and_self]

end

/-! ### The code numbers -/

theorem faultKind_code_le (k : FaultKind) : k.code.toNat ≤ 4 := by cases k <;> decide

theorem detail_code_le (d : Detail) : d.code.toNat ≤ 10 := by cases d <;> decide

theorem warning_code_le (w : Warning) : w.code.toNat ≤ 2 := by cases w <;> decide

/-- FAULT is 0 exactly when DETAIL is: a detail other than 0 has a kind (60_exceptions.md R241). -/
theorem kind_code_eq_zero_iff (d : Detail) : d.kind.code = 0 ↔ d.code = 0 := by cases d <;> decide

/-- Settles O15: each field of the word is the code of its STATUS field; the codes bound all but POS, and the invariant
bounds POS and ties FAULT to DETAIL and OUT_VALID to DONE. -/
theorem statusWordFields : Obligations.StatusWordFields := by
  refine ⟨fun s hs => ?_, rfl, rfl, rfl, rfl⟩
  have hvalid : s.status.outValid = decide (s.status.state = .done) := Bool.eq_iff_iff.2 (by simp [hs.outValid])
  obtain ⟨hfault, hdetail, hwarn, hbits14, hpos, hbits26⟩ := statusWord_extract s.status
  simp only [statusWord_state, statusWord_outValid, statusWord_bit3, statusWord_bit7, hfault, hdetail, hwarn, hbits14,
    hpos, hbits26]
  refine ⟨trivial, hvalid, trivial, trivial, faultKind_code_le _, trivial, trivial, detail_code_le _, ?_, trivial,
    warning_code_le _, trivial, trivial, hs.pos, trivial⟩
  rw [hs.faultKind]
  exact kind_code_eq_zero_iff _

/-! ### The instances of a platform -/

/-- Setting one FBDEC of a platform leaves the others. -/
theorem platform_set_ne {p : Platform} {k j : Fin Config.nInstances} (s : State) (h : j ≠ k) :
    (p.set k s)[j] = p[j] :=
  Vector.getElem_set_ne k.isLt j.isLt fun heq => h (Fin.ext heq.symm)

theorem platform_set_self (p : Platform) (k : Fin Config.nInstances) (s : State) : (p.set k s)[k] = s :=
  Vector.getElem_set_self k.isLt

theorem windowOffset_eq_some {base addr : Nat} {off : BitVec 9} (h : windowOffset base addr = some off) :
    base ≤ addr ∧ addr < base + 0x200 ∧ off = BitVec.ofNat 9 (addr - base) := by
  unfold windowOffset at h
  split at h
  next hin =>
    cases h
    exact ⟨hin.1, hin.2, rfl⟩
  next => cases h

theorem Platform.step_eq_next {k : Fin Config.nInstances} {p q : Platform} (h : Platform.step k p = .next q) :
    ∃ s, Machine.step p[k] = .next s ∧ q = p.set k s := by
  unfold Platform.step at h
  split at h
  next s hstep =>
    cases h
    exact ⟨s, hstep, rfl⟩
  all_goals cases h

theorem Platform.access_eq_some {k : Fin Config.nInstances} {addr : Nat} {wr wide : Bool} {data : Word}
    {p q : Platform} (h : Platform.access k addr wr wide data p = some q) :
    ∃ off, windowOffset (Config.windowBase k) addr = some off ∧
      q = p.put k (.transaction (htWord off wr wide data)) := by
  unfold Platform.access at h
  split at h
  next off hoff =>
    cases h
    exact ⟨off, hoff, rfl⟩
  next => cases h

/-- Settles O59: a platform step and a platform access each set FBDEC k alone, the one to what its own step answers, the
other to itself with the transaction last among its inputs. -/
theorem instancesIndependent : Obligations.InstancesIndependent := by
  refine fun k p q => ⟨fun hstep => ?step, fun addr wr wide data haccess => ?access⟩
  case step =>
    obtain ⟨s, hs, rfl⟩ := Platform.step_eq_next hstep
    rw [platform_set_self]
    exact ⟨hs, fun j hj => platform_set_ne s hj⟩
  case access =>
    obtain ⟨off, hoff, rfl⟩ := Platform.access_eq_some haccess
    obtain ⟨hlow, hhigh, rfl⟩ := windowOffset_eq_some hoff
    exact ⟨hlow, hhigh, platform_set_self _ _ _, fun j hj => platform_set_ne _ hj⟩

end Sys2Proof.Machine
end

section
/-!
PROOFS. The vendor-A decodes by their layout (30_encoding.md R76): the plan table, the pixels of a legal payload, the
first failing check of any other, and the agreement of DECODE.A4, A3 and A2.
-/

namespace Sys2Proof.Machine

/-! ### The plan table -/

/-- The plan of one side, with or without its header byte (42_vendor_a_header.md R155). -/
theorem answers_planSide (pl : Payload) (hp cst : Bool) (absent : Plan) {q : Nat}
    (h : hp = true → q + 8 ≤ 512 ∧ (cst = true ∨ bitsAt pl q 8 ≠ 0)) :
    Answers (planSide pl hp cst absent) q (if hp then presentPlan cst (bitsAt pl q 8) else absent)
      (q + if hp then 8 else 0) := by
  cases hp with
  | false => exact answers_pure _ _
  | true =>
    obtain ⟨hin, hnz⟩ := h rfl
    exact answers_planSide_present pl cst absent hin hnz

/-- The two plans of a channel whose first header byte would be at bit q, by flags alone. -/
def channelPlans (pl : Payload) (hp cst : PerSide Bool) (q : Nat) : PerSide Plan :=
  let l := if hp.l then presentPlan cst.l (bitsAt pl q 8) else planAbsentLeft cst.l
  ⟨l, if hp.r then presentPlan cst.r (bitsAt pl (q + if hp.l then 8 else 0) 8) else planAbsentRight cst.r l⟩

theorem answers_planChannel (pl : Payload) (hp cst : PerSide Bool) {q : Nat}
    (hl : hp.l = true → q + 8 ≤ 512 ∧ (cst.l = true ∨ bitsAt pl q 8 ≠ 0))
    (hr : hp.r = true → q + (if hp.l then 8 else 0) + 8 ≤ 512 ∧
      (cst.r = true ∨ bitsAt pl (q + if hp.l then 8 else 0) 8 ≠ 0)) :
    Answers (planChannel pl hp cst) q (channelPlans pl hp cst q)
      (q + (if hp.l then 8 else 0) + if hp.r then 8 else 0) :=
  answers_bind (answers_planSide pl hp.l cst.l _ hl) (answers_bind (answers_planSide pl hp.r cst.r _ hr)
    (answers_pure _ _))

/-- Each row of the plan table (42_vendor_a_header.md R160) gives the bytes of the sides whose header is present and the
plans of the two sides; a right side alone has its byte first, and is constant. -/
theorem channelPlans_of_table {pl : Payload} {hp cst : PerSide Bool} {q n : Nat} {l r : Plan}
    (h : planTable hp.l hp.r cst.l cst.r (bitsAt pl q 8) (bitsAt pl (q + 8) 8) = some (n, l, r)) :
    8 * n = (if hp.l then 8 else 0) + (if hp.r then 8 else 0) ∧ (hp.l = false → hp.r = true → cst.r = true) ∧
      (channelPlans pl hp cst q).l = l ∧ (channelPlans pl hp cst q).r.kind = r.kind ∧
      (channelPlans pl hp cst q).r.width = r.width ∧
      (r.kind ≠ .flatInh → (channelPlans pl hp cst q).r.base = r.base) := by
  obtain ⟨hpl, hpr⟩ := hp
  obtain ⟨cl, cr⟩ := cst
  cases hpl <;> cases hpr <;> cases cl <;> cases cr <;> cases h <;>
    exact ⟨rfl, by decide, rfl, rfl, rfl, fun _ => rfl⟩

/-- Settles O46: the bytes a row reads are inside the payload and not zero where they are split, so both sides answer
their plans, which are the row's. -/
theorem plansMatchTheTable : Obligations.PlansMatchTheTable := by
  intro pl d hp cst n l r b0 b1 htable hin hb0 hb1
  obtain ⟨hbytes, halone, hleft, hkind, hwidth, hbase⟩ := channelPlans_of_table htable
  have hsplit : ∀ {c : Bool} {b : Byte}, (c = false → b ≠ 0) → c = true ∨ b ≠ 0 := fun {c} _ h => by
    cases c with
    | false => exact .inr (h rfl)
    | true => exact .inl rfl
  have hanswer := answers_planChannel pl hp cst (q := d.cur.val)
    (fun hl => ⟨by rw [hl, if_pos rfl] at hbytes; omega, hsplit (hb0 hl)⟩)
    (fun hr => by
      rw [hr, if_pos rfl] at hbytes
      refine ⟨by omega, ?_⟩
      cases hl : hp.l with
      | false => exact .inl (halone hl hr)
      | true => exact hsplit (hb1 hr))
  obtain ⟨d', hrun, hcur, -⟩ := hanswer d rfl
  exact ⟨_, d', hrun, by omega, hleft, hkind, hwidth, hbase⟩

/-! ### A cacheline has a layout or a fault -/

theorem slotChannel_sideSlot (ch : Channel) (x : Side) :
    sideSlot ch x < 8 ∧ slotChannel (sideSlot ch x) = ch ∧ slotSide (sideSlot ch x) = x := by
  cases ch <;> cases x <;> decide

/-- A slot without a fault has no header byte, a constant one or a nonzero one. -/
theorem nonzeroAt_of_headerByteFault_eq_none {pl : Payload} {c0 k : Nat} (h : headerByteFault pl c0 k = none) :
    nonzeroAt pl c0 (slotChannel k) (slotSide k) = true := by
  unfold headerByteFault at h
  dsimp only at h
  split_ifs at h with habsent _ hzero
  · simp [nonzeroAt, habsent]
  · simpa using hzero

theorem cachelineLegalAt_of_fault_eq_none {pl : Payload} {c0 : Nat} (h : cachelineFault pl c0 = none) :
    cachelineLegalAt pl c0 = true := by
  unfold cachelineFault at h
  split at h
  · cases h
  split at h
  · cases h
  next hpatterns =>
    obtain ⟨hg, hcr, hcb, ha⟩ := not_not.1 hpatterns
    split at h
    · cases h
    next hheaders =>
      split at h
      · cases h
      next hend =>
        refine cachelineLegalAt_iff.2 ⟨fun ch => ⟨by cases ch <;> assumption, fun x => ?_⟩, Nat.le_of_not_lt hend⟩
        obtain ⟨hk, hch, hx⟩ := slotChannel_sideSlot ch x
        have hnz :=
          nonzeroAt_of_headerByteFault_eq_none (List.findSome?_eq_none_iff.1 hheaders _ (List.mem_range.2 hk))
        rwa [hch, hx] at hnz

theorem cachelineFault_eq_none_iff {pl : Payload} {c0 : Nat} :
    cachelineFault pl c0 = none ↔ cachelineLegalAt pl c0 = true :=
  ⟨cachelineLegalAt_of_fault_eq_none, cachelineFault_of_legal⟩

/-- Packed cachelines have a layout when none of them faults. -/
theorem cachelinesFault_eq_none_iff (inherit : Config.RightInherit) {pl : Payload} {c0 n : Nat} :
    cachelinesFault pl c0 n = none ↔ (cachelinesLayout inherit pl c0 n).isSome := by
  induction n generalizing c0 with
  | zero => simp [cachelinesFault, cachelinesLayout]
  | succ n ih =>
    cases hfault : cachelineFault pl c0 with
    | some f =>
      have hillegal : ¬ cachelineLegalAt pl c0 = true := by simp [← cachelineFault_eq_none_iff, hfault]
      simp [cachelinesFault, cachelinesLayout, hfault, hillegal]
    | none =>
      rw [cachelinesFault_succ_of_none hfault, ih, cachelinesLayout, if_pos (cachelineFault_eq_none_iff.1 hfault)]
      cases cachelinesLayout inherit pl (slotStart pl c0 8) n <;> rfl

/-! ### The pixels of packed cachelines -/

theorem cachelinesLayout_length {inherit : Config.RightInherit} {pl : Payload} {c0 n e : Nat} {px : List Pixel}
    (h : cachelinesLayout inherit pl c0 n = some (e, px)) : px.length = 16 * n := by
  induction n generalizing c0 px with
  | zero =>
    cases h
    rfl
  | succ n ih =>
    obtain ⟨-, px', hrest, rfl⟩ := cachelinesLayout_succ_some h
    have hfirst : (cachelinePixelsAt inherit pl c0).length = 16 := assembleA_length _
    rw [List.length_append, hfirst, ih hrest]
    omega

/-- Decoding legal cachelines answers their pixels, whatever the internal registers but the cursor hold. -/
theorem repeatMicro_cachelineA_ok {inherit : Config.RightInherit} {pl : Payload} {n e : Nat} {px : List Pixel}
    {d : Datapath} (h : cachelinesLayout inherit pl d.cur.val n = some (e, px)) :
    ∃ cls d', repeatMicro (cachelineA inherit pl) n d = .ok cls d' ∧ cls.flatten = px ∧ d'.cur.val = e := by
  induction n generalizing d px with
  | zero =>
    cases h
    exact ⟨[], d, rfl, rfl, rfl⟩
  | succ n ih =>
    obtain ⟨hlegal, px', hrest, rfl⟩ := cachelinesLayout_succ_some h
    obtain ⟨d₁, hrun, hcur, -⟩ := (cachelineA_runs inherit pl d).1 (cachelineFault_of_legal hlegal)
    rw [← hcur] at hrest
    obtain ⟨cls, d₂, hruns, rfl, hend⟩ := ih hrest
    exact ⟨_ :: cls, d₂, (micro_bind_ok hrun).trans (micro_bind_ok hruns), rfl, hend⟩

theorem decodeA_of_layout {inherit : Config.RightInherit} {pl : Payload} {n e : Nat} {px : List Pixel} {d : Datapath}
    (hcur : d.cur.val = 0) (h : vendorALayout inherit pl n = some (e, px)) :
    ∃ d', decodeA inherit pl n d = .ok px d' ∧ d'.cur.val = e := by
  unfold vendorALayout at h
  split at h
  next e' cls hcls =>
    cases h
    rw [← hcur] at hcls
    obtain ⟨cls, d', hrun, rfl, hend⟩ := repeatMicro_cachelineA_ok hcls
    have hfill : zeroFillA n = List.replicate (64 - 16 * n) Pixel.zero := by
      rw [zeroFillA, Nat.mul_sub]
    exact ⟨d', hfill ▸ micro_bind_ok hrun, hend⟩
  next => cases h

/-! ### The vendor-A commands -/

section
variable {c : Command} (hc : c ∈ [Command.a4, .a3, .a2])
include hc

theorem vendorA_params : c.params.ncl ≤ 4 ∧ c.params.variant.outlen = 256 := by
  revert c
  decide

theorem layout_vendorA (inherit : Config.RightInherit) (pl : Payload) :
    layout inherit pl c = vendorALayout inherit pl c.params.ncl := by
  simp only [List.mem_cons, List.not_mem_nil, or_false] at hc
  rcases hc with rfl | rfl | rfl <;> rfl

theorem firstFault_vendorA (pl : Payload) : firstFault pl c = cachelinesFault pl 0 c.params.ncl := by
  simp only [List.mem_cons, List.not_mem_nil, or_false] at hc
  rcases hc with rfl | rfl | rfl <;> rfl

theorem vendorA_firstFault_eq_none_iff (inherit : Config.RightInherit) (pl : Payload) :
    firstFault pl c = none ↔ (layout inherit pl c).isSome := by
  rw [firstFault_vendorA hc, layout_vendorA hc, cachelinesFault_eq_none_iff inherit, vendorALayout]
  cases cachelinesLayout inherit pl 0 c.params.ncl <;> rfl

theorem vendorA_fault {s : State} (hcur : s.dp.cur = 0) {x : Detail × Nat} (hx : firstFault s.payload c = some x) :
    ∃ t, exec (.ofCommand c) s = .next t ∧ Faulted s t x := by
  rw [firstFault_vendorA hc] at hx
  obtain ⟨d, hbody, hpos⟩ := bodyOf_vendorA_error hc s.parameters.rightInherit (pl := s.payload) (mp := c.params)
    (d := { s.dp with mp := c.params }) (f := x) (by rw [hcur]; exact hx)
  obtain ⟨t, hexec, hstatus, houtlen, hhost⟩ := exec_ofCommand_of_body_error hbody
  exact ⟨t, hexec, hpos ▸ hstatus, houtlen, hhost⟩

end

/-- t is what a vendor-A decode leaves of s that ends at bit q with the pixels px (41_commands.md R143). -/
structure DoneA (s t : State) (px : List Pixel) (q : Nat) : Prop where
  status : t.status = doneStatus s.status.warn q
  outlen : t.outlen = 256
  out : OutHoldsA t.out px
  host : SameHostSide s t

theorem vendorALayout_length {inherit : Config.RightInherit} {pl : Payload} {n e : Nat} {px : List Pixel} (hn : n ≤ 4)
    (h : vendorALayout inherit pl n = some (e, px)) : px.length = 64 := by
  unfold vendorALayout at h
  split at h
  next e' cls hcls =>
    cases h
    rw [List.length_append, cachelinesLayout_length hcls, List.length_replicate]
    omega
  next => cases h

/-- 64 stored pixels fill OUT. -/
theorem outHoldsA_storePixels {px : List Pixel} (h : px.length = 64) (rest : Vector Byte 256) :
    OutHoldsA (storePixels px rest) px := fun k => by
  have hk : k.val / 4 < px.length := by omega
  rw [List.getD_eq_getElem _ _ hk]
  exact storePixels_stored px rest k.val k.isLt hk

theorem vendorA_done {c : Command} (hc : c ∈ [Command.a4, .a3, .a2]) {s : State} (hcur : s.dp.cur = 0) {e : Nat}
    {px : List Pixel} (h : layout s.parameters.rightInherit s.payload c = some (e, px)) :
    ∃ t, exec (.ofCommand c) s = .next t ∧ DoneA s t px e := by
  rw [layout_vendorA hc] at h
  obtain ⟨hncl, hlen⟩ := vendorA_params hc
  obtain ⟨d, hbody, rfl⟩ := decodeA_of_layout (d := { s.dp with mp := c.params }) (congrArg Fin.val hcur) h
  have hrun : runDecode c (bodyOf s.parameters.rightInherit c) s = complete c.params.variant px { s with dp := d } := by
    simp only [runDecode, bodyOf_vendorA hc, hbody]
  exact ⟨_, (exec_ofCommand c s).trans (congrArg _ hrun), rfl, hlen,
    outHoldsA_storePixels (vendorALayout_length hncl h) _, rfl, rfl, rfl, rfl⟩

/-- Settles O20: the legal cachelines answer their pixels, and those and the zero fill are what is stored. -/
theorem vendorADecodesItsLayout : Obligations.VendorADecodesItsLayout := by
  intro c s e px hc hcur h
  obtain ⟨t, hexec, ht⟩ := vendorA_done hc hcur h
  exact ⟨t, hexec, ht.status, ht.outlen, ht.out, ht.host⟩

/-- Settles O24: a cacheline is legal exactly when none of its checks fails, and the decode reports the first that
does. -/
theorem vendorAFirstFault : Obligations.VendorAFirstFault := by
  refine fun c s hc hcur => ⟨vendorA_firstFault_eq_none_iff hc _ _, fun d pos hfault => ?_⟩
  obtain ⟨t, hexec, ht⟩ := vendorA_fault hc hcur hfault
  exact ⟨t, hexec, ht.status, ht.outlen, ht.host⟩

/-! ### The first cachelines of a longer payload -/

/-- The first cachelines of a layout are a layout, which ends no later and has the first pixels. -/
theorem cachelinesLayout_take {inherit : Config.RightInherit} {pl : Payload} {c0 n m e : Nat} {px : List Pixel}
    (h : cachelinesLayout inherit pl c0 (n + m) = some (e, px)) :
    ∃ e₁ px₁ px₂, cachelinesLayout inherit pl c0 n = some (e₁, px₁) ∧
      cachelinesLayout inherit pl e₁ m = some (e, px₂) ∧ px = px₁ ++ px₂ := by
  induction n generalizing c0 px with
  | zero =>
    rw [Nat.zero_add] at h
    exact ⟨c0, [], px, rfl, h, rfl⟩
  | succ n ih =>
    rw [Nat.succ_add] at h
    obtain ⟨hlegal, px', hrest, rfl⟩ := cachelinesLayout_succ_some h
    obtain ⟨e₁, px₁, px₂, hfirst, hlast, rfl⟩ := ih hrest
    refine ⟨e₁, cachelinePixelsAt inherit pl c0 ++ px₁, px₂, ?_, hlast, (List.append_assoc _ _ _).symm⟩
    rw [cachelinesLayout, if_pos hlegal, hfirst]

/-- Cachelines from a bit of the payload end at or after it, in the payload. -/
theorem cachelinesLayout_end {inherit : Config.RightInherit} {pl : Payload} {c0 n e : Nat} {px : List Pixel}
    (hc0 : c0 ≤ 512) (h : cachelinesLayout inherit pl c0 n = some (e, px)) : c0 ≤ e ∧ e ≤ 512 := by
  induction n generalizing c0 px with
  | zero =>
    cases h
    exact ⟨le_rfl, hc0⟩
  | succ n ih =>
    obtain ⟨hlegal, px', hrest, rfl⟩ := cachelinesLayout_succ_some h
    obtain ⟨-, hend⟩ := cachelineLegalAt_iff.1 hlegal
    have hstart : c0 ≤ slotStart pl c0 8 := by
      have hdelta := deltaStart_le_slotStart pl c0 8
      unfold deltaStart at hdelta
      omega
    obtain ⟨hle, he⟩ := ih hend hrest
    exact ⟨hstart.trans hle, he⟩

/-- A vendor-A decode that ends DONE decoded a layout. -/
theorem vendorA_layout_of_done {c : Command} (hc : c ∈ [Command.a4, .a3, .a2]) {s t : State} (hcur : s.dp.cur = 0)
    (hexec : exec (.ofCommand c) s = .next t) (hdone : t.status.state = .done) :
    ∃ e px, layout s.parameters.rightInherit s.payload c = some (e, px) ∧ DoneA s t px e := by
  cases hlayout : layout s.parameters.rightInherit s.payload c with
  | some l =>
    obtain ⟨t', hexec', ht⟩ := vendorA_done hc hcur hlayout
    cases hexec.symm.trans hexec'
    exact ⟨l.1, l.2, rfl, ht⟩
  | none =>
    have hfault : firstFault s.payload c ≠ none := by
      rw [Ne, vendorA_firstFault_eq_none_iff hc s.parameters.rightInherit, hlayout]
      exact nofun
    obtain ⟨x, hx⟩ := Option.ne_none_iff_exists'.1 hfault
    obtain ⟨t', hexec', ht⟩ := vendorA_fault hc hcur hx
    cases hexec.symm.trans hexec'
    rw [ht.status] at hdone
    cases hdone

theorem doneStatus_pos_toNat (warn : Warning) {e : Nat} (he : e ≤ 512) : (doneStatus warn e).pos.toNat = e := by
  rw [doneStatus, BitVec.toNat_ofNat]
  omega

/-- A payload with a vendor-A layout has the layout of its first n cachelines, with the same first pixels. -/
theorem vendorALayout_of_longer {inherit : Config.RightInherit} {pl : Payload} {n m e : Nat} {px : List Pixel}
    (h : vendorALayout inherit pl (n + m) = some (e, px)) :
    ∃ e' px', vendorALayout inherit pl n = some (e', px') ∧ e' ≤ e ∧ e ≤ 512 ∧
      ∀ i < 16 * n, px'.getD i Pixel.zero = px.getD i Pixel.zero := by
  unfold vendorALayout at h
  split at h
  next e cls hcls =>
    cases h
    obtain ⟨e₁, px₁, px₂, hfirst, hlast, rfl⟩ := cachelinesLayout_take hcls
    obtain ⟨-, he₁⟩ := cachelinesLayout_end (Nat.zero_le _) hfirst
    obtain ⟨hle, he⟩ := cachelinesLayout_end he₁ hlast
    refine ⟨e₁, _, by rw [vendorALayout, hfirst], hle, he, fun i hi => ?_⟩
    rw [← cachelinesLayout_length hfirst] at hi
    rw [List.append_assoc, List.getD_append _ _ _ _ hi, List.getD_append _ _ _ _ hi]
  next => cases h

/-- A command of fewer cachelines ends DONE where one of more does, no later and with the same first pixels. -/
theorem vendorA_done_of_longer {c c' : Command} (hc : c ∈ [Command.a4, .a3, .a2]) (hc' : c' ∈ [Command.a4, .a3, .a2])
    {m : Nat} (hncl : c.params.ncl = c'.params.ncl + m) {s t : State} (hcur : s.dp.cur = 0)
    (hexec : exec (.ofCommand c) s = .next t) (hdone : t.status.state = .done) :
    ∃ u, exec (.ofCommand c') s = .next u ∧ u.status.state = .done ∧ u.status.pos.toNat ≤ t.status.pos.toNat ∧
      ∀ k : Fin 256, k.val < 64 * c'.params.ncl → u.out[k] = t.out[k] := by
  obtain ⟨e, px, hlayout, ht⟩ := vendorA_layout_of_done hc hcur hexec hdone
  rw [layout_vendorA hc, hncl] at hlayout
  obtain ⟨e', px', hlayout', hle, he, hpx⟩ := vendorALayout_of_longer hlayout
  obtain ⟨u, hexec', hu⟩ := vendorA_done hc' hcur ((layout_vendorA hc' _ _).trans hlayout')
  refine ⟨u, hexec', by rw [hu.status]; rfl, ?_, fun k hk => ?_⟩
  · rw [hu.status, ht.status, doneStatus_pos_toNat _ (hle.trans he), doneStatus_pos_toNat _ he]
    exact hle
  · rw [hu.out k, ht.out k, hpx _ (by omega)]

/-- Settles O34: the first three and the first two of four legal cachelines are layouts of their own, with the same
pixels. -/
theorem partialCodesAgree : Obligations.PartialCodesAgree := fun _ _ hcur hexec hdone =>
  ⟨vendorA_done_of_longer (c := .a4) (c' := .a3) (m := 1) (by decide) (by decide) rfl hcur hexec hdone,
    vendorA_done_of_longer (c := .a4) (c' := .a2) (m := 2) (by decide) (by decide) rfl hcur hexec hdone⟩

end Sys2Proof.Machine
end

section
/-!
PROOFS. The vendor-B decodes by their layouts (30_encoding.md R77, R78): the pixels of a legal payload and the first
failing check of any other.
-/

namespace Sys2Proof.Machine

/-! ### Legal payloads have no fault -/

theorem regionFault_eq_none {pl : Payload} {q r : Nat} : regionFault pl q r = none ↔ zeroBits pl q r = true := by
  rw [zeroBits_eq, regionFault, Option.map_eq_none_iff]

/-- A must-be-zero region is its two parts. -/
theorem zeroBits_split {pl : Payload} {q m r : Nat} (h₀ : q ≤ m) (h₁ : m ≤ r) :
    zeroBits pl q r = true ↔ zeroBits pl q m = true ∧ zeroBits pl m r = true := by
  simp only [zeroBits_eq, zeroFault_eq_none]
  refine ⟨fun h => ⟨fun k hk => h k (by omega), fun k hk => ?_⟩, fun ⟨hlow, hhigh⟩ k hk => ?_⟩
  · have hbit := h (m - q + k) (by omega)
    rwa [← Nat.add_assoc, Nat.add_sub_cancel' h₀] at hbit
  · by_cases hm : k < m - q
    · exact hlow k hm
    · have hbit := hhigh (k - (m - q)) (by omega)
      rwa [show m + (k - (m - q)) = q + k by omega] at hbit

theorem gen8Fault_eq_none_iff {pl : Payload} : gen8Fault pl = none ↔ gen8Legal pl = true := by
  have htail := zeroBits_split (pl := pl) (gen8RecordAt_le pl le_rfl) (show 496 ≤ 512 by omega)
  rw [gen8Fault_eq]
  simp only [orElse_eq_none, widthFault_eq_none, List.findSome?_eq_none_iff, regionFault_eq_none, List.mem_range]
  simp only [gen8Legal, Bool.and_eq_true, decide_eq_true_eq, List.all_eq_true, List.mem_range, htail, and_assoc]

theorem gen11TailsFault_eq_none_iff {pl : Payload} {mp : ModeParams} :
    widthFault (gen11WidthsBefore pl mp.pred 4) mp.budget 44 = none ∧ gen11TailsFault pl mp = none ↔
      gen11Legal pl mp.pred mp.budget (gen11RecordsAt mp) (gen11RecordCount mp) = true := by
  simp only [gen11TailsFault, tailFault, widthFault_eq_none, List.findSome?_eq_none_iff, regionFault_eq_none,
    List.mem_range, gen11Legal, Bool.and_eq_true, decide_eq_true_eq, List.all_eq_true, Nat.mul_succ, Nat.add_assoc]

/-- The layout of a gen11 command, by its parameters. -/
theorem layout_gen11 {c : Command} (h : c.params.variant = .b11) (inherit : Config.RightInherit) (pl : Payload) :
    layout inherit pl c =
      if c.params.ext then extensionLayout pl c.params.pred c.params.budget
      else gen11Layout pl c.params.pred c.params.budget c.params.lo (c.params.hi + 1 - c.params.lo) := by
  cases c with
  | a4 | a3 | a2 | b8 => cases h
  | b11s0 | b11s1 | b11s2 | b11s3 | b11s0x | b11s3x => rfl

/-! ### Logical pixels as a list -/

theorem logicalPixels_toList (lo : Nat) (px : List Pixel) :
    (logicalPixels lo px).toList =
      (List.range 32).map fun i => if i < lo then Pixel.zero else px.getD (i - lo) Pixel.zero :=
  List.ext_getElem (by simp) fun i h _ => by simp [logicalPixels]

theorem getD_map_range {f : Nat → Pixel} {n i : Nat} (h : i < n) :
    ((List.range n).map f).getD i Pixel.zero = f i := by
  rw [List.getD_eq_getElem _ _ (by simpa using h)]
  simp

/-- LP of a gen8 payload, in logical order. -/
theorem gen8Logical_toList (pl : Payload) : (gen8Logical pl).toList = (List.range 32).map (gen8PixelAt pl) := by
  rw [gen8Logical, logicalPixels_toList]
  refine List.map_congr_left fun i hi => ?_
  rw [if_neg (Nat.not_lt_zero _), Nat.sub_zero, getD_map_range (List.mem_range.1 hi)]

/-- LP of a gen11 payload without EXT: the records in the range, zero outside it (44_vendor_b_decode.md R206). -/
theorem gen11Logical_toList_of_not_ext (pl : Payload) {mp : ModeParams} (h : mp.ext = false) :
    (gen11Logical pl mp).toList = (List.range 32).map fun i =>
      if mp.lo ≤ i ∧ i < mp.lo + gen11RecordCount mp then gen11RecordPixel pl mp (i - mp.lo) else Pixel.zero := by
  rw [gen11Logical_of_not_ext h, logicalPixels_toList]
  refine List.map_congr_left fun i _ => ?_
  by_cases hlo : i < mp.lo
  · rw [if_pos hlo, if_neg (by omega)]
  · rw [if_neg hlo]
    by_cases hhi : i < mp.lo + gen11RecordCount mp
    · rw [if_pos ⟨by omega, hhi⟩, getD_map_range (by omega)]
    · rw [if_neg (by omega), List.getD_eq_default _ _ (by simp; omega)]

/-! ### The extension walk, pixel by pixel -/

theorem recordsOf_append (us vs : List Bool) : recordsOf (us ++ vs) = recordsOf us + recordsOf vs := by
  induction us with
  | nil => simp [recordsOf]
  | cons u us ih => rw [List.cons_append, recordsOf, recordsOf, ih, Nat.add_assoc]

/-- The records before sub-window k are those of the first k sub-windows (44_vendor_b_decode.md R205). -/
theorem recordsOf_take_uniformFlags (pl : Payload) {k : Nat} (hk : k ≤ 8) :
    recordsOf ((uniformFlags pl).take k) = recordsBefore pl k := by
  have htake : (uniformFlags pl).take k = (List.range k).map (uniformAt pl) := by
    rw [uniformFlags, ← List.map_take, List.take_range, Nat.min_eq_left hk]
  rw [htake]
  clear htake hk
  induction k with
  | zero => rfl
  | succ k ih =>
    rw [List.range_succ, List.map_append, recordsOf_append, ih, recordsBefore, recordsBefore, sumTo_succ]
    rfl

/-- Pixel j of sub-window k: the sub-window's one record when it is uniform, its record j when it is not. -/
theorem windowPixels_getD (px : Nat → Pixel) {us : List Bool} {r k j : Nat} (hk : k < us.length) (hj : j < 4) :
    (windowPixels px us r).getD (4 * k + j) Pixel.zero = px (r + recordsOf (us.take k) + if us[k] then 0 else j) := by
  induction us generalizing r k with
  | nil => exact absurd hk (Nat.not_lt_zero _)
  | cons u us ih =>
    have hfour : (if u then List.replicate 4 (px r) else [px r, px (r + 1), px (r + 2), px (r + 3)]).length = 4 := by
      cases u <;> rfl
    rw [windowPixels]
    cases k with
    | zero =>
      rw [List.getD_append _ _ _ _ (by omega)]
      cases u <;> interval_cases j <;> rfl
    | succ k =>
      rw [List.getD_append_right _ _ _ _ (by omega), hfour, show 4 * (k + 1) + j - 4 = 4 * k + j by omega,
        ih (Nat.lt_of_succ_lt_succ hk), List.take_succ_cons, recordsOf, List.getElem_cons_succ]
      congr 1
      omega

/-- LP of a gen11 payload with EXT. -/
theorem gen11Logical_toList_of_ext (pl : Payload) {mp : ModeParams} (h : mp.ext = true) :
    (gen11Logical pl mp).toList =
      (List.range 32).map fun i => gen11RecordPixel pl mp (extensionRecordOf pl i) := by
  rw [gen11Logical_of_ext h, logicalPixels_toList]
  refine List.map_congr_left fun i hi => ?_
  have hi : i < 32 := List.mem_range.1 hi
  have hk : i / 4 < (uniformFlags pl).length := by
    simp [uniformFlags]
    omega
  have hpixel := windowPixels_getD (gen11RecordPixel pl mp) (r := 0) hk (Nat.mod_lt i (by decide : 0 < 4))
  rw [Nat.div_add_mod, Nat.zero_add, recordsOf_take_uniformFlags pl (by omega)] at hpixel
  rw [if_neg (Nat.not_lt_zero _), Nat.sub_zero, hpixel, extensionRecordOf]
  simp [uniformFlags]

/-! ### The layouts -/

/-- A gen8 payload without a fault has the layout its decode leaves in LP, and no other has one. -/
theorem gen8Layout_eq (pl : Payload) :
    gen8Layout pl = if gen8Fault pl = none then some (512, (gen8Logical pl).toList) else none := by
  simp only [gen8Fault_eq_none_iff, gen8Logical_toList]
  rfl

/-- A gen11 payload without a fault has the layout its decode leaves in LP, and no other has one. -/
theorem layout_gen11_eq {c : Command} (h : c.params.variant = .b11) (inherit : Config.RightInherit) (pl : Payload) :
    layout inherit pl c =
      if firstFault pl c = none then some (gen11End c.params, (gen11Logical pl c.params).toList) else none := by
  have hlegal := gen11TailsFault_eq_none_iff (pl := pl) (mp := c.params)
  rw [layout_gen11 h, firstFault_gen11 h, gen11Fault_eq]
  simp only [orElse_eq_none]
  cases hext : c.params.ext with
  | false =>
    rw [gen11RecordsAt_of_not_ext hext] at hlegal
    simp only [Bool.false_eq_true, if_false, true_and, hlegal, gen11Layout, gen11Logical_toList_of_not_ext pl hext,
      gen11End, gen11RecordPixel, gen11RecordsAt_of_not_ext hext, gen11RecordCount_of_not_ext hext]
  | true =>
    rw [gen11RecordsAt_of_ext hext, gen11RecordCount_of_ext hext] at hlegal
    simp only [if_true, uniformFault_eq_none, and_left_comm, hlegal, extensionLayout,
      gen11Logical_toList_of_ext pl hext, gen11End, gen11RecordPixel, gen11RecordsAt_of_ext hext,
      gen11RecordCount_of_ext hext]

/-! ### The vendor-B commands -/

/-- Where a vendor-B stream ends (44_vendor_b_decode.md R195, R208). -/
def vendorBEnd (c : Command) : Nat := if c = .b8 then 512 else gen11End c.params

/-- LP of a vendor-B payload. -/
def vendorBLogical (pl : Payload) (c : Command) : Vector Pixel 32 :=
  if c = .b8 then gen8Logical pl else gen11Logical pl c.params

theorem vendorB_cases {c : Command} (hc : c ∉ [Command.a4, .a3, .a2]) :
    c = .b8 ∨ c ≠ .b8 ∧ c.params.variant = .b11 := by
  cases c with
  | a4 | a3 | a2 => exact absurd hc (by decide)
  | b8 => exact .inl rfl
  | b11s0 | b11s1 | b11s2 | b11s3 | b11s0x | b11s3x => exact .inr ⟨nofun, rfl⟩

section
variable {c : Command} (hc : c ∉ [Command.a4, .a3, .a2])
include hc

theorem layout_vendorB (inherit : Config.RightInherit) (pl : Payload) :
    layout inherit pl c =
      if firstFault pl c = none then some (vendorBEnd c, (vendorBLogical pl c).toList) else none := by
  rcases vendorB_cases hc with rfl | ⟨hne, hgen11⟩
  · exact gen8Layout_eq pl
  · rw [layout_gen11_eq hgen11, vendorBEnd, vendorBLogical, if_neg hne, if_neg hne]

theorem vendorB_firstFault_eq_none_iff (inherit : Config.RightInherit) (pl : Payload) :
    firstFault pl c = none ↔ (layout inherit pl c).isSome := by
  rw [layout_vendorB hc]
  by_cases h : firstFault pl c = none <;> simp [h]

variable {s : State} (hcur : s.dp.cur = 0)
include hcur

theorem vendorB_fault {x : Detail × Nat} (hx : firstFault s.payload c = some x) :
    ∃ t, exec (.ofCommand c) s = .next t ∧ Faulted s t x := by
  rcases vendorB_cases hc with rfl | ⟨-, hgen11⟩
  · exact gen8_fault hcur hx
  · exact gen11_fault hgen11 hcur hx

theorem vendorB_done (hf : firstFault s.payload c = none) :
    ∃ t, exec (.ofCommand c) s = .next t ∧ DoneB s t (vendorBLogical s.payload c) (vendorBEnd c) := by
  rcases vendorB_cases hc with rfl | ⟨hne, hgen11⟩
  · exact gen8_done hcur hf
  · rw [vendorBLogical, vendorBEnd, if_neg hne, if_neg hne]
    exact gen11_done hgen11 hcur hf

theorem vendorB_done_of_layout {e : Nat} {px : List Pixel}
    (h : layout s.parameters.rightInherit s.payload c = some (e, px)) :
    ∃ t lp, exec (.ofCommand c) s = .next t ∧ DoneB s t lp e ∧ px = lp.toList := by
  rw [layout_vendorB hc] at h
  split at h
  next hnone =>
    cases h
    obtain ⟨t, hexec, ht⟩ := vendorB_done hc hcur hnone
    exact ⟨t, _, hexec, ht, rfl⟩
  next => cases h

/-- A vendor-B command decodes its layout, whichever it is. -/
theorem vendorB_decodes_layout {e : Nat} {px : List Pixel}
    (h : layout s.parameters.rightInherit s.payload c = some (e, px)) :
    ∃ t, exec (.ofCommand c) s = .next t ∧ t.status = doneStatus s.status.warn e ∧ t.outlen = 128 ∧
      OutHoldsB t.out px ∧ SameHostSide s t := by
  obtain ⟨t, lp, hexec, ht, rfl⟩ := vendorB_done_of_layout hc hcur h
  refine ⟨t, hexec, ht.status, ht.outlen, fun i j => ?_, ht.host⟩
  rw [ht.out_slot, List.getD_eq_getElem _ _ (by simp)]
  rfl

end

/-- Settles O21: a legal gen8 payload has no fault, and LP holds the pixels of its layout. -/
theorem gen8DecodesItsLayout : Obligations.Gen8DecodesItsLayout := fun _ _ _ hcur h =>
  vendorB_decodes_layout (c := .b8) (by decide) hcur h

/-- Settles O22: a legal gen11 payload has no fault, and LP holds its records in the range of the command. -/
theorem gen11DecodesItsLayout : Obligations.Gen11DecodesItsLayout := fun c _ _ _ hc hcur h =>
  have hb : ∀ c ∈ [Command.b11s0, .b11s1, .b11s2, .b11s3], c ∉ [Command.a4, .a3, .a2] := by decide
  vendorB_decodes_layout (hb c hc) hcur h

/-- Settles O23: with four uniform sub-windows the walk takes 20 records, and LP holds the record of each logical
pixel. -/
theorem extensionDecodesItsLayout : Obligations.ExtensionDecodesItsLayout := fun c _ _ _ hc hcur h =>
  have hb : ∀ c ∈ [Command.b11s0x, .b11s3x], c ∉ [Command.a4, .a3, .a2] := by decide
  vendorB_decodes_layout (hb c hc) hcur h

/-- Settles O25: a payload is legal exactly when none of its checks fails, and the decode reports the first that
does. -/
theorem vendorBFirstFault : Obligations.VendorBFirstFault := by
  refine fun c s hc hcur => ⟨vendorB_firstFault_eq_none_iff hc _ _, fun d pos hfault => ?_⟩
  obtain ⟨t, hexec, ht⟩ := vendorB_fault hc hcur hfault
  exact ⟨t, hexec, ht.status, ht.outlen, ht.host⟩

end Sys2Proof.Machine
end

section
/-!
PROOFS. Determinism of a decode (41_commands.md R149): what it leaves that the host can see is a function of PAYLOAD,
CMD and the parameters.
-/

namespace Sys2Proof.Machine

/-- The decodes of two machines ended alike: the same STATUS and OUTLEN, and the same bytes of OUT where OUT is
defined. -/
structure SameEnd (t₁ t₂ : State) : Prop where
  ended : t₁.status.state ≠ .busy
  status : t₁.status = t₂.status
  outlen : t₁.outlen = t₂.outlen
  out : ∀ k : Fin 256, k.val < t₁.outlen.toNat → t₁.out[k] = t₂.out[k]

theorem sameEnd_of_eq {t₁ t₂ : State} {st : Status} {len : BitVec 9} (hstatus₁ : t₁.status = st)
    (hstatus₂ : t₂.status = st) (hended : st.state ≠ .busy) (houtlen₁ : t₁.outlen = len) (houtlen₂ : t₂.outlen = len)
    (hout : ∀ k : Fin 256, k.val < len.toNat → t₁.out[k] = t₂.out[k]) : SameEnd t₁ t₂ where
  ended := hstatus₁ ▸ hended
  status := hstatus₁.trans hstatus₂.symm
  outlen := houtlen₁.trans houtlen₂.symm
  out k hk := hout k (houtlen₁ ▸ hk)

section
variable {s₁ t₁ s₂ t₂ : State} (hwarn : s₁.status.warn = s₂.status.warn)
include hwarn

theorem Faulted.sameEnd {x : Detail × Nat} (h₁ : Faulted s₁ t₁ x) (h₂ : Faulted s₂ t₂ x) : SameEnd t₁ t₂ :=
  sameEnd_of_eq h₁.status (hwarn ▸ h₂.status) nofun h₁.outlen h₂.outlen fun _ hk => absurd hk (Nat.not_lt_zero _)

theorem DoneA.sameEnd {px : List Pixel} {q : Nat} (h₁ : DoneA s₁ t₁ px q) (h₂ : DoneA s₂ t₂ px q) : SameEnd t₁ t₂ :=
  sameEnd_of_eq h₁.status (hwarn ▸ h₂.status) nofun h₁.outlen h₂.outlen fun k _ => (h₁.out k).trans (h₂.out k).symm

theorem DoneB.sameEnd {lp : Vector Pixel 32} {q : Nat} (h₁ : DoneB s₁ t₁ lp q) (h₂ : DoneB s₂ t₂ lp q) :
    SameEnd t₁ t₂ :=
  sameEnd_of_eq h₁.status (hwarn ▸ h₂.status) nofun h₁.outlen h₂.outlen fun _ hk => h₁.out_congr h₂ hk

end

/-- Every command faults as its layout says. -/
theorem command_fault {c : Command} {s : State} (hcur : s.dp.cur = 0) {x : Detail × Nat}
    (hx : firstFault s.payload c = some x) : ∃ t, exec (.ofCommand c) s = .next t ∧ Faulted s t x := by
  by_cases hc : c ∈ [Command.a4, .a3, .a2]
  · exact vendorA_fault hc hcur hx
  · exact vendorB_fault hc hcur hx

/-- What the decode of c leaves is a function of PAYLOAD, the parameters and WARN, whatever the internal registers
hold. -/
theorem decode_sameEnd (c : Command) {s₁ s₂ : State} (hcur₁ : s₁.dp.cur = 0) (hcur₂ : s₂.dp.cur = 0)
    (hparameters : s₁.parameters = s₂.parameters) (hpayload : s₁.payload = s₂.payload)
    (hwarn : s₁.status.warn = s₂.status.warn) :
    ∃ t₁ t₂, exec (.ofCommand c) s₁ = .next t₁ ∧ exec (.ofCommand c) s₂ = .next t₂ ∧ SameEnd t₁ t₂ := by
  cases hfault : firstFault s₁.payload c with
  | some x =>
    obtain ⟨t₁, hexec₁, ht₁⟩ := command_fault hcur₁ hfault
    obtain ⟨t₂, hexec₂, ht₂⟩ := command_fault hcur₂ (hpayload ▸ hfault)
    exact ⟨t₁, t₂, hexec₁, hexec₂, ht₁.sameEnd hwarn ht₂⟩
  | none =>
    by_cases hc : c ∈ [Command.a4, .a3, .a2]
    · have hsome := (vendorA_firstFault_eq_none_iff hc s₁.parameters.rightInherit s₁.payload).1 hfault
      obtain ⟨⟨e, px⟩, hlayout⟩ := Option.isSome_iff_exists.1 hsome
      obtain ⟨t₁, hexec₁, ht₁⟩ := vendorA_done hc hcur₁ hlayout
      rw [hparameters, hpayload] at hlayout
      obtain ⟨t₂, hexec₂, ht₂⟩ := vendorA_done hc hcur₂ hlayout
      exact ⟨t₁, t₂, hexec₁, hexec₂, ht₁.sameEnd hwarn ht₂⟩
    · obtain ⟨t₁, hexec₁, ht₁⟩ := vendorB_done hc hcur₁ hfault
      obtain ⟨t₂, hexec₂, ht₂⟩ := vendorB_done hc hcur₂ (hpayload ▸ hfault)
      rw [← hpayload] at ht₂
      exact ⟨t₁, t₂, hexec₁, hexec₂, ht₁.sameEnd hwarn ht₂⟩

/-! ### START and the decoder's move -/

/-- The state in which the decode of c runs, started from s. -/
def decodingState (c : Command) (s : State) : State := latchMode c.params (latchCommand { s with inputs := [] })

section
variable {s : State} (hidle : ¬ Busy s)
include hidle

/-- The first of the two inputs is a START. -/
theorem step_startThenDecode :
    step { s with inputs := startThenDecode } = .next (startDecode { s with inputs := [.decoder] }) := by
  have hword : decodeHt 0x10644 = .ok (.start 1) := by decide
  exact (stepRunsTransaction _ _ _ _ rfl hword).trans
    (exec_start_notBusy (s := { s with inputs := [.decoder] }) hidle 1)

/-- A supported word: the decoder's move decodes it. -/
theorem twoSteps_of_command {c : Command} {t : State} (hc : decodeCommand s.parameters.codes s.cmd = .ok c)
    (hexec : exec (.ofCommand c) (decodingState c s) = .next t) :
    TwoSteps { s with inputs := startThenDecode } t := by
  have hstart : startDecode { s with inputs := [.decoder] } =
      latchMode c.params (latchCommand { s with inputs := [.decoder] }) := by simp [startDecode, hc]
  refine ⟨_, step_startThenDecode hidle, ?_⟩
  rw [hstart]
  exact ((stepRunsLatchedCommand.1 (latchMode c.params (latchCommand { s with inputs := [.decoder] })) c rfl hc).2 []
    rfl).trans hexec

/-- A word that is refused: START faults, and the decoder does not move. -/
theorem twoSteps_of_reject {r : CommandReject} (hr : decodeCommand s.parameters.codes s.cmd = .error r) :
    TwoSteps { s with inputs := startThenDecode }
      { raiseFault (detailOfReject r) (latchCommand { s with inputs := [.decoder] }) with inputs := [] } := by
  refine ⟨_, step_startThenDecode hidle, ?_⟩
  rw [startDecode_of_decode_error (s := { s with inputs := [.decoder] }) hr]
  have hended : ¬ Busy (raiseFault (detailOfReject r) (latchCommand { s with inputs := [.decoder] })) := nofun
  exact (stepRunsLatchedCommand.2 _ hended).2 [] rfl

end

/-- Settles O57: both machines latch the same word, and either decode the same payload from CUR 0 or fault alike at
START. -/
theorem decodeDeterministic : Obligations.DecodeDeterministic := by
  intro s₁ s₂ hidle₁ hidle₂ hparameters hpayload hcmd
  suffices hend : ∃ t₁ t₂, TwoSteps { s₁ with inputs := startThenDecode } t₁ ∧
      TwoSteps { s₂ with inputs := startThenDecode } t₂ ∧ SameEnd t₁ t₂ by
    obtain ⟨t₁, t₂, hsteps₁, hsteps₂, h⟩ := hend
    exact ⟨t₁, t₂, hsteps₁, hsteps₂, h.ended, h.status, h.outlen, h.out⟩
  cases hdecode : decodeCommand s₁.parameters.codes s₁.cmd with
  | ok c =>
    obtain ⟨t₁, t₂, hexec₁, hexec₂, h⟩ := decode_sameEnd c (s₁ := decodingState c s₁) (s₂ := decodingState c s₂) rfl rfl
      hparameters hpayload rfl
    have hsteps₁ := twoSteps_of_command hidle₁ hdecode hexec₁
    rw [hparameters, hcmd] at hdecode
    exact ⟨t₁, t₂, hsteps₁, twoSteps_of_command hidle₂ hdecode hexec₂, h⟩
  | error r =>
    have hsteps₁ := twoSteps_of_reject hidle₁ hdecode
    rw [hparameters, hcmd] at hdecode
    exact ⟨_, _, hsteps₁, twoSteps_of_reject hidle₂ hdecode, nofun, rfl, rfl, fun k hk => absurd hk (Nat.not_lt_zero _)⟩

end Sys2Proof.Machine
end
